-- ==== Sys2Proof/Word.lean ====
section
/-! DEFINITION. The words of the machine: bytes of BUF, 32-bit command and register words, and 384-bit
register values (00_scope.md rules R6 and R7). -/

namespace Sys2Proof

/-- A byte of BUF (10_state.md rule R35). -/
abbrev Byte := BitVec 8

/-- A 32-bit word: a command word or a host register (30_encoding.md rule R90; 10_state.md section 7). -/
abbrev Word := BitVec 32

/-- A 384-bit value, an integer in [0, 2^384) (00_scope.md rule R7). -/
abbrev Val := BitVec 384

end Sys2Proof
end

