-- ==== Sys2Proof/Config.lean ====
section
/-! DEFINITION. What is fixed for the machine: the curve and its constants (00_scope.md rules R5, R6),
the constants of LDC (41_move_compare.md rule R133), and the one free value of the model. -/

namespace Sys2Proof.Config

/-- The prime p of P-384 (00_scope.md rule R5). Log entry 15. -/
def p : Nat := 0xFFFFFFFFFFFFFFFFFFFFFFFFFFFFFFFFFFFFFFFFFFFFFFFFFFFFFFFFFFFFFFFEFFFFFFFF0000000000000000FFFFFFFF

/-- The curve order n (00_scope.md rule R5). Log entry 15. -/
def n : Nat := 0xFFFFFFFFFFFFFFFFFFFFFFFFFFFFFFFFFFFFFFFFFFFFFFFFC7634D81F4372DDF581A0DB248B0A77AECEC196ACCC52973

/-- The coefficient a = p - 3 (00_scope.md rule R5). -/
def a : Nat := 0xFFFFFFFFFFFFFFFFFFFFFFFFFFFFFFFFFFFFFFFFFFFFFFFFFFFFFFFFFFFFFFFEFFFFFFFF0000000000000000FFFFFFFC

/-- The coefficient b (00_scope.md rule R5). Log entry 15. -/
def b : Nat := 0xB3312FA7E23EE7E4988E056BE3F82D19181D9C6EFE8141120314088F5013875AC656398D8A2ED19D2A85C8EDD3EC2AEF

/-- The x coordinate of the base point G (00_scope.md rule R5). Log entry 15. -/
def gx : Nat := 0xAA87CA22BE8B05378EB1C71EF320AD746E1D3B628BA79B9859F741E082542A385502F25DBF55296C3A545E3872760AB7

/-- The y coordinate of the base point G (00_scope.md rule R5). Log entry 15. -/
def gy : Nat := 0x3617DE4A96262C6F5D9E98BF9292DC29F8F41DBD289A147CE9DA3113B5F0B8C00A60B1CE1D7E819D7A431D7C90EA0E5F

/-- R2P = 2^768 mod p (41_move_compare.md rule R133). -/
def r2p : Nat := 0x000000000000000000000000000000010000000200000000FFFFFFFE000000000000000200000000FFFFFFFE00000001

/-- R2N = 2^768 mod n (41_move_compare.md rule R133). -/
def r2n : Nat := 0x0C84EE012B39BF213FB05B7A28266895D40D49174AAB1CC5BC3E483AFCB82947FF3D81E5DF1AA4192D319B2419B409A9

/-- Rinv_p, the inverse of the Montgomery radix modulo p (42_field.md rule R144). -/
def rinvP : Nat := 0x00000014000000140000000C00000002FFFFFFFCFFFFFFFAFFFFFFFBFFFFFFFDFFFFFFEBFFFFFFD8FFFFFFE100000006

/-- Rinv_n, the inverse of the Montgomery radix modulo n (43_scalar.md rule R164). -/
def rinvN : Nat := 0x355CA87DE39DBB1FA150206CE4F194AC78D4BA5866D61787E29F9FB70A9DA219D26D4AEBA664EDB0610AE855F2C0D911

/-- BUFSIZE, the number of bytes of BUF (00_scope.md rule R6). -/
def bufSize : Nat := 256

/-- The value of the register ID, the ASCII bytes "P384" (10_state.md rule R37). -/
def idValue : Word := 0x50333834#32

/-- FREE VALUE (log entry 6, DESIGN CHOICE): what inv_m gives for an argument that is 0 modulo m.
00_scope.md rule R9 defines inv_m only for a mod m ≠ 0. No command reaches this value while every point
register is on the curve. -/
opaque inverseOfZero : Nat → Nat

end Sys2Proof.Config
end

