-- ==== Sys2Proof/Machine/Modular.lean ====
section
/-! DEFINITION. Arithmetic modulo p and n (00_scope.md rules R9, R10), on mathematical integers. -/

namespace Sys2Proof.Machine

/-- `v mod m` for an integer v: the unique r in [0, m) with m dividing v - r (00_scope.md rule R9). -/
def imod (v : Int) (m : Nat) : Nat := (v % (m : Int)).toNat

/-- v is canonical for m when it is in [0, m) (00_scope.md rule R9). -/
abbrev canonical (m v : Nat) : Prop := v < m

/-- `(u + v) mod m` (42_field.md rule R141, 43_scalar.md rule R161): the sum is not truncated. -/
def addMod (m u v : Nat) : Nat := (u + v) % m

/-- `(u - v) mod m` (42_field.md rule R142, 43_scalar.md rule R162). -/
def subMod (m u v : Nat) : Nat := imod ((u : Int) - v) m

/-- `(u * v) mod m`, the full product reduced (42_field.md rule R143, 43_scalar.md rule R163). -/
def mulMod (m u v : Nat) : Nat := u * v % m

/-- `(u * v * rinv) mod m`, the Montgomery product with rinv = 2^(-384) mod m (42_field.md rule R144,
43_scalar.md rule R164). -/
def montMod (m rinv u v : Nat) : Nat := u * v * rinv % m

/-- One step of an exponentiation: square, and multiply by the base when the exponent's bit is 1. -/
def powStep (m base bit r : Nat) : Nat :=
  if bit = 1 then r * r % m * base % m else r * r % m

/-- `base ^ e mod m` by its `k` low exponent bits, most significant bit first. -/
def powBits (m base : Nat) : Nat → Nat → Nat
  | 0, _ => 1 % m
  | k + 1, e => powStep m base (e % 2) (powBits m base k (e / 2))

/-- `base ^ e mod m`, repeated modular multiplication (00_scope.md rule R9); `powMod_eq` in Laws/Modular.lean
says it is `base ^ e % m`. -/
def powMod (base e m : Nat) : Nat := powBits m base (e.log2 + 1) e

/-- inv_m(a) for m prime (00_scope.md rule R9), by Fermat's exponentiation, one of the two algorithms of
42_field.md rule R145. Rule R9 defines it only for a mod m ≠ 0; else the value is free (log entry 6). -/
def invMod (m a : Nat) : Nat :=
  if a % m = 0 then Config.inverseOfZero m else powMod a (m - 2) m

/-- sqrt_p(v) = v ^ ((p+1)/4) mod p (00_scope.md rule R10). -/
def sqrtP (v : Nat) : Nat := powMod v ((Config.p + 1) / 4) Config.p

end Sys2Proof.Machine
end

