-- ==== Sys2Proof/Syntax.lean ====
section
/-! DEFINITION. The 32 commands of P384CMD version 1 (30_encoding.md rule R101), one constructor per row of
spec/opcode_table.json, in the table's order. -/

namespace Sys2Proof

/-- The number of an x register, 0 to 7 (10_state.md rules R21, R23). -/
abbrev XReg := Fin 8

/-- The number of a point register, 0 to 3 (10_state.md rules R24, R25). -/
abbrev PReg := Fin 4

/-- The eight constants of LDC, in the order of their selectors 0 to 7 (41_move_compare.md rule R133). -/
inductive Const where
  | zero | one | p | n | a | b | r2p | r2n
  deriving DecidableEq, Repr

/-- A command. Operands stand in the order of 30_encoding.md rule R106: destination, first source, second
source, immediates. An address or a length is a natural number; `Instr.wellFormed` bounds it. -/
inductive Instr where
  /-- R120 -/
  | nop
  /-- R121 -/
  | clrerr
  /-- R122 -/
  | zeroize
  /-- R130: `LDX xd, addr` -/
  | ldx (d : XReg) (addr : Nat)
  /-- R131: `STX xs, addr` -/
  | stx (r : XReg) (addr : Nat)
  /-- R132: `MOV xd, xa` -/
  | mov (d a : XReg)
  /-- R133: `LDC xd, k` -/
  | ldc (d : XReg) (k : Const)
  /-- R134: `CMP xa, xb` -/
  | cmp (a b : XReg)
  /-- R141 -/
  | fadd (d a b : XReg)
  /-- R142 -/
  | fsub (d a b : XReg)
  /-- R143 -/
  | fmul (d a b : XReg)
  /-- R144 -/
  | fmmul (d a b : XReg)
  /-- R145 -/
  | finv (d a : XReg)
  /-- R146 -/
  | fred (d a : XReg)
  /-- R147 -/
  | fsqrt (d a : XReg)
  /-- R161 -/
  | nadd (d a b : XReg)
  /-- R162 -/
  | nsub (d a b : XReg)
  /-- R163 -/
  | nmul (d a b : XReg)
  /-- R164 -/
  | nmmul (d a b : XReg)
  /-- R165 -/
  | ninv (d a : XReg)
  /-- R166 -/
  | nred (d a : XReg)
  /-- R170: `PINF Pd` -/
  | pinf (d : PReg)
  /-- R171: `PLDG Pd` -/
  | pldg (d : PReg)
  /-- R172: `PSET Pd, xa, xb` -/
  | pset (d : PReg) (a b : XReg)
  /-- R173: `PGETX xd, Pa` -/
  | pgetx (d : XReg) (a : PReg)
  /-- R174: `PGETY xd, Pa` -/
  | pgety (d : XReg) (a : PReg)
  /-- R175 -/
  | pmov (d a : PReg)
  /-- R176 -/
  | pdbl (d a : PReg)
  /-- R177 -/
  | padd (d a b : PReg)
  /-- R178: `PMUL Pd, xk, Pb` -/
  | pmul (d : PReg) (k : XReg) (b : PReg)
  /-- R191: `PENC Ps, addr` -/
  | penc (r : PReg) (addr : Nat)
  /-- R192: `PDEC Pd, addr, len` -/
  | pdec (d : PReg) (addr len : Nat)
  deriving DecidableEq, Repr

end Sys2Proof
end

