-- ==== Sys2Proof/WellFormed.lean ====
section
/-! DEFINITION. Which commands have an encoding: an address and a length are 8-bit fields
(30_encoding.md rule R99). Register numbers and the LDC constant are well formed by their types. -/

namespace Sys2Proof

/-- An 8-bit immediate holds 0 to 255 (30_encoding.md rule R99). -/
abbrev fitsByte (v : Nat) : Prop := v < 256

/-- A command whose immediates fit their fields. -/
def Instr.wellFormed : Instr → Bool
  | .ldx _ addr => decide (fitsByte addr)
  | .stx _ addr => decide (fitsByte addr)
  | .penc _ addr => decide (fitsByte addr)
  | .pdec _ addr len => decide (fitsByte addr) && decide (fitsByte len)
  | .nop => true
  | .clrerr => true
  | .zeroize => true
  | .mov _ _ => true
  | .ldc _ _ => true
  | .cmp _ _ => true
  | .fadd _ _ _ => true
  | .fsub _ _ _ => true
  | .fmul _ _ _ => true
  | .fmmul _ _ _ => true
  | .finv _ _ => true
  | .fred _ _ => true
  | .fsqrt _ _ => true
  | .nadd _ _ _ => true
  | .nsub _ _ _ => true
  | .nmul _ _ _ => true
  | .nmmul _ _ _ => true
  | .ninv _ _ => true
  | .nred _ _ => true
  | .pinf _ => true
  | .pldg _ => true
  | .pset _ _ _ => true
  | .pgetx _ _ => true
  | .pgety _ _ => true
  | .pmov _ _ => true
  | .pdbl _ _ => true
  | .padd _ _ _ => true
  | .pmul _ _ _ => true

end Sys2Proof
end

