-- ==== Sys2Proof/Decode.lean ====
section
/-! DEFINITION. The decoder (30_encoding.md rules R100 to R103) and, after it, the encoder (rules R92 to
R99). A command word crosses the host interface as a 32-bit number (20_memory.md rule R61), so there is no byte order here. -/

namespace Sys2Proof

/-- Field A = w[23:20] (30_encoding.md rule R91). -/
def fieldA (w : Word) : BitVec 4 := w.extractLsb' 20 4

/-- Field B = w[19:16] (30_encoding.md rule R91). -/
def fieldB (w : Word) : BitVec 4 := w.extractLsb' 16 4

/-- Field C = w[15:12] (30_encoding.md rule R91). -/
def fieldC (w : Word) : BitVec 4 := w.extractLsb' 12 4

/-- The length len = w[15:8] (30_encoding.md rules R91, R99). -/
def fieldLen (w : Word) : Nat := (w.extractLsb' 8 8).toNat

/-- The address addr = w[7:0] (30_encoding.md rules R91, R99). -/
def fieldAddr (w : Word) : Nat := (w.extractLsb' 0 8).toNat

/-- The opcode, w[31:24] (30_encoding.md rule R91). -/
def fieldOp (w : Word) : BitVec 8 := w.extractLsb' 24 8

/-- The x register a 4-bit field names; the mask of its row has checked that bit 3 is 0
(30_encoding.md rule R98). -/
def xRegOf (f : BitVec 4) : XReg := Fin.ofNat 8 f.toNat

/-- The point register a 4-bit field names; the mask of its row has checked that bits 3 and 2 are 0
(30_encoding.md rule R98). -/
def pRegOf (f : BitVec 4) : PReg := Fin.ofNat 4 f.toNat

/-- The constant an LDC selector k = w[2:0] names (41_move_compare.md rule R133). -/
def constOf (k : BitVec 3) : Const :=
  if k = 0#3 then .zero
  else if k = 1#3 then .one
  else if k = 2#3 then .p
  else if k = 3#3 then .n
  else if k = 4#3 then .a
  else if k = 5#3 then .b
  else if k = 6#3 then .r2p
  else .r2n

/-- A row of the opcode map (30_encoding.md rule R101): a word w selects it when (w AND mask) = pattern.
`regBits` are the bits of the mask that bound a register number (rule R98). -/
structure Row where
  pattern : Word
  mask : Word
  regBits : Word
  build : Word → Instr

/-- Why a word is illegal (30_encoding.md rule R102). The core reports all four as ILLEGAL_CMD; the names
are the model's own (log entry 13). -/
inductive DecodeError where
  /-- no row has this opcode byte -/
  | unknownOpcode
  /-- a register field names a register that does not exist -/
  | registerNumber
  /-- an LDC selector above 7 -/
  | constantNumber
  /-- a reserved bit is set -/
  | reservedBit
  deriving DecidableEq, Repr

/-- The rows of the system family. -/
def systemRows : List Row :=
  [ ⟨0x00000000#32, 0xFFFFFFFF#32, 0#32, fun _ => .nop⟩,
    ⟨0x01000000#32, 0xFFFFFFFF#32, 0#32, fun _ => .clrerr⟩,
    ⟨0x02000000#32, 0xFFFFFFFF#32, 0#32, fun _ => .zeroize⟩ ]

/-- The rows of the move and compare family. -/
def moveRows : List Row :=
  [ ⟨0x10000000#32, 0xFF8FFF00#32, 0x00800000#32, fun w => .ldx (xRegOf (fieldA w)) (fieldAddr w)⟩,
    ⟨0x11000000#32, 0xFF8FFF00#32, 0x00800000#32, fun w => .stx (xRegOf (fieldA w)) (fieldAddr w)⟩,
    ⟨0x12000000#32, 0xFF88FFFF#32, 0x00880000#32, fun w => .mov (xRegOf (fieldA w)) (xRegOf (fieldB w))⟩,
    ⟨0x13000000#32, 0xFF8FFFF8#32, 0x00800000#32,
      fun w => .ldc (xRegOf (fieldA w)) (constOf (w.extractLsb' 0 3))⟩,
    ⟨0x14000000#32, 0xFFF88FFF#32, 0x00088000#32, fun w => .cmp (xRegOf (fieldB w)) (xRegOf (fieldC w))⟩ ]

/-- A row with three x registers (format R3, 30_encoding.md rule R95). -/
def rowXXX (pattern : Word) (make : XReg → XReg → XReg → Instr) : Row :=
  ⟨pattern, 0xFF888FFF#32, 0x00888000#32,
    fun w => make (xRegOf (fieldA w)) (xRegOf (fieldB w)) (xRegOf (fieldC w))⟩

/-- A row with two x registers (format R2, 30_encoding.md rule R94). -/
def rowXX (pattern : Word) (make : XReg → XReg → Instr) : Row :=
  ⟨pattern, 0xFF88FFFF#32, 0x00880000#32, fun w => make (xRegOf (fieldA w)) (xRegOf (fieldB w))⟩

/-- The rows of the family modulo p. -/
def fieldRows : List Row :=
  [ rowXXX 0x20000000#32 .fadd,
    rowXXX 0x21000000#32 .fsub,
    rowXXX 0x22000000#32 .fmul,
    rowXXX 0x23000000#32 .fmmul,
    rowXX 0x24000000#32 .finv,
    rowXX 0x25000000#32 .fred,
    rowXX 0x26000000#32 .fsqrt ]

/-- The rows of the family modulo n. -/
def scalarRows : List Row :=
  [ rowXXX 0x30000000#32 .nadd,
    rowXXX 0x31000000#32 .nsub,
    rowXXX 0x32000000#32 .nmul,
    rowXXX 0x33000000#32 .nmmul,
    rowXX 0x34000000#32 .ninv,
    rowXX 0x35000000#32 .nred ]

/-- The rows of the point family. -/
def pointRows : List Row :=
  [ ⟨0x40000000#32, 0xFFCFFFFF#32, 0x00C00000#32, fun w => .pinf (pRegOf (fieldA w))⟩,
    ⟨0x41000000#32, 0xFFCFFFFF#32, 0x00C00000#32, fun w => .pldg (pRegOf (fieldA w))⟩,
    ⟨0x42000000#32, 0xFFC88FFF#32, 0x00C88000#32,
      fun w => .pset (pRegOf (fieldA w)) (xRegOf (fieldB w)) (xRegOf (fieldC w))⟩,
    ⟨0x43000000#32, 0xFF8CFFFF#32, 0x008C0000#32, fun w => .pgetx (xRegOf (fieldA w)) (pRegOf (fieldB w))⟩,
    ⟨0x44000000#32, 0xFF8CFFFF#32, 0x008C0000#32, fun w => .pgety (xRegOf (fieldA w)) (pRegOf (fieldB w))⟩,
    ⟨0x45000000#32, 0xFFCCFFFF#32, 0x00CC0000#32, fun w => .pmov (pRegOf (fieldA w)) (pRegOf (fieldB w))⟩,
    ⟨0x46000000#32, 0xFFCCFFFF#32, 0x00CC0000#32, fun w => .pdbl (pRegOf (fieldA w)) (pRegOf (fieldB w))⟩,
    ⟨0x47000000#32, 0xFFCCCFFF#32, 0x00CCC000#32,
      fun w => .padd (pRegOf (fieldA w)) (pRegOf (fieldB w)) (pRegOf (fieldC w))⟩,
    ⟨0x48000000#32, 0xFFC8CFFF#32, 0x00C8C000#32,
      fun w => .pmul (pRegOf (fieldA w)) (xRegOf (fieldB w)) (pRegOf (fieldC w))⟩ ]

/-- The rows of the codec family. -/
def codecRows : List Row :=
  [ ⟨0x49000000#32, 0xFFCFFF00#32, 0x00C00000#32, fun w => .penc (pRegOf (fieldA w)) (fieldAddr w)⟩,
    ⟨0x4A000000#32, 0xFFCF0000#32, 0x00C00000#32,
      fun w => .pdec (pRegOf (fieldA w)) (fieldAddr w) (fieldLen w)⟩ ]

/-- The opcode map (30_encoding.md rule R101). -/
def opcodeMap : List Row :=
  systemRows ++ moveRows ++ fieldRows ++ scalarRows ++ pointRows ++ codecRows

/-- Whether a word selects a row (30_encoding.md rule R100 step 2). -/
def Row.selects (r : Row) (w : Word) : Bool := w &&& r.mask == r.pattern

/-- The cause for which a word that selects no row is illegal (30_encoding.md rule R102). -/
def illegalCause (w : Word) : DecodeError :=
  match opcodeMap.find? (fun r => fieldOp r.pattern == fieldOp w) with
  | none => .unknownOpcode
  | some r =>
    if w &&& r.regBits ≠ 0#32 then .registerNumber
    else if fieldOp w = 0x13#8 ∧ w &&& 0xF8#32 ≠ 0#32 then .constantNumber
    else .reservedBit

/-- The decoder, total on all 2^32 words (30_encoding.md rule R100 step 2 and the extraction of step 3). -/
def decode (w : Word) : Except DecodeError Instr :=
  match opcodeMap.find? (fun r => r.selects w) with
  | none => .error (illegalCause w)
  | some r => .ok (r.build w)

/-- The instruction the decoder reads from the `nbits` low bits of `w`. -/
def decodeTableWord (nbits w : Nat) : Option Instr :=
  match decode (BitVec.ofNat 32 (w % 2 ^ nbits)) with
  | .ok i => some i
  | .error _ => none

/-- The 4-bit field of a register number (30_encoding.md rule R98). -/
def regField {k : Nat} (r : Fin k) : BitVec 4 := BitVec.ofNat 4 r.val

/-- The 8-bit field of an immediate (30_encoding.md rule R99). -/
def byteField (v : Nat) : BitVec 8 := BitVec.ofNat 8 v

/-- The selector of an LDC constant (41_move_compare.md rule R133). -/
def constField : Const → BitVec 8
  | .zero => 0#8
  | .one => 1#8
  | .p => 2#8
  | .n => 3#8
  | .a => 4#8
  | .b => 5#8
  | .r2p => 6#8
  | .r2n => 7#8

/-- A field in its place: its lowest bit stands at bit `lo` of the word (30_encoding.md rule R91). -/
def place {k : Nat} (lo : Nat) (f : BitVec k) : Word := f.setWidth 32 <<< lo

/-- Format Z: op, then zeros (30_encoding.md rule R92). -/
def formatZ (op : BitVec 8) : Word := place 24 op

/-- Format R1: op, A, then zeros (30_encoding.md rule R93). -/
def formatR1 (op : BitVec 8) (a : BitVec 4) : Word := place 24 op ||| place 20 a

/-- Format R2: op, A, B, then zeros (30_encoding.md rule R94). -/
def formatR2 (op : BitVec 8) (a b : BitVec 4) : Word := place 24 op ||| place 20 a ||| place 16 b

/-- Format R3: op, A, B, C, then zeros (30_encoding.md rule R95). -/
def formatR3 (op : BitVec 8) (a b c : BitVec 4) : Word :=
  place 24 op ||| place 20 a ||| place 16 b ||| place 12 c

/-- Format I: op, A, zeros, imm (30_encoding.md rule R96). -/
def formatI (op : BitVec 8) (a : BitVec 4) (imm : BitVec 8) : Word :=
  place 24 op ||| place 20 a ||| place 0 imm

/-- Format D: op, A, zeros, len, addr (30_encoding.md rule R97). -/
def formatD (op : BitVec 8) (a : BitVec 4) (len addr : BitVec 8) : Word :=
  place 24 op ||| place 20 a ||| place 8 len ||| place 0 addr

/-- The word of a command (30_encoding.md rules R92 to R97, R106). CMP has no A field (rule R95). -/
def encode : Instr → Word
  | .nop => formatZ 0x00#8
  | .clrerr => formatZ 0x01#8
  | .zeroize => formatZ 0x02#8
  | .ldx d addr => formatI 0x10#8 (regField d) (byteField addr)
  | .stx r addr => formatI 0x11#8 (regField r) (byteField addr)
  | .mov d a => formatR2 0x12#8 (regField d) (regField a)
  | .ldc d k => formatI 0x13#8 (regField d) (constField k)
  | .cmp a b => formatR3 0x14#8 0#4 (regField a) (regField b)
  | .fadd d a b => formatR3 0x20#8 (regField d) (regField a) (regField b)
  | .fsub d a b => formatR3 0x21#8 (regField d) (regField a) (regField b)
  | .fmul d a b => formatR3 0x22#8 (regField d) (regField a) (regField b)
  | .fmmul d a b => formatR3 0x23#8 (regField d) (regField a) (regField b)
  | .finv d a => formatR2 0x24#8 (regField d) (regField a)
  | .fred d a => formatR2 0x25#8 (regField d) (regField a)
  | .fsqrt d a => formatR2 0x26#8 (regField d) (regField a)
  | .nadd d a b => formatR3 0x30#8 (regField d) (regField a) (regField b)
  | .nsub d a b => formatR3 0x31#8 (regField d) (regField a) (regField b)
  | .nmul d a b => formatR3 0x32#8 (regField d) (regField a) (regField b)
  | .nmmul d a b => formatR3 0x33#8 (regField d) (regField a) (regField b)
  | .ninv d a => formatR2 0x34#8 (regField d) (regField a)
  | .nred d a => formatR2 0x35#8 (regField d) (regField a)
  | .pinf d => formatR1 0x40#8 (regField d)
  | .pldg d => formatR1 0x41#8 (regField d)
  | .pset d a b => formatR3 0x42#8 (regField d) (regField a) (regField b)
  | .pgetx d a => formatR2 0x43#8 (regField d) (regField a)
  | .pgety d a => formatR2 0x44#8 (regField d) (regField a)
  | .pmov d a => formatR2 0x45#8 (regField d) (regField a)
  | .pdbl d a => formatR2 0x46#8 (regField d) (regField a)
  | .padd d a b => formatR3 0x47#8 (regField d) (regField a) (regField b)
  | .pmul d k b => formatR3 0x48#8 (regField d) (regField k) (regField b)
  | .penc r addr => formatI 0x49#8 (regField r) (byteField addr)
  | .pdec d addr len => formatD 0x4A#8 (regField d) (byteField len) (byteField addr)

end Sys2Proof
end

