-- ==== Sys2Proof/Machine/State.lean ====
section
/-! DEFINITION. The state of the core (10_state.md rules R20 to R36, R44), the reasons a step can stop, and
the state after Reset. -/

namespace Sys2Proof.Machine

/-- The value of a point register (10_state.md rule R24). That an affine value lies on the curve is the
invariant of rule R45, not part of the type (log entry 7). -/
inductive PointVal where
  /-- the point at infinity -/
  | inf
  /-- an affine point with its two 384-bit coordinates -/
  | aff (x y : Val)
  deriving DecidableEq, Repr

/-- The error codes (60_exceptions.md rule R221); `ErrCode.byte` gives their values. -/
inductive ErrCode where
  | illegalCmd | bufRange | operandRange | invZero | notSquare | pointInf
  | decInvalidLength | decInvalidTag | notOnCurve
  deriving DecidableEq, Repr

/-- One event of the total order of 20_memory.md rule R70: a host transaction (10_state.md rules R38 to
R40), Reset (rule R43), a completion (rule R41), or a bus access that is none of the four transactions
(rule R42). -/
inductive HostEvent where
  | regRead (off : Nat)
  | regWrite (off : Nat) (w : Word)
  | bufRead (a : Byte)
  | bufWrite (a v : Byte)
  | reset
  | completion
  /-- an access of `bits` bits at offset `off` that is none of the four transactions -/
  | otherAccess (off bits : Nat)
  deriving DecidableEq, Repr

/-- What a host read returned (10_state.md rules R38, R40). -/
inductive Reply where
  | reg (w : Word)
  | byte (v : Byte)
  deriving DecidableEq, Repr

/-- The MODEL's own record of the host port (log entry 1): the events still to come in the total order of
20_memory.md rule R70, and the values reads have returned, newest first. -/
structure Port where
  script : List HostEvent
  replies : List Reply
  deriving DecidableEq, Repr

/-- The state: every item of 10_state.md rule R20, and the model's own `port`. -/
structure State where
  /-- x[0..7] (10_state.md rule R21) -/
  x : Vector Val 8
  /-- P[0..3] (10_state.md rule R24) -/
  points : Vector PointVal 4
  /-- BUF[0..255] (10_state.md rule R35), in the canonical form `Memory.wf` -/
  buf : List Host.Cell
  /-- EQ (10_state.md rule R27) -/
  flagEq : Bool
  /-- LT (10_state.md rule R27) -/
  flagLt : Bool
  /-- Z (10_state.md rule R27) -/
  flagZ : Bool
  /-- INF (10_state.md rule R27) -/
  flagInf : Bool
  /-- BUSY (10_state.md rule R29) -/
  busy : Bool
  /-- ERR (10_state.md rule R30) -/
  err : Bool
  /-- OVR (10_state.md rule R31) -/
  ovr : Bool
  /-- ERRCODE (10_state.md rule R30) -/
  errCode : BitVec 8
  /-- ERRCMD (10_state.md rule R30) -/
  errCmd : Word
  /-- CMDLATCH (10_state.md rule R36) -/
  cmdLatch : Word
  /-- the model's own record of the host port (log entry 1) -/
  port : Port
  deriving DecidableEq, Repr

/-- The machine has no fault: every error of 60_exceptions.md is a next state with ERR = 1 (rule R224), and
no rule describes a stuck state (70_reset_and_hazards.md rule R273). Safe. -/
inductive Fault
  deriving DecidableEq, Repr

/-- Why a step has no meaning. -/
inductive Refusal where
  /-- Raised by `exec` for a command that has no meaning yet; no arm uses it. Safe. -/
  | notModelled (mnemonic : String)
  /-- Raised by a host bus access that is none of the four transactions: 10_state.md rule R42 says that a
  model gives such accesses no meaning and refuses. Safe: nothing is claimed after it. -/
  | undefinedAccess (off bits : Nat)
  deriving DecidableEq, Repr

/-- The result of a step. -/
abbrev Result := Host.Outcome State Fault Refusal

/-- The state after Reset (10_state.md rule R44). CMDLATCH is unspecified there; 0 is a DESIGN CHOICE (log
entry 2), and so is the empty script (log entry 1). -/
def State.reset : State where
  x := Vector.replicate 8 0#384
  points := Vector.replicate 4 .inf
  buf := []
  flagEq := false
  flagLt := false
  flagZ := false
  flagInf := false
  busy := false
  err := false
  ovr := false
  errCode := 0x00#8
  errCmd := 0x00000000#32
  cmdLatch := 0x00000000#32
  port := ⟨[], []⟩

end Sys2Proof.Machine
end

