-- ==== Sys2Proof/Machine/Curve.lean ====
section
/-! DEFINITION. The curve and its group law (00_scope.md rule R10). All arithmetic is modulo p. -/

namespace Sys2Proof.Machine

/-- `(x*x*x - 3*x + b) mod p`, the right side of the curve equation (00_scope.md rule R10). -/
def curveRhs (x : Nat) : Nat := imod ((x : Int) * x * x - 3 * x + Config.b) Config.p

/-- on_curve(x, y) (00_scope.md rule R10). -/
abbrev onCurve (x y : Nat) : Prop :=
  x < Config.p ∧ y < Config.p ∧ y * y % Config.p = curveRhs x

/-- The invariant of a point register (10_state.md rule R24): Inf, or an affine point on the curve. -/
def PointVal.valid : PointVal → Bool
  | .inf => true
  | .aff x y => decide (onCurve x.toNat y.toNat)

/-- Whether a point is Inf, the value of the flag INF (10_state.md rule R27). -/
def PointVal.isInf : PointVal → Bool
  | .inf => true
  | .aff _ _ => false

/-- The base point G = Aff(Gx, Gy) (00_scope.md rule R5). -/
def generator : PointVal := .aff (BitVec.ofNat 384 Config.gx) (BitVec.ofNat 384 Config.gy)

/-- An affine point from two integers in [0, p). -/
def affOf (x y : Nat) : PointVal := .aff (BitVec.ofNat 384 x) (BitVec.ofNat 384 y)

/-- neg (00_scope.md rule R10). -/
def ptNeg : PointVal → PointVal
  | .inf => .inf
  | .aff x y => .aff x (BitVec.ofNat 384 ((Config.p - y.toNat) % Config.p))

/-- The third point of a line of slope `lam` through (x1, y1) and a point with coordinate x2, reflected:
`x3 = lam² - x1 - x2`, `y3 = lam (x1 - x3) - y1` (00_scope.md rule R10). -/
def chordPoint (lam x1 y1 x2 : Nat) : PointVal :=
  let x3 := imod ((lam : Int) * lam - x1 - x2) Config.p
  affOf x3 (imod ((lam : Int) * ((x1 : Int) - x3) - y1) Config.p)

/-- The slope of the tangent, `(3 x² - 3) * inv_p(2 y mod p)` (00_scope.md rule R10). -/
def tangentSlope (x y : Nat) : Nat :=
  imod ((3 * (x : Int) * x - 3) * invMod Config.p (2 * y % Config.p)) Config.p

/-- The slope of the chord, `(y2 - y1) * inv_p((x2 - x1) mod p)` (00_scope.md rule R10). -/
def chordSlope (x1 y1 x2 y2 : Nat) : Nat :=
  imod (((y2 : Int) - y1) * invMod Config.p (imod ((x2 : Int) - x1) Config.p)) Config.p

/-- pt_dbl (00_scope.md rule R10). -/
def ptDbl : PointVal → PointVal
  | .inf => .inf
  | .aff x y =>
    if y.toNat = 0 then .inf
    else chordPoint (tangentSlope x.toNat y.toNat) x.toNat y.toNat x.toNat

/-- pt_add (00_scope.md rule R10). -/
def ptAdd : PointVal → PointVal → PointVal
  | .inf, q => q
  | .aff x y, .inf => .aff x y
  | .aff x1 y1, .aff x2 y2 =>
    if x1 = x2 ∧ y1 = y2 then ptDbl (.aff x1 y1)
    else if x1 = x2 then .inf
    else chordPoint (chordSlope x1.toNat y1.toNat x2.toNat y2.toNat) x1.toNat y1.toNat x2.toNat

/-- pt_mul, as 00_scope.md rule R10 defines it: `pt_mul(0, Q) = Inf`, `pt_mul(k+1, Q) =
pt_add(pt_mul(k, Q), Q)`. -/
def ptMul : Nat → PointVal → PointVal
  | 0, _ => .inf
  | k + 1, q => ptAdd (ptMul k q) q

/-- One step of double-and-add. -/
def ladderStep (q : PointVal) (bit : Nat) (r : PointVal) : PointVal :=
  if bit = 1 then ptAdd (ptDbl r) q else ptDbl r

/-- Double-and-add over the `n` low bits of `k`, most significant bit first. -/
def doubleAndAdd (q : PointVal) : Nat → Nat → PointVal
  | 0, _ => .inf
  | n + 1, k => ladderStep q (k % 2) (doubleAndAdd q n (k / 2))

/-- pt_mul evaluated by double-and-add, so that the machine can be run on a 384-bit scalar
(44_point.md rule R179: the algorithm is not visible). `ptMulEval_eq_ptMul` in Laws/PointMul.lean proves it
equal to `ptMul` for every scalar and every value of a point register (log entry 8). -/
def ptMulEval (k : Nat) (q : PointVal) : PointVal :=
  if q.valid then doubleAndAdd q (k.log2 + 1) k else ptMul k q

end Sys2Proof.Machine
end

