-- ==== Sys2Proof/Machine/Ops.lean ====
section
/-! DEFINITION. The named operations over BUF, the registers and the error record: memory primitives
(20_memory.md rule R62), register access (00_scope.md rule R8), error entry and its return
(60_exceptions.md rules R224, R237). -/

namespace Sys2Proof.Machine

/-- What an unlisted byte of BUF reads as: the reset contents 0x00 (10_state.md rule R44). -/
def Memory.unlisted : Byte := 0x00#8

/-- `BUF[a]`. -/
def Memory.readByte : List Host.Cell → Nat → Byte
  | [], _ => Memory.unlisted
  | (k, v) :: rest, a => if k = a then v else Memory.readByte rest a

/-- A cell put in front of a list, unless it holds what an unlisted address reads as. -/
def Memory.consCell (a : Nat) (v : Byte) (rest : List Host.Cell) : List Host.Cell :=
  if v = Memory.unlisted then rest else (a, v) :: rest

/-- `BUF[a] <- v`, keeping the canonical form. -/
def Memory.writeByte : List Host.Cell → Nat → Byte → List Host.Cell
  | [], a, v => Memory.consCell a v []
  | (k, u) :: rest, a, v =>
    if a < k then Memory.consCell a v ((k, u) :: rest)
    else if a = k then Memory.consCell a v rest
    else (k, u) :: Memory.writeByte rest a v

/-- The cells of a list stand at strictly rising addresses from `lo` on, inside BUF, and none holds what an
unlisted address reads as. -/
def Memory.wfFrom (lo : Nat) : List Host.Cell → Bool
  | [] => true
  | (k, v) :: rest =>
    decide (lo ≤ k) && decide (k < Config.bufSize) && decide (v ≠ Memory.unlisted) && Memory.wfFrom (k + 1) rest

/-- The canonical form of BUF. -/
def Memory.wf (m : List Host.Cell) : Bool := Memory.wfFrom 0 m

/-- `MemRead(addr, n)`: the n bytes from addr on, most significant first (20_memory.md rule R62). -/
def Memory.read (m : List Host.Cell) (addr : Nat) : Nat → Nat
  | 0 => 0
  | n + 1 => Memory.read m addr n * 256 + (Memory.readByte m (addr + n)).toNat

/-- `MemWrite(addr, n, v)`: the n low bytes of v from addr on, most significant first (20_memory.md rule
R62). -/
def Memory.write (m : List Host.Cell) (addr : Nat) : Nat → Nat → List Host.Cell
  | 0, _ => m
  | n + 1, v => Memory.writeByte (Memory.write m addr n (v / 256)) (addr + n) (BitVec.ofNat 8 (v % 256))

/-- `x[r]` as the integer it is (00_scope.md rule R8). -/
def State.xNat (s : State) (r : XReg) : Nat := s.x[r].toNat

/-- `x[d] <- v` (00_scope.md rule R8). -/
def State.setX (s : State) (d : XReg) (v : Val) : State := { s with x := s.x.set d v }

/-- `P[k]` (00_scope.md rule R8). -/
def State.point (s : State) (k : PReg) : PointVal := s.points[k]

/-- `P[d] <- q` (00_scope.md rule R8). -/
def State.setPoint (s : State) (d : PReg) (q : PointVal) : State := { s with points := s.points.set d q }

/-- `BUF[a]` (00_scope.md rule R8). -/
def State.byteAt (s : State) (a : Nat) : Byte := Memory.readByte s.buf a

/-- `BUF[a] <- v` (00_scope.md rule R8). -/
def State.setByte (s : State) (a : Nat) (v : Byte) : State := { s with buf := Memory.writeByte s.buf a v }

/-- `MemRead(addr, n)` (20_memory.md rule R62). -/
def State.memRead (s : State) (addr n : Nat) : Nat := Memory.read s.buf addr n

/-- `MemWrite(addr, n, v)` (20_memory.md rule R62). -/
def State.memWrite (s : State) (addr n v : Nat) : State := { s with buf := Memory.write s.buf addr n v }

/-- The value of ERRCODE for an error (60_exceptions.md rule R221). -/
def ErrCode.byte : ErrCode → BitVec 8
  | .illegalCmd => 0x01#8
  | .bufRange => 0x02#8
  | .operandRange => 0x03#8
  | .invZero => 0x04#8
  | .notSquare => 0x05#8
  | .pointInf => 0x06#8
  | .decInvalidLength => 0x10#8
  | .decInvalidTag => 0x11#8
  | .notOnCurve => 0x12#8

/-- `raise E(code)`, error entry (60_exceptions.md rule R224): ERR, ERRCODE, ERRCMD and BUSY are written and
nothing else. The word w of the command is in CMDLATCH (10_state.md rule R36). -/
def State.raise (s : State) (c : ErrCode) : State :=
  { s with err := true, errCode := c.byte, errCmd := s.cmdLatch, busy := false }

/-- The return from the error state (60_exceptions.md rule R237, 40_system.md rule R121). -/
def State.clearError (s : State) : State :=
  { s with err := false, errCode := 0x00#8, errCmd := 0x00000000#32, ovr := false }

/-- The end of a completion: `BUSY <- 0` (10_state.md rule R41). -/
def State.retire (s : State) : State := { s with busy := false }

/-- The acceptance of a command: `CMDLATCH <- w`, `BUSY <- 1` (10_state.md rule R39). -/
def State.accept (s : State) (w : Word) : State := { s with cmdLatch := w, busy := true }

/-- The record of an overrun: `OVR <- 1` (10_state.md rule R31). -/
def State.overrun (s : State) : State := { s with ovr := true }

/-- The value of a host read, recorded in the model's port (log entry 1). -/
def State.reply (s : State) (r : Reply) : State :=
  { s with port := { s.port with replies := r :: s.port.replies } }

/-- The events still to come (log entry 1). -/
def State.withScript (s : State) (es : List HostEvent) : State :=
  { s with port := { s.port with script := es } }

end Sys2Proof.Machine
end

