-- ==== Sys2Proof/Machine/Flags.lean ====
section
/-! DEFINITION. The flags EQ, LT, Z, INF: what each command class writes (10_state.md rule R27). No command
reads a flag (rule R28). -/

namespace Sys2Proof.Machine

/-- The flags of CMP: EQ and LT of two unsigned values (10_state.md rule R27, 41_move_compare.md rule
R134). -/
def State.setCompare (s : State) (u v : Nat) : State :=
  { s with flagEq := decide (u = v), flagLt := decide (u < v) }

/-- `Z <- z` (10_state.md rule R27). -/
def State.setZ (s : State) (z : Bool) : State := { s with flagZ := z }

/-- `INF <- i` (10_state.md rule R27). -/
def State.setInf (s : State) (i : Bool) : State := { s with flagInf := i }

/-- All four flags to 0 (40_system.md rule R122). -/
def State.clearFlags (s : State) : State :=
  { s with flagEq := false, flagLt := false, flagZ := false, flagInf := false }

/-- The result of an arithmetic command: `x[d] <- v ; Z <- (x[d] = 0)` (10_state.md rule R27). -/
def State.setResult (s : State) (d : XReg) (v : Nat) : State :=
  (s.setX d (BitVec.ofNat 384 v)).setZ (decide (BitVec.ofNat 384 v = 0#384))

/-- The result of a point command: `P[d] <- q ; INF <- (P[d] = Inf)` (10_state.md rule R27). -/
def State.setPointResult (s : State) (d : PReg) (q : PointVal) : State :=
  (s.setPoint d q).setInf q.isInf

end Sys2Proof.Machine
end

