-- ==== Sys2Proof/Machine/Operands.lean ====
section
/-! DEFINITION. The operand forms and their checks: an x register used as a field element or a scalar
(60_exceptions.md rule R228), a BUF access of n bytes (20_memory.md rule R64), a point register that must
not hold Inf (60_exceptions.md rule R231), and the constants of LDC (41_move_compare.md rule R133). -/

namespace Sys2Proof.Machine

/-- `body`, if the registers, in the order given, are all canonical for `m`; else OPERAND_RANGE
(60_exceptions.md rule R228). -/
def requireCanonical (m : Nat) (rs : List XReg) (s : State) (body : Result) : Result :=
  if ∀ r ∈ rs, canonical m (s.xNat r) then body else .next (s.raise .operandRange)

/-- `body`, if `size` bytes at `addr` are in range; else BUF_RANGE (20_memory.md rule R64). -/
def requireFits (addr size : Nat) (s : State) (body : Result) : Result :=
  if addr + size > Config.bufSize then .next (s.raise .bufRange) else body

/-- `body` of the coordinates of `P[k]`; POINT_INF if it holds Inf (60_exceptions.md rule R231). -/
def requireAffine (k : PReg) (s : State) (body : Val → Val → Result) : Result :=
  match s.point k with
  | .inf => .next (s.raise .pointInf)
  | .aff x y => body x y

/-- CONST[k] (41_move_compare.md rule R133). -/
def constValue : Const → Nat
  | .zero => 0
  | .one => 1
  | .p => Config.p
  | .n => Config.n
  | .a => Config.a
  | .b => Config.b
  | .r2p => Config.r2p
  | .r2n => Config.r2n

end Sys2Proof.Machine
end

