-- ==== Sys2Proof/Machine/Codec.lean ====
section
/-! DEFINITION. The compressed-point codec PENC, PDEC (45_codec.md). -/

namespace Sys2Proof.Machine

/-- The tag of a y coordinate: 0x02 if y is even, 0x03 if y is odd (45_codec.md rule R190). -/
def tagOf (y : Nat) : Byte := BitVec.ofNat 8 (0x02 + y % 2)

/-- PENC Ps, addr (45_codec.md rule R191): BUF_RANGE, then POINT_INF. -/
def execPenc (r : PReg) (addr : Nat) (s : State) : Result :=
  requireFits addr 49 s
    (requireAffine r s (fun x y => .next ((s.setByte addr (tagOf y.toNat)).memWrite (addr + 1) 48 x.toNat)))

/-- The root of the parity of the tag: `if (r mod 2) = (tag mod 2) then r else (p - r) mod p`
(45_codec.md rule R192). -/
def rootOfParity (r tag : Nat) : Nat :=
  if r % 2 = tag % 2 then r else (Config.p - r) % Config.p

/-- The end of PDEC, once the tag is recognised (45_codec.md rule R192): x < p, then the curve. -/
def decodePoint (d : PReg) (tag xx : Nat) (s : State) : Result :=
  if Config.p ≤ xx then .next (s.raise .notOnCurve)
  else if sqrtP (curveRhs xx) * sqrtP (curveRhs xx) % Config.p ≠ curveRhs xx then .next (s.raise .notOnCurve)
  else .next (s.setPointResult d (affOf xx (rootOfParity (sqrtP (curveRhs xx)) tag)))

/-- PDEC Pd, addr, len (45_codec.md rule R192): DEC_INVALID_LENGTH, BUF_RANGE, DEC_INVALID_TAG,
NOT_ON_CURVE, in that order. -/
def execPdec (d : PReg) (addr len : Nat) (s : State) : Result :=
  if len ≠ 49 then .next (s.raise .decInvalidLength)
  else requireFits addr 49 s
    (if s.byteAt addr ≠ 0x02#8 ∧ s.byteAt addr ≠ 0x03#8 then .next (s.raise .decInvalidTag)
     else decodePoint d (s.byteAt addr).toNat (s.memRead (addr + 1) 48) s)

end Sys2Proof.Machine
end

