-- ==== Sys2Proof/Machine/Arith.lean ====
section
/-! DEFINITION. The shapes the commands modulo p and modulo n share (42_field.md rule R140, 43_scalar.md
rule R160). -/

namespace Sys2Proof.Machine

/-- A command of two canonical operands: `x[d] <- f(x[a], x[b]) ; Z <- (x[d] = 0)`. -/
def execBinary (m : Nat) (f : Nat → Nat → Nat) (d a b : XReg) (s : State) : Result :=
  requireCanonical m [a, b] s (.next (s.setResult d (f (s.xNat a) (s.xNat b))))

/-- An inverter (42_field.md rule R145, 43_scalar.md rule R165): OPERAND_RANGE, then INV_ZERO, then
`x[d] <- inv_m(x[a]) ; Z <- 0`. -/
def execInverse (m : Nat) (d a : XReg) (s : State) : Result :=
  requireCanonical m [a] s
    (if s.xNat a = 0 then .next (s.raise .invZero)
     else .next ((s.setX d (BitVec.ofNat 384 (invMod m (s.xNat a)))).setZ false))

/-- A reduction of any 384-bit value (42_field.md rule R146, 43_scalar.md rule R166). -/
def execReduce (m : Nat) (d a : XReg) (s : State) : Result := .next (s.setResult d (s.xNat a % m))

end Sys2Proof.Machine
end

