-- ==== Sys2Proof/Machine/Field.lean ====
section
/-! DEFINITION. The commands modulo p (42_field.md). -/

namespace Sys2Proof.Machine

/-- FADD (42_field.md rule R141). -/
def execFadd (d a b : XReg) (s : State) : Result := execBinary Config.p (addMod Config.p) d a b s

/-- FSUB (42_field.md rule R142). -/
def execFsub (d a b : XReg) (s : State) : Result := execBinary Config.p (subMod Config.p) d a b s

/-- FMUL (42_field.md rule R143). -/
def execFmul (d a b : XReg) (s : State) : Result := execBinary Config.p (mulMod Config.p) d a b s

/-- FMMUL (42_field.md rule R144). -/
def execFmmul (d a b : XReg) (s : State) : Result :=
  execBinary Config.p (montMod Config.p Config.rinvP) d a b s

/-- FINV (42_field.md rule R145). -/
def execFinv (d a : XReg) (s : State) : Result := execInverse Config.p d a s

/-- FRED (42_field.md rule R146). -/
def execFred (d a : XReg) (s : State) : Result := execReduce Config.p d a s

/-- FSQRT (42_field.md rule R147): OPERAND_RANGE, then NOT_SQUARE, then `x[d] <- r ; Z <- (r = 0)`. -/
def execFsqrt (d a : XReg) (s : State) : Result :=
  requireCanonical Config.p [a] s
    (if sqrtP (s.xNat a) * sqrtP (s.xNat a) % Config.p ≠ s.xNat a then .next (s.raise .notSquare)
     else .next (s.setResult d (sqrtP (s.xNat a))))

end Sys2Proof.Machine
end

