-- ==== Sys2Proof/Machine/Move.lean ====
section
/-! DEFINITION. LDX, STX, MOV, LDC, CMP (41_move_compare.md). -/

namespace Sys2Proof.Machine

/-- LDX xd, addr (41_move_compare.md rule R130). -/
def execLdx (d : XReg) (addr : Nat) (s : State) : Result :=
  requireFits addr 48 s (.next (s.setX d (BitVec.ofNat 384 (s.memRead addr 48))))

/-- STX xs, addr (41_move_compare.md rule R131). -/
def execStx (r : XReg) (addr : Nat) (s : State) : Result :=
  requireFits addr 48 s (.next (s.memWrite addr 48 (s.xNat r)))

/-- MOV xd, xa (41_move_compare.md rule R132). -/
def execMov (d a : XReg) (s : State) : Result := .next (s.setX d s.x[a])

/-- LDC xd, k (41_move_compare.md rule R133). -/
def execLdc (d : XReg) (k : Const) (s : State) : Result :=
  .next (s.setX d (BitVec.ofNat 384 (constValue k)))

/-- CMP xa, xb (41_move_compare.md rule R134). -/
def execCmp (a b : XReg) (s : State) : Result := .next (s.setCompare (s.xNat a) (s.xNat b))

end Sys2Proof.Machine
end

