-- ==== Sys2Proof/Machine/Point.lean ====
section
/-! DEFINITION. The point commands (44_point.md). -/

namespace Sys2Proof.Machine

/-- PINF Pd (44_point.md rule R170). -/
def execPinf (d : PReg) (s : State) : Result := .next (s.setPointResult d .inf)

/-- PLDG Pd (44_point.md rule R171). -/
def execPldg (d : PReg) (s : State) : Result := .next (s.setPointResult d generator)

/-- PSET Pd, xa, xb (44_point.md rule R172): OPERAND_RANGE, then NOT_ON_CURVE. -/
def execPset (d : PReg) (a b : XReg) (s : State) : Result :=
  requireCanonical Config.p [a, b] s
    (if s.xNat b * s.xNat b % Config.p ≠ curveRhs (s.xNat a) then .next (s.raise .notOnCurve)
     else .next (s.setPointResult d (.aff s.x[a] s.x[b])))

/-- PGETX xd, Pa (44_point.md rule R173). -/
def execPgetx (d : XReg) (a : PReg) (s : State) : Result :=
  requireAffine a s (fun x _ => .next (s.setX d x))

/-- PGETY xd, Pa (44_point.md rule R174). -/
def execPgety (d : XReg) (a : PReg) (s : State) : Result :=
  requireAffine a s (fun _ y => .next (s.setX d y))

/-- PMOV Pd, Pa (44_point.md rule R175). -/
def execPmov (d a : PReg) (s : State) : Result := .next (s.setPointResult d (s.point a))

/-- PDBL Pd, Pa (44_point.md rule R176). -/
def execPdbl (d a : PReg) (s : State) : Result := .next (s.setPointResult d (ptDbl (s.point a)))

/-- PADD Pd, Pa, Pb (44_point.md rule R177). -/
def execPadd (d a b : PReg) (s : State) : Result :=
  .next (s.setPointResult d (ptAdd (s.point a) (s.point b)))

/-- PMUL Pd, xk, Pb (44_point.md rule R178). `ptMulEval` is pt_mul (log entry 8). -/
def execPmul (d : PReg) (k : XReg) (b : PReg) (s : State) : Result :=
  requireCanonical Config.n [k] s (.next (s.setPointResult d (ptMulEval (s.xNat k) (s.point b))))

end Sys2Proof.Machine
end

