-- ==== Sys2Proof/Machine/Scalar.lean ====
section
/-! DEFINITION. The commands modulo n (43_scalar.md). -/

namespace Sys2Proof.Machine

/-- NADD (43_scalar.md rule R161). -/
def execNadd (d a b : XReg) (s : State) : Result := execBinary Config.n (addMod Config.n) d a b s

/-- NSUB (43_scalar.md rule R162). -/
def execNsub (d a b : XReg) (s : State) : Result := execBinary Config.n (subMod Config.n) d a b s

/-- NMUL (43_scalar.md rule R163). -/
def execNmul (d a b : XReg) (s : State) : Result := execBinary Config.n (mulMod Config.n) d a b s

/-- NMMUL (43_scalar.md rule R164). -/
def execNmmul (d a b : XReg) (s : State) : Result :=
  execBinary Config.n (montMod Config.n Config.rinvN) d a b s

/-- NINV (43_scalar.md rule R165). -/
def execNinv (d a : XReg) (s : State) : Result := execInverse Config.n d a s

/-- NRED (43_scalar.md rule R166). -/
def execNred (d a : XReg) (s : State) : Result := execReduce Config.n d a s

end Sys2Proof.Machine
end

