-- ==== Sys2Proof/Machine/System.lean ====
section
/-! DEFINITION. The system commands NOP, CLRERR, ZEROIZE (40_system.md). -/

namespace Sys2Proof.Machine

/-- NOP (40_system.md rule R120). -/
def execNop (s : State) : Result := .next s

/-- CLRERR (40_system.md rule R121). -/
def execClrerr (s : State) : Result := .next s.clearError

/-- All of x, P and BUF to their reset values (40_system.md rule R122). -/
def State.clearData (s : State) : State :=
  { s with x := Vector.replicate 8 0#384, points := Vector.replicate 4 .inf, buf := [] }

/-- ZEROIZE (40_system.md rule R122). -/
def execZeroize (s : State) : Result := .next s.clearData.clearFlags

end Sys2Proof.Machine
end

