-- ==== Sys2Proof/Machine/Dispatch.lean ====
section
/-! DEFINITION. The dispatcher: one arm per command, each one call of its meaning (30_encoding.md rule R100
step 3). -/

namespace Sys2Proof.Machine

def exec (i : Instr) (s : State) : Host.Outcome State Fault Refusal :=
  match i with
  | .nop => Sys2Proof.Machine.execNop s
  | .clrerr => Sys2Proof.Machine.execClrerr s
  | .zeroize => Sys2Proof.Machine.execZeroize s
  | .ldx d addr => Sys2Proof.Machine.execLdx d addr s
  | .stx r addr => Sys2Proof.Machine.execStx r addr s
  | .mov d a => Sys2Proof.Machine.execMov d a s
  | .ldc d k => Sys2Proof.Machine.execLdc d k s
  | .cmp a b => Sys2Proof.Machine.execCmp a b s
  | .fadd d a b => Sys2Proof.Machine.execFadd d a b s
  | .fsub d a b => Sys2Proof.Machine.execFsub d a b s
  | .fmul d a b => Sys2Proof.Machine.execFmul d a b s
  | .fmmul d a b => Sys2Proof.Machine.execFmmul d a b s
  | .finv d a => Sys2Proof.Machine.execFinv d a s
  | .fred d a => Sys2Proof.Machine.execFred d a s
  | .fsqrt d a => Sys2Proof.Machine.execFsqrt d a s
  | .nadd d a b => Sys2Proof.Machine.execNadd d a b s
  | .nsub d a b => Sys2Proof.Machine.execNsub d a b s
  | .nmul d a b => Sys2Proof.Machine.execNmul d a b s
  | .nmmul d a b => Sys2Proof.Machine.execNmmul d a b s
  | .ninv d a => Sys2Proof.Machine.execNinv d a s
  | .nred d a => Sys2Proof.Machine.execNred d a s
  | .pinf d => Sys2Proof.Machine.execPinf d s
  | .pldg d => Sys2Proof.Machine.execPldg d s
  | .pset d a b => Sys2Proof.Machine.execPset d a b s
  | .pgetx d a => Sys2Proof.Machine.execPgetx d a s
  | .pgety d a => Sys2Proof.Machine.execPgety d a s
  | .pmov d a => Sys2Proof.Machine.execPmov d a s
  | .pdbl d a => Sys2Proof.Machine.execPdbl d a s
  | .padd d a b => Sys2Proof.Machine.execPadd d a b s
  | .pmul d k b => Sys2Proof.Machine.execPmul d k b s
  | .penc r addr => Sys2Proof.Machine.execPenc r addr s
  | .pdec d addr len => Sys2Proof.Machine.execPdec d addr len s

end Sys2Proof.Machine
end

