-- ==== Sys2Proof/Machine/Completion.lean ====
section
/-! DEFINITION. The completion step of the core (10_state.md rule R41) and the function Exec it applies to
CMDLATCH (30_encoding.md rule R100). -/

namespace Sys2Proof.Machine

/-- The three words that execute while ERR = 1: NOP, CLRERR, ZEROIZE (60_exceptions.md rule R225). -/
def survivesError (w : Word) : Bool :=
  w == 0x00000000#32 || w == 0x01000000#32 || w == 0x02000000#32

/-- Exec(CMDLATCH) (30_encoding.md rule R100): the squash, then the legality of the word, then the rule of
the command. -/
def execLatch (s : State) : Result :=
  if s.err && !survivesError s.cmdLatch then .next s
  else
    match decode s.cmdLatch with
    | .error _ => .next (s.raise .illegalCmd)
    | .ok i => exec i s

/-- `BUSY <- 0` after Exec (10_state.md rule R41). -/
def retireResult : Result → Result
  | .next t => .next t.retire
  | .fault r => .fault r
  | .refused r => .refused r

/-- Completion (10_state.md rule R41): enabled exactly when BUSY = 1; else the core is idle
(70_reset_and_hazards.md rule R261) and nothing changes (log entry 4). -/
def complete (s : State) : Result :=
  if s.busy then retireResult (execLatch s) else .next s

end Sys2Proof.Machine
end

