-- ==== Sys2Proof/Machine/HostPort.lean ====
section
/-! DEFINITION. The host's transactions and Reset (10_state.md rules R32 to R43). -/

namespace Sys2Proof.Machine

/-- A bit as the number 0 or 1. -/
def bit (b : Bool) : Nat := if b then 1 else 0

/-- STATUS = BUSY + 2·ERR + 4·OVR + 16·EQ + 32·LT + 64·Z + 128·INF + 256·ERRCODE (10_state.md rule R33). -/
def State.status (s : State) : Word :=
  BitVec.ofNat 32 (bit s.busy + 2 * bit s.err + 4 * bit s.ovr + 16 * bit s.flagEq + 32 * bit s.flagLt
    + 64 * bit s.flagZ + 128 * bit s.flagInf + 256 * s.errCode.toNat)

/-- The offset of CMD (10_state.md rule R32). -/
def offCmd : Nat := 0x000

/-- The offset of STATUS (10_state.md rule R33). -/
def offStatus : Nat := 0x004

/-- The offset of ERRCMD (10_state.md rule R34). -/
def offErrCmd : Nat := 0x008

/-- The offset of ID (10_state.md rule R37). -/
def offId : Nat := 0x00C

/-- Offsets of the BUF window, 0x100 to 0x1FF (20_memory.md rule R68). -/
def inBufWindow (off : Nat) : Bool := decide (0x100 ≤ off) && decide (off < 0x200)

/-- The value RegRead(off) returns (10_state.md rules R38, R42); log entry 9. -/
def State.regValue (s : State) (off : Nat) : Word :=
  if off = offCmd then 0x00000000#32
  else if off = offStatus then s.status
  else if off = offErrCmd then s.errCmd
  else if off = offId then Config.idValue
  else 0x00000000#32

/-- RegRead(off) (10_state.md rule R38). A 32-bit access to the BUF window is refused (rule R42, log entry
9). -/
def regRead (off : Nat) (s : State) : Result :=
  if inBufWindow off then .refused (.undefinedAccess off 32) else .next (s.reply (.reg (s.regValue off)))

/-- RegWrite(CMD, w) (10_state.md rule R39): accepted if BUSY = 0, else dropped with OVR set. -/
def writeCmd (w : Word) (s : State) : State := if s.busy then s.overrun else s.accept w

/-- RegWrite(off, w) (10_state.md rules R39, R42). A 32-bit access to the BUF window is refused (rule R42,
log entry 9). -/
def regWrite (off : Nat) (w : Word) (s : State) : Result :=
  if inBufWindow off then .refused (.undefinedAccess off 32)
  else if off = offCmd then .next (writeCmd w s)
  else .next s

/-- The value BufRead(a) returns (10_state.md rule R40): 0x00 while BUSY = 1. -/
def State.bufValue (s : State) (a : Byte) : Byte := if s.busy then 0x00#8 else s.byteAt a.toNat

/-- BufRead(a) (10_state.md rule R40). -/
def bufRead (a : Byte) (s : State) : Result := .next (s.reply (.byte (s.bufValue a)))

/-- BufWrite(a, v) (10_state.md rule R40): dropped with OVR set while BUSY = 1. -/
def bufWrite (a v : Byte) (s : State) : Result :=
  .next (if s.busy then s.overrun else s.setByte a.toNat v)

/-- Reset (10_state.md rules R43, R44; 70_reset_and_hazards.md rule R260). The host's own script and what it
has read are not the core's state and stay (log entry 17). -/
def resetEvent (s : State) : Result := .next { State.reset with port := s.port }

/-- One event of the total order (20_memory.md rule R70). -/
def perform (e : HostEvent) (s : State) : Result :=
  match e with
  | .regRead off => regRead off s
  | .regWrite off w => regWrite off w s
  | .bufRead a => bufRead a s
  | .bufWrite a v => bufWrite a v s
  | .reset => resetEvent s
  | .completion => complete s
  | .otherAccess off bits => .refused (.undefinedAccess off bits)

/-- The next event of the order: the first of the script, or a completion when the host has nothing more to
do (10_state.md rule R41: an enabled completion eventually happens; log entry 4). -/
def nextEvent (s : State) : HostEvent :=
  match s.port.script with
  | [] => .completion
  | e :: _ => e

/-- The state in which the next event is performed: the event is taken off the script. -/
def State.takeEvent (s : State) : State := s.withScript s.port.script.tail

end Sys2Proof.Machine
end

