-- ==== Sys2Proof/Machine/Step.lean ====
section
/-! DEFINITION. One step of the machine: the next event of the total order of 20_memory.md rule R70. -/

namespace Sys2Proof.Machine

/-- One event: a host transaction, Reset, or the core's completion step (10_state.md section 10). -/
def step (s : State) : Host.Outcome State Fault Refusal :=
  perform (nextEvent s) s.takeEvent

/-- `s` with the command word of the `nbits` low bits of `w` in flight and its completion the next event:
what RegWrite(CMD, w) does when BUSY = 0 (10_state.md rule R39), log entry 14. -/
def State.withFetchWord (s : State) (nbits w : Nat) : State :=
  (s.accept (BitVec.ofNat 32 (w % 2 ^ nbits))).withScript (.completion :: s.port.script)

end Sys2Proof.Machine
end

