-- ==== Sys2Proof/Safety.lean ====
section
/-! DEFINITION. What the statements mean by a good state and by a frame: the invariants of 10_state.md rule
R45, and what a command leaves as it was. -/

namespace Sys2Proof.Machine

/-- ERR = 0 with ERRCODE = 0 and ERRCMD = 0, or ERR = 1 with one of the codes of 60_exceptions.md rule R221
(10_state.md rule R45 (c)). -/
def State.errorRecordOk (s : State) : Prop :=
  (s.err = false → s.errCode = 0x00#8 ∧ s.errCmd = 0x00000000#32) ∧
  (s.err = true → ∃ c : ErrCode, s.errCode = c.byte)

/-- Every point register holds Inf or a point on the curve (10_state.md rule R45 (b)). -/
def State.pointsOk (s : State) : Prop := ∀ k : PReg, (s.point k).valid = true

/-- The invariant of every reachable state: 10_state.md rule R45 (a) holds by the type of x, (b) and (c) as
above, and BUF is in its canonical form. -/
def State.Inv (s : State) : Prop :=
  Memory.wf s.buf = true ∧ s.pointsOk ∧ s.errorRecordOk

/-- A state a run from Reset can reach, with any script of host events. -/
inductive Reachable : State → Prop where
  | start (es : List HostEvent) : Reachable (State.reset.withScript es)
  | step {s t : State} : Reachable s → Machine.step s = .next t → Reachable t

/-- The same BUF, read byte by byte. -/
def SameBuf (s t : State) : Prop := ∀ a : Nat, t.byteAt a = s.byteAt a

/-- The same BUF outside the `n` bytes at `addr`. -/
def SameBufOutside (addr n : Nat) (s t : State) : Prop :=
  ∀ a : Nat, (a < addr ∨ addr + n ≤ a) → t.byteAt a = s.byteAt a

/-- The same x registers but for `d`. -/
def SameXBut (d : XReg) (s t : State) : Prop := ∀ r : XReg, r ≠ d → t.x[r] = s.x[r]

/-- The same point registers but for `d`. -/
def SamePointsBut (d : PReg) (s t : State) : Prop := ∀ k : PReg, k ≠ d → t.point k = s.point k

/-- The same control bits, error record, command latch and port: what no command but CLRERR writes when it
ends without error. -/
def SameControl (s t : State) : Prop :=
  t.busy = s.busy ∧ t.err = s.err ∧ t.ovr = s.ovr ∧ t.errCode = s.errCode ∧ t.errCmd = s.errCmd ∧
  t.cmdLatch = s.cmdLatch ∧ t.port = s.port

/-- The same EQ and LT. -/
def SameCompare (s t : State) : Prop := t.flagEq = s.flagEq ∧ t.flagLt = s.flagLt

/-- What a command that writes `x[d]` and no flag leaves as it was. -/
def FrameX (d : XReg) (s t : State) : Prop :=
  SameXBut d s t ∧ t.points = s.points ∧ SameBuf s t ∧ SameCompare s t ∧ t.flagZ = s.flagZ ∧
  t.flagInf = s.flagInf ∧ SameControl s t

/-- What a command that writes `x[d]` and Z leaves as it was. -/
def FrameXZ (d : XReg) (s t : State) : Prop :=
  SameXBut d s t ∧ t.points = s.points ∧ SameBuf s t ∧ SameCompare s t ∧ t.flagInf = s.flagInf ∧
  SameControl s t

/-- What a command that writes `P[d]` and INF leaves as it was. -/
def FramePoint (d : PReg) (s t : State) : Prop :=
  t.x = s.x ∧ SamePointsBut d s t ∧ SameBuf s t ∧ SameCompare s t ∧ t.flagZ = s.flagZ ∧ SameControl s t

/-- What a command that stores `n` bytes at `addr` leaves as it was. -/
def FrameStore (addr n : Nat) (s t : State) : Prop :=
  t.x = s.x ∧ t.points = s.points ∧ SameBufOutside addr n s t ∧ SameCompare s t ∧ t.flagZ = s.flagZ ∧
  t.flagInf = s.flagInf ∧ SameControl s t

/-- Everything but ERR, ERRCODE, ERRCMD and BUSY is as it was (60_exceptions.md rule R224). -/
def FrameError (s t : State) : Prop :=
  t.x = s.x ∧ t.points = s.points ∧ t.buf = s.buf ∧ SameCompare s t ∧ t.flagZ = s.flagZ ∧
  t.flagInf = s.flagInf ∧ t.ovr = s.ovr ∧ t.cmdLatch = s.cmdLatch ∧ t.port = s.port

/-- The command in CMDLATCH ended in the error `c` (60_exceptions.md rule R224). -/
def EndsInError (c : ErrCode) (s t : State) : Prop :=
  t.err = true ∧ t.errCode = c.byte ∧ t.errCmd = s.cmdLatch ∧ t.busy = false ∧ FrameError s t

/-- The same items of 10_state.md rule R20: all of the core's state, the model's own port left out. -/
def SameCore (s t : State) : Prop :=
  t = { s with port := t.port }

/-- The command `i` ends in the error `c` in the state `s`: a next state with the error entry of
60_exceptions.md rule R224 and nothing else. -/
def RaisesError (i : Instr) (c : ErrCode) (s : State) : Prop :=
  ∃ t, exec i s = .next t ∧ EndsInError c s t

/-- The word of a command from its fields: op·2^24 + A·2^20 + B·2^16 + C·2^12 + len·2^8 + imm
(30_encoding.md rule R106). -/
def commandWord (op a b c len imm : Nat) : Word :=
  BitVec.ofNat 32 (op * 2 ^ 24 + a * 2 ^ 20 + b * 2 ^ 16 + c * 2 ^ 12 + len * 2 ^ 8 + imm)

/-- The rows of the flag table of 10_state.md rule R27, with the registers the value written is taken from,
and the commands outside it. -/
inductive FlagClass where
  /-- CMP: EQ and LT, of two x registers -/
  | compare (a b : XReg)
  /-- the commands that write Z, with the x register they write -/
  | zero (d : XReg)
  /-- the commands that write INF, with the point register they write -/
  | inf (d : PReg)
  /-- ZEROIZE: all four, to 0 -/
  | all
  /-- the commands that write no flag -/
  | none
  deriving DecidableEq, Repr

/-- The flags a command writes (10_state.md rule R27). -/
def flagClass : Instr → FlagClass
  | .cmp a b => .compare a b
  | .fadd d _ _ | .fsub d _ _ | .fmul d _ _ | .fmmul d _ _ | .finv d _ | .fred d _ | .fsqrt d _ => .zero d
  | .nadd d _ _ | .nsub d _ _ | .nmul d _ _ | .nmmul d _ _ | .ninv d _ | .nred d _ => .zero d
  | .pinf d | .pldg d | .pset d _ _ | .pmov d _ | .pdbl d _ | .padd d _ _ | .pmul d _ _ | .pdec d _ _ => .inf d
  | .zeroize => .all
  | .ldx _ _ | .stx _ _ | .mov _ _ | .ldc _ _ | .pgetx _ _ | .pgety _ _ | .penc _ _ | .nop | .clrerr => .none

/-- The same EQ, LT, Z and INF. -/
def SameFlags (s t : State) : Prop := SameCompare s t ∧ t.flagZ = s.flagZ ∧ t.flagInf = s.flagInf

/-- The flags of the row have the values of the table of 10_state.md rule R27, and the others are as they
were. -/
def FlagClass.Writes (c : FlagClass) (s t : State) : Prop :=
  match c with
  | .compare a b =>
    t.flagEq = decide (s.xNat a = s.xNat b) ∧ t.flagLt = decide (s.xNat a < s.xNat b) ∧
      t.flagZ = s.flagZ ∧ t.flagInf = s.flagInf
  | .zero d => t.flagZ = decide (t.xNat d = 0) ∧ SameCompare s t ∧ t.flagInf = s.flagInf
  | .inf d => t.flagInf = decide (t.point d = .inf) ∧ SameCompare s t ∧ t.flagZ = s.flagZ
  | .all => t.flagEq = false ∧ t.flagLt = false ∧ t.flagZ = false ∧ t.flagInf = false
  | .none => SameFlags s t

/-- The errors a command can raise once its word is legal (60_exceptions.md rule R221). -/
def raisableErrors : Instr → List ErrCode
  | .ldx _ _ | .stx _ _ => [.bufRange]
  | .fadd _ _ _ | .fsub _ _ _ | .fmul _ _ _ | .fmmul _ _ _ => [.operandRange]
  | .nadd _ _ _ | .nsub _ _ _ | .nmul _ _ _ | .nmmul _ _ _ => [.operandRange]
  | .finv _ _ | .ninv _ _ => [.operandRange, .invZero]
  | .fsqrt _ _ => [.operandRange, .notSquare]
  | .pset _ _ _ => [.operandRange, .notOnCurve]
  | .pmul _ _ _ => [.operandRange]
  | .pgetx _ _ | .pgety _ _ => [.pointInf]
  | .penc _ _ => [.bufRange, .pointInf]
  | .pdec _ _ _ => [.decInvalidLength, .bufRange, .decInvalidTag, .notOnCurve]
  | .nop | .clrerr | .zeroize | .mov _ _ | .ldc _ _ | .cmp _ _ | .fred _ _ | .nred _ _ => []
  | .pinf _ | .pldg _ | .pmov _ _ | .pdbl _ _ | .padd _ _ _ => []

/-- The state with other flags. -/
def State.withFlags (s : State) (eq lt z inf : Bool) : State :=
  { s with flagEq := eq, flagLt := lt, flagZ := z, flagInf := inf }

end Sys2Proof.Machine
end

