-- ==== Sys2Proof/Certificates/Slice0/Obligations.lean ====
section
/-! DEFINITION. The statements for the provers. Each docstring names the rule of spec/ it formalises. -/

open Sys2Proof Sys2Proof.Machine

/-! ## Encoding -/

/-- The five example words of 30_encoding.md rule R106 decode to the commands that rule names. -/
def Obligations.SpecExampleWordsDecode : Prop :=
  decode 0x20201000#32 = .ok (.fadd 2 0 1) ∧
  decode 0x4A103140#32 = .ok (.pdec 1 0x40 49) ∧
  decode 0x13300003#32 = .ok (.ldc 3 .n) ∧
  decode 0x14045000#32 = .ok (.cmp 4 5) ∧
  decode 0x48011000#32 = .ok (.pmul 0 1 1)

/-- Every command that has an encoding is read back from it (30_encoding.md rules R92 to R101). -/
def Obligations.DecodeOfEncode : Prop :=
  ∀ i : Instr, i.wellFormed = true → decode (encode i) = .ok i

/-- A legal word is the encoding of the one command it decodes to: no reserved bit is ignored and no command
has two words (30_encoding.md rules R91, R98, R101, R103). -/
def Obligations.EncodeOfDecode : Prop :=
  ∀ (w : Word) (i : Instr), decode w = .ok i → i.wellFormed = true ∧ encode i = w

/-- A word in flight that is no command's word ends in ILLEGAL_CMD, with ERRCMD the word
(30_encoding.md rule R102, 60_exceptions.md rule R226). -/
def Obligations.IllegalWordEndsInIllegalCmd : Prop :=
  ∀ s : State, s.busy = true → s.err = false → nextEvent s = .completion →
    (∀ i : Instr, i.wellFormed = true → encode i ≠ s.cmdLatch) →
    ∃ t, step s = .next t ∧ EndsInError .illegalCmd s.takeEvent t

/-! ## The machine -/

/-- A completion runs the command the latched word decodes to, and then clears BUSY (10_state.md rule R41,
30_encoding.md rule R100). -/
def Obligations.StepRunsDecodedCommand : Prop :=
  ∀ (s : State) (i : Instr), s.busy = true → (s.err = false ∨ survivesError s.cmdLatch = true) →
    nextEvent s = .completion → i.wellFormed = true → decode s.cmdLatch = .ok i →
    step s = retireResult (exec i s.takeEvent) ∧
    ∀ t, exec i s.takeEvent = .next t → step s = .next t.retire

/-- RegWrite (10_state.md rule R39): a write to CMD is accepted when BUSY = 0, and dropped with OVR set when
BUSY = 1; a write to any other offset below 0x100 changes nothing. -/
def Obligations.RegWriteAcceptsOrDrops : Prop :=
  ∀ (s : State) (off : Nat) (w : Word), nextEvent s = .regWrite off w →
    (off = 0 → s.busy = false →
      step s = .next { s.takeEvent with cmdLatch := w, busy := true }) ∧
    (off = 0 → s.busy = true → step s = .next { s.takeEvent with ovr := true }) ∧
    (0 < off → off < 0x100 → step s = .next s.takeEvent)

/-- RegRead (10_state.md rule R38): the value it returns at every offset below 0x100, and that nothing but
the host's own record of replies changes. -/
def Obligations.RegReadReturnsRegister : Prop :=
  ∀ (s : State) (off : Nat), nextEvent s = .regRead off → off < 0x100 →
    ∃ v : Word, step s = .next (s.takeEvent.reply (.reg v)) ∧
      (off = 0x000 → v = 0#32) ∧
      (off = 0x004 → v = s.status) ∧
      (off = 0x008 → v = s.errCmd) ∧
      (off = 0x00C → v = 0x50333834#32) ∧
      (off ≠ 0x004 → off ≠ 0x008 → off ≠ 0x00C → v = 0#32)

/-- BufRead and BufWrite (10_state.md rule R40), with BUSY = 0 and with BUSY = 1. Reading the byte just
written needs BUF in its canonical form, an invariant of the model. -/
def Obligations.BufTransactions : Prop :=
  ∀ s : State, Memory.wf s.buf = true →
    (∀ a : Byte, nextEvent s = .bufRead a →
      (s.busy = false → step s = .next (s.takeEvent.reply (.byte (s.byteAt a.toNat)))) ∧
      (s.busy = true → step s = .next (s.takeEvent.reply (.byte 0x00#8)))) ∧
    (∀ a v : Byte, nextEvent s = .bufWrite a v →
      (s.busy = false → ∃ t, step s = .next t ∧ t.byteAt a.toNat = v ∧
        (∀ b : Nat, b ≠ a.toNat → t.byteAt b = s.byteAt b) ∧ t = { s.takeEvent with buf := t.buf }) ∧
      (s.busy = true → step s = .next { s.takeEvent with ovr := true }))

/-- The model's reading of 10_state.md rule R42, log entries 9 and 10: a bus access that is none of the four
transactions has no meaning and is refused, a 32-bit access to the BUF window among them; at offsets from 0x200
on a read returns 0 and a write is ignored. -/
def Obligations.AccessesOutsideTheMap : Prop :=
  ∀ s : State,
    (∀ off bits, nextEvent s = .otherAccess off bits → step s = .refused (.undefinedAccess off bits)) ∧
    (∀ off, nextEvent s = .regRead off →
      (0x100 ≤ off → off < 0x200 → step s = .refused (.undefinedAccess off 32)) ∧
      (0x200 ≤ off → step s = .next (s.takeEvent.reply (.reg 0#32)))) ∧
    (∀ off w, nextEvent s = .regWrite off w →
      (0x100 ≤ off → off < 0x200 → step s = .refused (.undefinedAccess off 32)) ∧
      (0x200 ≤ off → step s = .next s.takeEvent))

/-- Reset (10_state.md rules R43, R44; 70_reset_and_hazards.md rule R260): from any state, whatever is in
flight, every piece of state that has a reset value has it afterwards. -/
def Obligations.ResetEventRestoresResetValues : Prop :=
  ∀ s : State, nextEvent s = .reset →
    ∃ t, step s = .next t ∧
      (∀ r : XReg, t.xNat r = 0) ∧ (∀ k : PReg, t.point k = .inf) ∧ (∀ a : Nat, t.byteAt a = 0x00#8) ∧
      t.flagEq = false ∧ t.flagLt = false ∧ t.flagZ = false ∧ t.flagInf = false ∧
      t.busy = false ∧ t.err = false ∧ t.ovr = false ∧ t.errCode = 0x00#8 ∧ t.errCmd = 0x00000000#32 ∧
      t.status = 0x00000000#32

/-- The layout of STATUS (10_state.md rule R33): each field at its bits, the reserved bits 0. -/
def Obligations.StatusFields : Prop :=
  ∀ s : State,
    s.status.getLsbD 0 = s.busy ∧ s.status.getLsbD 1 = s.err ∧ s.status.getLsbD 2 = s.ovr ∧
    s.status.getLsbD 3 = false ∧ s.status.getLsbD 4 = s.flagEq ∧ s.status.getLsbD 5 = s.flagLt ∧
    s.status.getLsbD 6 = s.flagZ ∧ s.status.getLsbD 7 = s.flagInf ∧
    s.status.extractLsb' 8 8 = s.errCode ∧ s.status.extractLsb' 16 16 = 0#16

/-- A host transaction made while a command is in flight changes nothing of the core but OVR
(20_memory.md rule R74, 70_reset_and_hazards.md rule R264). -/
def Obligations.CommandInFlightIsProtected : Prop :=
  ∀ s t : State, s.busy = true → nextEvent s ≠ .completion → nextEvent s ≠ .reset → step s = .next t →
    t = { s with ovr := t.ovr, port := t.port }

/-- Squash (60_exceptions.md rule R225): while ERR = 1 every word but those of NOP, CLRERR and ZEROIZE
completes without changing anything but BUSY. -/
def Obligations.SquashChangesOnlyBusy : Prop :=
  ∀ s : State, s.busy = true → s.err = true → nextEvent s = .completion →
    s.cmdLatch ≠ 0x00000000#32 → s.cmdLatch ≠ 0x01000000#32 → s.cmdLatch ≠ 0x02000000#32 →
    step s = .next { s.takeEvent with busy := false }

/-- Every command in flight completes, whatever its word (70_reset_and_hazards.md rule R273). -/
def Obligations.EveryCommandCompletes : Prop :=
  ∀ s : State, s.busy = true → nextEvent s = .completion →
    ∃ t, step s = .next t ∧ t.busy = false

/-- Errors are precise, for every command and every state (60_exceptions.md rule R224): a command either
leaves the error record alone, or is CLRERR, or writes the error record and nothing else. -/
def Obligations.ErrorsArePrecise : Prop :=
  ∀ (i : Instr) (s t : State), exec i s = .next t →
    i = .clrerr ∨
    (t.err = s.err ∧ t.errCode = s.errCode ∧ t.errCmd = s.errCmd) ∨
    ∃ c ∈ raisableErrors i, EndsInError c s t

/-- ERR, ERRCODE and ERRCMD are written together by an error raised while ERR = 0, cleared together by
CLRERR and by Reset, and never written otherwise (10_state.md rule R30). -/
def Obligations.ErrorRecordWrittenOnlyByErrors : Prop :=
  ∀ s t : State, step s = .next t →
    (t.err = s.err ∧ t.errCode = s.errCode ∧ t.errCmd = s.errCmd) ∨
    (s.err = false ∧ s.busy = true ∧ nextEvent s = .completion ∧
      t.err = true ∧ (∃ c : ErrCode, t.errCode = c.byte) ∧ t.errCmd = s.cmdLatch) ∨
    ((nextEvent s = .reset ∨
        (s.busy = true ∧ nextEvent s = .completion ∧ s.cmdLatch = 0x01000000#32)) ∧
      t.err = false ∧ t.errCode = 0x00#8 ∧ t.errCmd = 0x00000000#32)

/-- OVR (10_state.md rule R31): set when the host writes CMD or BUF while BUSY = 1, cleared by CLRERR and by
Reset, written by nothing else, and without effect on any command. -/
def Obligations.OverrunBit : Prop :=
  (∀ s : State, s.busy = true →
    ((∃ w, nextEvent s = .regWrite 0 w) ∨ ∃ a v, nextEvent s = .bufWrite a v) →
    ∃ t, step s = .next t ∧ t.ovr = true) ∧
  (∀ s t : State, step s = .next t →
    (nextEvent s = .reset ∨
      (s.busy = true ∧ nextEvent s = .completion ∧ s.cmdLatch = 0x01000000#32)) → t.ovr = false) ∧
  (∀ s t : State, step s = .next t → t.ovr = s.ovr ∨
    (s.busy = true ∧ ((∃ w, nextEvent s = .regWrite 0 w) ∨ ∃ a v, nextEvent s = .bufWrite a v)) ∨
    nextEvent s = .reset ∨
    (s.busy = true ∧ nextEvent s = .completion ∧ s.cmdLatch = 0x01000000#32)) ∧
  (∀ (i : Instr) (s t : State) (o : Bool), exec i s = .next t →
    ∃ o' : Bool, exec i { s with ovr := o } = .next { t with ovr := o' })

/-- A command that ends without error writes the flags of its row, each with the value the row gives, and
leaves the others as they were; one that raises an error writes no flag (10_state.md rule R27). The first
clause holds in every state: ERR = 1 after `EndsInError`, and its frame leaves all four flags as they were. -/
def Obligations.FlagsWrittenByClass : Prop :=
  ∀ (i : Instr) (s t : State), exec i s = .next t →
    ((∃ c ∈ raisableErrors i, EndsInError c s t) ∨ (flagClass i).Writes s t) ∧
    (s.err = false → t.err = false → (flagClass i).Writes s t) ∧
    (s.err = false → t.err = true → SameFlags s t)

/-- No command's result depends on a flag (10_state.md rule R28): run with other flags, a command gives the
same state but for the flags. -/
def Obligations.FlagsAreOutputsOnly : Prop :=
  ∀ (i : Instr) (s t : State) (eq lt z inf : Bool), exec i s = .next t →
    ∃ eq' lt' z' inf' : Bool, exec i (s.withFlags eq lt z inf) = .next (t.withFlags eq' lt' z' inf')

/-- Error codes (60_exceptions.md rule R221): the value of each code; a command sets ERR only with a code of
its own; and the commands without one never set ERR once the word is legal. -/
def Obligations.ErrorCodesByCommand : Prop :=
  (ErrCode.illegalCmd.byte = 0x01#8 ∧ ErrCode.bufRange.byte = 0x02#8 ∧ ErrCode.operandRange.byte = 0x03#8 ∧
    ErrCode.invZero.byte = 0x04#8 ∧ ErrCode.notSquare.byte = 0x05#8 ∧ ErrCode.pointInf.byte = 0x06#8 ∧
    ErrCode.decInvalidLength.byte = 0x10#8 ∧ ErrCode.decInvalidTag.byte = 0x11#8 ∧
    ErrCode.notOnCurve.byte = 0x12#8) ∧
  (∀ (i : Instr) (s t : State), exec i s = .next t → s.err = false → t.err = true →
    ∃ c ∈ raisableErrors i, t.errCode = c.byte) ∧
  (∀ (i : Instr) (s : State), raisableErrors i = [] → s.err = false →
    ∃ t, exec i s = .next t ∧ t.err = false)

/-- The state after Reset satisfies the invariant of 10_state.md rule R45. -/
def Obligations.ResetSatisfiesInvariant : Prop :=
  State.reset.Inv

/-- Every step keeps the invariant: each point register holds Inf or a point of the curve, the error record
agrees with ERR (10_state.md rule R45 (b), (c)), and BUF stays in the model's canonical form. -/
def Obligations.StepKeepsInvariant : Prop :=
  ∀ s t : State, s.Inv → step s = .next t → t.Inv

/-- In every state a run from Reset reaches, with any host events, the invariant of 10_state.md rule R45
holds. -/
def Obligations.ReachableStatesKeepInvariant : Prop :=
  ∀ s : State, Reachable s →
    s.pointsOk ∧ s.errorRecordOk ∧ (∀ r : XReg, s.xNat r < 2 ^ 384) ∧ Memory.wf s.buf = true

/-- The number of STATUS reads the host makes while a command is in flight has no effect on the core's state
afterwards (70_reset_and_hazards.md rule R272). -/
def Obligations.StatusReadsAreInvisible : Prop :=
  ∀ (s t : State) (n : Nat), s.busy = true → step (s.withScript [.completion]) = .next t →
    ∃ u, Host.Core.run Sys2Proof.core (n + 1)
        (s.withScript (List.replicate n (.regRead 0x004) ++ [.completion])) = .next u ∧ SameCore t u

/-! ## System commands -/

/-- NOP (40_system.md rule R120): nothing changes but BUSY, whether ERR is 0 or 1. -/
def Obligations.NopChangesNothing : Prop :=
  decode (commandWord 0x00 0 0 0 0 0) = .ok .nop ∧
  (∀ s : State, exec .nop s = .next s) ∧
  ∀ s : State, s.busy = true → nextEvent s = .completion → s.cmdLatch = 0x00000000#32 →
    step s = .next { s.takeEvent with busy := false }

/-- CLRERR (40_system.md rule R121): the error record and OVR are cleared and nothing else changes, whether ERR
is 0 or 1. -/
def Obligations.ClrerrClearsErrorRecord : Prop :=
  decode (commandWord 0x01 0 0 0 0 0) = .ok .clrerr ∧
  (∀ s : State, exec .clrerr s =
    .next { s with err := false, errCode := 0x00#8, errCmd := 0x00000000#32, ovr := false }) ∧
  ∀ s : State, s.busy = true → nextEvent s = .completion → s.cmdLatch = 0x01000000#32 →
    step s = .next { s.takeEvent with
      busy := false, err := false, errCode := 0x00#8, errCmd := 0x00000000#32, ovr := false }

/-- ZEROIZE (40_system.md rule R122): all data and all flags to 0, the error record, OVR and the rest as
they were, whether ERR is 0 or 1. -/
def Obligations.ZeroizeClearsData : Prop :=
  decode (commandWord 0x02 0 0 0 0 0) = .ok .zeroize ∧
  (∀ s : State, ∃ t, exec .zeroize s = .next t ∧
    (∀ r : XReg, t.xNat r = 0) ∧ (∀ k : PReg, t.point k = .inf) ∧ (∀ a : Nat, t.byteAt a = 0x00#8) ∧
    t.flagEq = false ∧ t.flagLt = false ∧ t.flagZ = false ∧ t.flagInf = false ∧ SameControl s t) ∧
  ∀ s t : State, s.busy = true → nextEvent s = .completion → s.cmdLatch = 0x02000000#32 →
    exec .zeroize s.takeEvent = .next t → step s = .next t.retire

/-! ## Move and compare -/

/-- LDX (41_move_compare.md rule R130). -/
def Obligations.LdxLoadsBigEndian : Prop :=
  ∀ (d : XReg) (addr : Nat),
    (addr < 256 → decode (commandWord 0x10 d.val 0 0 0 addr) = .ok (.ldx d addr)) ∧
    ∀ s : State,
      (addr + 48 ≤ 256 → ∃ t, exec (.ldx d addr) s = .next t ∧
        t.xNat d = ∑ j ∈ Finset.range 48, (s.byteAt (addr + j)).toNat * 256 ^ (47 - j) ∧ FrameX d s t) ∧
      (256 < addr + 48 → RaisesError (.ldx d addr) .bufRange s)

/-- STX (41_move_compare.md rule R131). Its store is at the address in the command word. The values of the
bytes stored are read back from BUF in its canonical form, an invariant of the model. -/
def Obligations.StxStoresBigEndian : Prop :=
  ∀ (r : XReg) (addr : Nat),
    (addr < 256 → decode (commandWord 0x11 r.val 0 0 0 addr) = .ok (.stx r addr)) ∧
    ∀ s : State, Memory.wf s.buf = true →
      (addr + 48 ≤ 256 → ∃ t, exec (.stx r addr) s = .next t ∧
        (∀ j, j < 48 → (t.byteAt (addr + j)).toNat = s.xNat r / 256 ^ (47 - j) % 256) ∧
        FrameStore addr 48 s t) ∧
      (256 < addr + 48 → RaisesError (.stx r addr) .bufRange s)

/-- MOV (41_move_compare.md rule R132). -/
def Obligations.MovCopiesRegister : Prop :=
  ∀ d a : XReg, decode (commandWord 0x12 d.val a.val 0 0 0) = .ok (.mov d a) ∧
    ∀ s : State, ∃ t, exec (.mov d a) s = .next t ∧ t.x[d] = s.x[a] ∧ FrameX d s t

/-- LDC (41_move_compare.md rule R133), with the numbers of the table; R2P and R2N are 2^768 reduced. -/
def Obligations.LdcLoadsConstant : Prop :=
  ∀ d : XReg,
    (decode (commandWord 0x13 d.val 0 0 0 0) = .ok (.ldc d .zero) ∧
      decode (commandWord 0x13 d.val 0 0 0 1) = .ok (.ldc d .one) ∧
      decode (commandWord 0x13 d.val 0 0 0 2) = .ok (.ldc d .p) ∧
      decode (commandWord 0x13 d.val 0 0 0 3) = .ok (.ldc d .n) ∧
      decode (commandWord 0x13 d.val 0 0 0 4) = .ok (.ldc d .a) ∧
      decode (commandWord 0x13 d.val 0 0 0 5) = .ok (.ldc d .b) ∧
      decode (commandWord 0x13 d.val 0 0 0 6) = .ok (.ldc d .r2p) ∧
      decode (commandWord 0x13 d.val 0 0 0 7) = .ok (.ldc d .r2n)) ∧
    ∀ (k : Const) (s : State), ∃ t, exec (.ldc d k) s = .next t ∧ FrameX d s t ∧
      (k = .zero → t.xNat d = 0) ∧
      (k = .one → t.xNat d = 1) ∧
      (k = .p → t.xNat d = 0xFFFFFFFFFFFFFFFFFFFFFFFFFFFFFFFFFFFFFFFFFFFFFFFFFFFFFFFFFFFFFFFEFFFFFFFF0000000000000000FFFFFFFF) ∧
      (k = .n → t.xNat d = 0xFFFFFFFFFFFFFFFFFFFFFFFFFFFFFFFFFFFFFFFFFFFFFFFFC7634D81F4372DDF581A0DB248B0A77AECEC196ACCC52973) ∧
      (k = .a → t.xNat d = 0xFFFFFFFFFFFFFFFFFFFFFFFFFFFFFFFFFFFFFFFFFFFFFFFFFFFFFFFFFFFFFFFEFFFFFFFF0000000000000000FFFFFFFC) ∧
      (k = .b → t.xNat d = 0xB3312FA7E23EE7E4988E056BE3F82D19181D9C6EFE8141120314088F5013875AC656398D8A2ED19D2A85C8EDD3EC2AEF) ∧
      (k = .r2p → t.xNat d = 2 ^ 768 % Config.p) ∧
      (k = .r2n → t.xNat d = 2 ^ 768 % Config.n)

/-- CMP (41_move_compare.md rule R134): EQ and LT of the unsigned values, and nothing else written. -/
def Obligations.CmpComparesUnsigned : Prop :=
  ∀ a b : XReg, decode (commandWord 0x14 0 a.val b.val 0 0) = .ok (.cmp a b) ∧
    ∀ s : State, ∃ t, exec (.cmp a b) s = .next t ∧
      (t.flagEq = true ↔ s.xNat a = s.xNat b) ∧ (t.flagLt = true ↔ s.xNat a < s.xNat b) ∧
      t = { s with flagEq := t.flagEq, flagLt := t.flagLt }

/-! ## Arithmetic modulo p -/

/-- FADD (42_field.md rule R141). -/
def Obligations.FaddAddsModP : Prop :=
  ∀ d a b : XReg, decode (commandWord 0x20 d.val a.val b.val 0 0) = .ok (.fadd d a b) ∧
    ∀ s : State,
      (s.xNat a < Config.p → s.xNat b < Config.p → ∃ t, exec (.fadd d a b) s = .next t ∧
        t.xNat d = (s.xNat a + s.xNat b) % Config.p ∧ (t.flagZ = true ↔ t.xNat d = 0) ∧ FrameXZ d s t) ∧
      (Config.p ≤ s.xNat a ∨ Config.p ≤ s.xNat b → RaisesError (.fadd d a b) .operandRange s)

/-- FSUB (42_field.md rule R142): the difference, or the difference plus p. -/
def Obligations.FsubSubtractsModP : Prop :=
  ∀ d a b : XReg, decode (commandWord 0x21 d.val a.val b.val 0 0) = .ok (.fsub d a b) ∧
    ∀ s : State,
      (s.xNat a < Config.p → s.xNat b < Config.p → ∃ t, exec (.fsub d a b) s = .next t ∧
        t.xNat d = (if s.xNat b ≤ s.xNat a then s.xNat a - s.xNat b else s.xNat a + Config.p - s.xNat b) ∧
        (t.flagZ = true ↔ t.xNat d = 0) ∧ FrameXZ d s t) ∧
      (Config.p ≤ s.xNat a ∨ Config.p ≤ s.xNat b → RaisesError (.fsub d a b) .operandRange s)

/-- FMUL (42_field.md rule R143): the full product reduced. -/
def Obligations.FmulMultipliesModP : Prop :=
  ∀ d a b : XReg, decode (commandWord 0x22 d.val a.val b.val 0 0) = .ok (.fmul d a b) ∧
    ∀ s : State,
      (s.xNat a < Config.p → s.xNat b < Config.p → ∃ t, exec (.fmul d a b) s = .next t ∧
        t.xNat d = s.xNat a * s.xNat b % Config.p ∧ (t.flagZ = true ↔ t.xNat d = 0) ∧ FrameXZ d s t) ∧
      (Config.p ≤ s.xNat a ∨ Config.p ≤ s.xNat b → RaisesError (.fmul d a b) .operandRange s)

/-- FMMUL (42_field.md rule R144): the reduced result whose product with the radix 2^384 is the product of
the operands; the multiplier 2^(-384) mod p is the number of the rule. -/
def Obligations.FmmulIsMontgomeryProduct : Prop :=
  ∀ d a b : XReg, decode (commandWord 0x23 d.val a.val b.val 0 0) = .ok (.fmmul d a b) ∧
    ∀ s : State,
      (s.xNat a < Config.p → s.xNat b < Config.p → ∃ t, exec (.fmmul d a b) s = .next t ∧
        t.xNat d < Config.p ∧ t.xNat d * 2 ^ 384 % Config.p = s.xNat a * s.xNat b % Config.p ∧
        t.xNat d = s.xNat a * s.xNat b *
          0x00000014000000140000000C00000002FFFFFFFCFFFFFFFAFFFFFFFBFFFFFFFDFFFFFFEBFFFFFFD8FFFFFFE100000006
            % Config.p ∧
        (t.flagZ = true ↔ t.xNat d = 0) ∧ FrameXZ d s t) ∧
      (Config.p ≤ s.xNat a ∨ Config.p ≤ s.xNat b → RaisesError (.fmmul d a b) .operandRange s)

/-- FINV (42_field.md rule R145): the inverse in [1, p); OPERAND_RANGE before INV_ZERO. -/
def Obligations.FinvInvertsModP : Prop :=
  ∀ d a : XReg, decode (commandWord 0x24 d.val a.val 0 0 0) = .ok (.finv d a) ∧
    ∀ s : State,
      (0 < s.xNat a → s.xNat a < Config.p → ∃ t, exec (.finv d a) s = .next t ∧
        0 < t.xNat d ∧ t.xNat d < Config.p ∧ s.xNat a * t.xNat d % Config.p = 1 ∧
        t.flagZ = false ∧ FrameXZ d s t) ∧
      (s.xNat a = 0 → RaisesError (.finv d a) .invZero s) ∧
      (Config.p ≤ s.xNat a → RaisesError (.finv d a) .operandRange s)

/-- FRED (42_field.md rule R146): any 384-bit value reduced. -/
def Obligations.FredReducesModP : Prop :=
  ∀ d a : XReg, decode (commandWord 0x25 d.val a.val 0 0 0) = .ok (.fred d a) ∧
    ∀ s : State, ∃ t, exec (.fred d a) s = .next t ∧
      t.xNat d = s.xNat a % Config.p ∧ t.xNat d = (if s.xNat a < Config.p then s.xNat a else s.xNat a - Config.p) ∧
      (t.flagZ = true ↔ t.xNat d = 0) ∧ FrameXZ d s t

/-- FSQRT (42_field.md rule R147): a canonical operand that is a square modulo p gives the root
v ^ ((p+1)/4) mod p, one that is not gives NOT_SQUARE; OPERAND_RANGE comes first. -/
def Obligations.FsqrtExtractsRoot : Prop :=
  ∀ d a : XReg, decode (commandWord 0x26 d.val a.val 0 0 0) = .ok (.fsqrt d a) ∧
    ∀ s : State,
      (s.xNat a < Config.p → (∃ y, y * y % Config.p = s.xNat a) → ∃ t, exec (.fsqrt d a) s = .next t ∧
        t.xNat d = s.xNat a ^ ((Config.p + 1) / 4) % Config.p ∧
        t.xNat d * t.xNat d % Config.p = s.xNat a ∧
        (t.flagZ = true ↔ t.xNat d = 0) ∧ FrameXZ d s t) ∧
      (s.xNat a < Config.p → (¬∃ y, y * y % Config.p = s.xNat a) → RaisesError (.fsqrt d a) .notSquare s) ∧
      (Config.p ≤ s.xNat a → RaisesError (.fsqrt d a) .operandRange s)

/-! ## Arithmetic modulo n -/

/-- NADD (43_scalar.md rule R161). -/
def Obligations.NaddAddsModN : Prop :=
  ∀ d a b : XReg, decode (commandWord 0x30 d.val a.val b.val 0 0) = .ok (.nadd d a b) ∧
    ∀ s : State,
      (s.xNat a < Config.n → s.xNat b < Config.n → ∃ t, exec (.nadd d a b) s = .next t ∧
        t.xNat d = (s.xNat a + s.xNat b) % Config.n ∧ (t.flagZ = true ↔ t.xNat d = 0) ∧ FrameXZ d s t) ∧
      (Config.n ≤ s.xNat a ∨ Config.n ≤ s.xNat b → RaisesError (.nadd d a b) .operandRange s)

/-- NSUB (43_scalar.md rule R162): the difference, or the difference plus n. -/
def Obligations.NsubSubtractsModN : Prop :=
  ∀ d a b : XReg, decode (commandWord 0x31 d.val a.val b.val 0 0) = .ok (.nsub d a b) ∧
    ∀ s : State,
      (s.xNat a < Config.n → s.xNat b < Config.n → ∃ t, exec (.nsub d a b) s = .next t ∧
        t.xNat d = (if s.xNat b ≤ s.xNat a then s.xNat a - s.xNat b else s.xNat a + Config.n - s.xNat b) ∧
        (t.flagZ = true ↔ t.xNat d = 0) ∧ FrameXZ d s t) ∧
      (Config.n ≤ s.xNat a ∨ Config.n ≤ s.xNat b → RaisesError (.nsub d a b) .operandRange s)

/-- NMUL (43_scalar.md rule R163). -/
def Obligations.NmulMultipliesModN : Prop :=
  ∀ d a b : XReg, decode (commandWord 0x32 d.val a.val b.val 0 0) = .ok (.nmul d a b) ∧
    ∀ s : State,
      (s.xNat a < Config.n → s.xNat b < Config.n → ∃ t, exec (.nmul d a b) s = .next t ∧
        t.xNat d = s.xNat a * s.xNat b % Config.n ∧ (t.flagZ = true ↔ t.xNat d = 0) ∧ FrameXZ d s t) ∧
      (Config.n ≤ s.xNat a ∨ Config.n ≤ s.xNat b → RaisesError (.nmul d a b) .operandRange s)

/-- NMMUL (43_scalar.md rule R164): as FMMUL, modulo n. -/
def Obligations.NmmulIsMontgomeryProduct : Prop :=
  ∀ d a b : XReg, decode (commandWord 0x33 d.val a.val b.val 0 0) = .ok (.nmmul d a b) ∧
    ∀ s : State,
      (s.xNat a < Config.n → s.xNat b < Config.n → ∃ t, exec (.nmmul d a b) s = .next t ∧
        t.xNat d < Config.n ∧ t.xNat d * 2 ^ 384 % Config.n = s.xNat a * s.xNat b % Config.n ∧
        t.xNat d = s.xNat a * s.xNat b *
          0x355CA87DE39DBB1FA150206CE4F194AC78D4BA5866D61787E29F9FB70A9DA219D26D4AEBA664EDB0610AE855F2C0D911
            % Config.n ∧
        (t.flagZ = true ↔ t.xNat d = 0) ∧ FrameXZ d s t) ∧
      (Config.n ≤ s.xNat a ∨ Config.n ≤ s.xNat b → RaisesError (.nmmul d a b) .operandRange s)

/-- NINV (43_scalar.md rule R165): the inverse in [1, n); OPERAND_RANGE before INV_ZERO. -/
def Obligations.NinvInvertsModN : Prop :=
  ∀ d a : XReg, decode (commandWord 0x34 d.val a.val 0 0 0) = .ok (.ninv d a) ∧
    ∀ s : State,
      (0 < s.xNat a → s.xNat a < Config.n → ∃ t, exec (.ninv d a) s = .next t ∧
        0 < t.xNat d ∧ t.xNat d < Config.n ∧ s.xNat a * t.xNat d % Config.n = 1 ∧
        t.flagZ = false ∧ FrameXZ d s t) ∧
      (s.xNat a = 0 → RaisesError (.ninv d a) .invZero s) ∧
      (Config.n ≤ s.xNat a → RaisesError (.ninv d a) .operandRange s)

/-- NRED (43_scalar.md rule R166): any 384-bit value reduced. -/
def Obligations.NredReducesModN : Prop :=
  ∀ d a : XReg, decode (commandWord 0x35 d.val a.val 0 0 0) = .ok (.nred d a) ∧
    ∀ s : State, ∃ t, exec (.nred d a) s = .next t ∧
      t.xNat d = s.xNat a % Config.n ∧ t.xNat d = (if s.xNat a < Config.n then s.xNat a else s.xNat a - Config.n) ∧
      (t.flagZ = true ↔ t.xNat d = 0) ∧ FrameXZ d s t

/-! ## Points -/

/-- PINF (44_point.md rule R170). -/
def Obligations.PinfLoadsInfinity : Prop :=
  ∀ d : PReg, decode (commandWord 0x40 d.val 0 0 0 0) = .ok (.pinf d) ∧
    ∀ s : State, ∃ t, exec (.pinf d) s = .next t ∧ t.point d = .inf ∧ t.flagInf = true ∧ FramePoint d s t

/-- PLDG (44_point.md rule R171), with the numbers of 00_scope.md rule R5; they satisfy the curve
equation. -/
def Obligations.PldgLoadsGenerator : Prop :=
  ∀ d : PReg, decode (commandWord 0x41 d.val 0 0 0 0) = .ok (.pldg d) ∧
    ∀ s : State, ∃ t, exec (.pldg d) s = .next t ∧
      t.point d = .aff
        0xAA87CA22BE8B05378EB1C71EF320AD746E1D3B628BA79B9859F741E082542A385502F25DBF55296C3A545E3872760AB7#384
        0x3617DE4A96262C6F5D9E98BF9292DC29F8F41DBD289A147CE9DA3113B5F0B8C00A60B1CE1D7E819D7A431D7C90EA0E5F#384 ∧
      (t.point d).valid = true ∧ t.flagInf = false ∧ FramePoint d s t

/-- PSET (44_point.md rule R172): OPERAND_RANGE, then NOT_ON_CURVE, then the point. -/
def Obligations.PsetChecksCurve : Prop :=
  ∀ (d : PReg) (a b : XReg), decode (commandWord 0x42 d.val a.val b.val 0 0) = .ok (.pset d a b) ∧
    ∀ s : State,
      (onCurve (s.xNat a) (s.xNat b) → ∃ t, exec (.pset d a b) s = .next t ∧
        t.point d = .aff s.x[a] s.x[b] ∧ t.flagInf = false ∧ FramePoint d s t) ∧
      (s.xNat a < Config.p → s.xNat b < Config.p → ¬onCurve (s.xNat a) (s.xNat b) →
        RaisesError (.pset d a b) .notOnCurve s) ∧
      (Config.p ≤ s.xNat a ∨ Config.p ≤ s.xNat b → RaisesError (.pset d a b) .operandRange s)

/-- PGETX (44_point.md rule R173). -/
def Obligations.PgetxReadsX : Prop :=
  ∀ (d : XReg) (a : PReg), decode (commandWord 0x43 d.val a.val 0 0 0) = .ok (.pgetx d a) ∧
    ∀ s : State,
      (∀ x y : Val, s.point a = .aff x y →
        ∃ t, exec (.pgetx d a) s = .next t ∧ t.x[d] = x ∧ FrameX d s t) ∧
      (s.point a = .inf → RaisesError (.pgetx d a) .pointInf s)

/-- PGETY (44_point.md rule R174). -/
def Obligations.PgetyReadsY : Prop :=
  ∀ (d : XReg) (a : PReg), decode (commandWord 0x44 d.val a.val 0 0 0) = .ok (.pgety d a) ∧
    ∀ s : State,
      (∀ x y : Val, s.point a = .aff x y →
        ∃ t, exec (.pgety d a) s = .next t ∧ t.x[d] = y ∧ FrameX d s t) ∧
      (s.point a = .inf → RaisesError (.pgety d a) .pointInf s)

/-- PMOV (44_point.md rule R175). -/
def Obligations.PmovCopiesPoint : Prop :=
  ∀ d a : PReg, decode (commandWord 0x45 d.val a.val 0 0 0) = .ok (.pmov d a) ∧
    ∀ s : State, ∃ t, exec (.pmov d a) s = .next t ∧
      t.point d = s.point a ∧ (t.flagInf = true ↔ s.point a = .inf) ∧ FramePoint d s t

/-- PDBL (44_point.md rule R176, 00_scope.md rule R10): Inf doubled is Inf; a point of the curve doubled is
the point of the tangent formulas, on the curve and never Inf. That a point register holds a point of the
curve is the invariant of 10_state.md rule R45. -/
def Obligations.PdblDoublesPoint : Prop :=
  ∀ d a : PReg, decode (commandWord 0x46 d.val a.val 0 0 0) = .ok (.pdbl d a) ∧
    ∀ s : State, s.pointsOk → ∃ t, exec (.pdbl d a) s = .next t ∧ FramePoint d s t ∧
      t.point d = ptDbl (s.point a) ∧ (t.flagInf = true ↔ t.point d = .inf) ∧
      (s.point a = .inf → t.point d = .inf) ∧
      ∀ x y : Val, s.point a = .aff x y → ∃ (lam : ZMod Config.p) (x3 y3 : Val),
        t.point d = .aff x3 y3 ∧ onCurve x3.toNat y3.toNat ∧
        lam * (2 * (y.toNat : ZMod Config.p)) = 3 * (x.toNat : ZMod Config.p) ^ 2 - 3 ∧
        (x3.toNat : ZMod Config.p) = lam ^ 2 - 2 * (x.toNat : ZMod Config.p) ∧
        (y3.toNat : ZMod Config.p) =
          lam * ((x.toNat : ZMod Config.p) - (x3.toNat : ZMod Config.p)) - (y.toNat : ZMod Config.p)

/-- PADD (44_point.md rule R177, 00_scope.md rule R10): the five cases of pt_add, the last by the chord
formulas; the sum is on the curve. -/
def Obligations.PaddAddsPoints : Prop :=
  ∀ d a b : PReg, decode (commandWord 0x47 d.val a.val b.val 0 0) = .ok (.padd d a b) ∧
    ∀ s : State, s.pointsOk → ∃ t, exec (.padd d a b) s = .next t ∧ FramePoint d s t ∧
      (t.flagInf = true ↔ t.point d = .inf) ∧ (t.point d).valid = true ∧
      (s.point a = .inf → t.point d = s.point b) ∧
      (s.point b = .inf → t.point d = s.point a) ∧
      (s.point a = s.point b → t.point d = ptDbl (s.point a)) ∧
      (s.point b = ptNeg (s.point a) → t.point d = .inf) ∧
      ∀ x1 y1 x2 y2 : Val, s.point a = .aff x1 y1 → s.point b = .aff x2 y2 →
        (x1 = x2 → y1 ≠ y2 → t.point d = .inf) ∧
        (x1 ≠ x2 → ∃ (lam : ZMod Config.p) (x3 y3 : Val), t.point d = .aff x3 y3 ∧
          lam * ((x2.toNat : ZMod Config.p) - (x1.toNat : ZMod Config.p)) =
            (y2.toNat : ZMod Config.p) - (y1.toNat : ZMod Config.p) ∧
          (x3.toNat : ZMod Config.p) = lam ^ 2 - (x1.toNat : ZMod Config.p) - (x2.toNat : ZMod Config.p) ∧
          (y3.toNat : ZMod Config.p) =
            lam * ((x1.toNat : ZMod Config.p) - (x3.toNat : ZMod Config.p)) - (y1.toNat : ZMod Config.p))

/-- PMUL (44_point.md rule R178): pt_mul of 00_scope.md rule R10, repeated addition, whatever the machine
evaluates. -/
def Obligations.PmulMultipliesPoint : Prop :=
  ∀ (d : PReg) (k : XReg) (b : PReg), decode (commandWord 0x48 d.val k.val b.val 0 0) = .ok (.pmul d k b) ∧
    ∀ s : State,
      (s.xNat k < Config.n → ∃ t, exec (.pmul d k b) s = .next t ∧
        t.point d = ptMul (s.xNat k) (s.point b) ∧ (t.flagInf = true ↔ t.point d = .inf) ∧ FramePoint d s t) ∧
      (Config.n ≤ s.xNat k → RaisesError (.pmul d k b) .operandRange s)

/-! ## Codec -/

/-- PENC (45_codec.md rule R191): BUF_RANGE, then POINT_INF, then the tag and the 48 bytes of x at the address
in the command word. -/
def Obligations.PencWritesCompressedPoint : Prop :=
  ∀ (r : PReg) (addr : Nat),
    (addr < 256 → decode (commandWord 0x49 r.val 0 0 0 addr) = .ok (.penc r addr)) ∧
    ∀ s : State, Memory.wf s.buf = true →
      (∀ x y : Val, addr + 49 ≤ 256 → s.point r = .aff x y → ∃ t, exec (.penc r addr) s = .next t ∧
        (t.byteAt addr).toNat = 2 + y.toNat % 2 ∧
        (∀ j, j < 48 → (t.byteAt (addr + 1 + j)).toNat = x.toNat / 256 ^ (47 - j) % 256) ∧
        FrameStore addr 49 s t) ∧
      (256 < addr + 49 → RaisesError (.penc r addr) .bufRange s) ∧
      (addr + 49 ≤ 256 → s.point r = .inf → RaisesError (.penc r addr) .pointInf s)

/-- PDEC (45_codec.md rule R192): the checks in their order, and the one point with the x of the buffer and
the parity of the tag. -/
def Obligations.PdecReadsCompressedPoint : Prop :=
  ∀ (d : PReg) (addr len : Nat),
    (addr < 256 → len < 256 → decode (commandWord 0x4A d.val 0 0 len addr) = .ok (.pdec d addr len)) ∧
    ∀ s : State,
      (len ≠ 49 → RaisesError (.pdec d addr len) .decInvalidLength s) ∧
      (len = 49 → 256 < addr + 49 → RaisesError (.pdec d addr len) .bufRange s) ∧
      (len = 49 → addr + 49 ≤ 256 →
        (s.byteAt addr ≠ 0x02#8 → s.byteAt addr ≠ 0x03#8 → RaisesError (.pdec d addr len) .decInvalidTag s) ∧
        (s.byteAt addr = 0x02#8 ∨ s.byteAt addr = 0x03#8 →
          ((¬∃ y, onCurve (s.memRead (addr + 1) 48) y) → RaisesError (.pdec d addr len) .notOnCurve s) ∧
          ∀ y, onCurve (s.memRead (addr + 1) 48) y → y % 2 = (s.byteAt addr).toNat % 2 →
            ∃ t, exec (.pdec d addr len) s = .next t ∧
              t.point d = .aff (BitVec.ofNat 384 (s.memRead (addr + 1) 48)) (BitVec.ofNat 384 y) ∧
              t.flagInf = false ∧ FramePoint d s t) ∧
        (s.byteAt addr = 0x02#8 ∨ s.byteAt addr = 0x03#8 →
          (∃ y, onCurve (s.memRead (addr + 1) 48) y) →
          ∃ y, onCurve (s.memRead (addr + 1) 48) y ∧ y % 2 = (s.byteAt addr).toNat % 2))

/-! ## Laws -/

/-- The Montgomery identities of 42_field.md rule R144 and 43_scalar.md rule R164, on the products FMMUL and
NMMUL compute. -/
def Obligations.MontgomeryIdentities : Prop :=
  (∀ u v : Nat, u < Config.p → v < Config.p →
    montMod Config.p Config.rinvP u Config.r2p = u * 2 ^ 384 % Config.p ∧
    montMod Config.p Config.rinvP (montMod Config.p Config.rinvP u Config.r2p) 1 = u ∧
    montMod Config.p Config.rinvP (montMod Config.p Config.rinvP u v) Config.r2p = mulMod Config.p u v) ∧
  (∀ u v : Nat, u < Config.n → v < Config.n →
    montMod Config.n Config.rinvN u Config.r2n = u * 2 ^ 384 % Config.n ∧
    montMod Config.n Config.rinvN (montMod Config.n Config.rinvN u Config.r2n) 1 = u ∧
    montMod Config.n Config.rinvN (montMod Config.n Config.rinvN u v) Config.r2n = mulMod Config.n u v)

/-- The base point has order n (00_scope.md rules R5, R10): n·G is Inf, no smaller positive multiple is, and
(n - 1)·G is -G. -/
def Obligations.GeneratorHasOrderN : Prop :=
  ptMul Config.n generator = .inf ∧
  (∀ k : Nat, 0 < k → k < Config.n → ptMul k generator ≠ .inf) ∧
  ptMul (Config.n - 1) generator = ptNeg generator

/-- Inf and the points of the curve with pt_add are a commutative group with neutral element Inf: sums, opposites
and multiples are Inf or points of the curve, and pt_mul composes (00_scope.md rule R10). -/
def Obligations.PointsFormGroup : Prop :=
  ∀ q r u : PointVal, q.valid = true → r.valid = true → u.valid = true →
    (ptAdd q r).valid = true ∧ (ptNeg q).valid = true ∧ (∀ k : Nat, (ptMul k q).valid = true) ∧
    ptAdd q r = ptAdd r q ∧
    ptAdd (ptAdd q r) u = ptAdd q (ptAdd r u) ∧
    ptAdd q .inf = q ∧ ptAdd .inf q = q ∧
    ptAdd q (ptNeg q) = .inf ∧
    ptAdd q q = ptDbl q ∧
    ∀ j k : Nat, ptMul j (ptMul k q) = ptMul (j * k) q

/-- Round trip (45_codec.md rule R193): PENC and then PDEC at the same address gives the same point; a
successful PDEC and then PENC writes the 49 bytes that were decoded. -/
def Obligations.CodecRoundTrip : Prop :=
  ∀ (d r : PReg) (addr : Nat) (s : State), s.Inv → addr + 49 ≤ 256 →
    (s.point r ≠ .inf → ∃ t u, exec (.penc r addr) s = .next t ∧ exec (.pdec d addr 49) t = .next u ∧
      u.point d = s.point r ∧ u.flagInf = false ∧ u.err = s.err) ∧
    (∀ (addr2 : Nat) (t : State), addr2 + 49 ≤ 256 → s.err = false → exec (.pdec d addr 49) s = .next t →
      t.err = false → ∃ u, exec (.penc d addr2) t = .next u ∧
        ∀ j, j < 49 → u.byteAt (addr2 + j) = s.byteAt (addr + j))
end

