-- ==== Sys2Proof/Laws/Modular.lean ====
section
/-! SUPPORT. Laws of the modular arithmetic: what `imod`, `powMod`, `invMod` and the shared operations
compute. -/

namespace Sys2Proof.Machine

theorem imod_lt (v : Int) {m : Nat} (hm : 0 < m) : imod v m < m := by
  have h1 := Int.emod_lt_of_pos v (Int.natCast_pos.mpr hm)
  have h2 := Int.emod_nonneg v (Int.natCast_pos.mpr hm).ne'
  unfold imod
  omega

/-- `imod` is the remainder, as an integer. -/
theorem imod_cast (v : Int) {m : Nat} (hm : 0 < m) : (imod v m : Int) = v % m := by
  have h2 := Int.emod_nonneg v (Int.natCast_pos.mpr hm).ne'
  unfold imod
  omega

/-- In ZMod m, `imod v m` is v. -/
theorem imod_zmod (v : Int) {m : Nat} (hm : 0 < m) : ((imod v m : Nat) : ZMod m) = (v : ZMod m) := by
  have h : ((imod v m : Int) : ZMod m) = ((v % m : Int) : ZMod m) := by rw [imod_cast v hm]
  simpa using h

theorem imod_natCast (v m : Nat) : imod (v : Int) m = v % m := by
  unfold imod
  omega

theorem powBits_eq (m base : Nat) : ∀ k e : Nat, e < 2 ^ k → powBits m base k e = base ^ e % m := by
  intro k
  induction k with
  | zero =>
    intro e he
    have : e = 0 := by simpa using he
    simp [powBits, this]
  | succ k ih =>
    intro e he
    have hdiv : e / 2 < 2 ^ k := by rw [pow_succ] at he; omega
    have hsq : base ^ (e / 2) % m * (base ^ (e / 2) % m) % m = base ^ (2 * (e / 2)) % m := by
      rw [← Nat.mul_mod, two_mul, pow_add]
    rw [powBits, ih _ hdiv, powStep]
    split
    · next hbit =>
      have he2 : e = 2 * (e / 2) + 1 := by omega
      rw [hsq, Nat.mod_mul_mod, ← pow_succ, ← he2]
    · next hbit =>
      have he2 : e = 2 * (e / 2) := by omega
      rw [hsq, ← he2]

/-- `powMod` is exponentiation reduced modulo m (00_scope.md rule R9). -/
theorem powMod_eq (base e m : Nat) : powMod base e m = base ^ e % m :=
  powBits_eq m base _ e Nat.lt_log2_self

theorem powMod_lt (base e : Nat) {m : Nat} (hm : 0 < m) : powMod base e m < m := by
  rw [powMod_eq]
  exact Nat.mod_lt _ hm

theorem powMod_zmod (base e m : Nat) : ((powMod base e m : Nat) : ZMod m) = (base : ZMod m) ^ e := by
  rw [powMod_eq, ZMod.natCast_mod, Nat.cast_pow]

theorem addMod_lt (u v : Nat) {m : Nat} (hm : 0 < m) : addMod m u v < m := Nat.mod_lt _ hm

theorem subMod_lt (u v : Nat) {m : Nat} (hm : 0 < m) : subMod m u v < m := imod_lt _ hm

theorem mulMod_lt (u v : Nat) {m : Nat} (hm : 0 < m) : mulMod m u v < m := Nat.mod_lt _ hm

theorem montMod_lt (rinv u v : Nat) {m : Nat} (hm : 0 < m) : montMod m rinv u v < m := Nat.mod_lt _ hm

/-- A difference of canonical values is the plain difference, or that plus the modulus
(42_field.md rule R142). -/
theorem subMod_eq {m u v : Nat} (hu : u < m) (hv : v < m) :
    subMod m u v = if v ≤ u then u - v else u + m - v := by
  have h1 := imod_cast ((u : Int) - v) (by omega : 0 < m)
  unfold subMod
  split
  · next h =>
    rw [Int.emod_eq_of_lt (by omega) (by omega)] at h1
    omega
  · next h =>
    rw [← Int.add_emod_right, Int.emod_eq_of_lt (by omega) (by omega)] at h1
    omega

/-- For a prime m, `invMod m a` is the unique inverse of a (00_scope.md rule R9). -/
theorem invMod_zmod {m a : Nat} (hm : m.Prime) (ha : a % m ≠ 0) :
    ((invMod m a : Nat) : ZMod m) * (a : ZMod m) = 1 := by
  have := Fact.mk hm
  have hne : (a : ZMod m) ≠ 0 := by
    rw [Ne, ZMod.natCast_eq_zero_iff]
    exact fun h => ha (Nat.mod_eq_zero_of_dvd h)
  have h2 : m - 2 + 1 = m - 1 := by have := hm.two_le; omega
  rw [invMod, if_neg ha, powMod_zmod, ← pow_succ, h2, ZMod.pow_card_sub_one_eq_one hne]

theorem invMod_lt {m a : Nat} (hm : 0 < m) (ha : a % m ≠ 0) : invMod m a < m := by
  rw [invMod, if_neg ha]
  exact powMod_lt _ _ hm

/-- The inverse of a non-zero canonical value is in [1, m) and its product with the value is 1
(42_field.md rule R145, 43_scalar.md rule R165). -/
theorem invMod_spec {m a : Nat} (hm : m.Prime) (ha : 0 < a) (ham : a < m) :
    0 < invMod m a ∧ invMod m a < m ∧ a * invMod m a % m = 1 := by
  have hmod : a % m ≠ 0 := by rw [Nat.mod_eq_of_lt ham]; omega
  have hlt := invMod_lt hm.pos hmod
  have h1 := invMod_zmod hm hmod
  have h2 : a * invMod m a % m = 1 := by
    have h3 : ((a * invMod m a : Nat) : ZMod m) = ((1 : Nat) : ZMod m) := by
      push_cast
      rw [mul_comm]
      exact h1
    have h4 := (ZMod.natCast_eq_natCast_iff' _ _ _).mp h3
    rwa [Nat.mod_eq_of_lt hm.one_lt] at h4
  refine ⟨?_, hlt, h2⟩
  rcases Nat.eq_zero_or_pos (invMod m a) with h0 | h0
  · rw [h0] at h2
    simp at h2
  · exact h0

end Sys2Proof.Machine
end

