-- ==== Sys2Proof/Laws/Prime.lean ====
section
/-! SUPPORT. p and n are prime (00_scope.md rule R5: "p and n pass a primality test"), by Lucas certificates:
a witness whose order modulo m is m - 1, for a full factorisation of m - 1 into smaller primes. -/

namespace Sys2Proof.Machine

set_option Elab.async false

/-- The arithmetic part of a Lucas certificate for m: the factors `fs` multiply to m - 1, and the witness
`a` has order m - 1 modulo m. -/
def lucasOk (m a : Nat) (fs : List Nat) : Bool :=
  decide (1 < m) && decide (fs.prod = m - 1) && decide (powMod a (m - 1) m = 1) &&
    fs.all (fun f => decide (powMod a ((m - 1) / f) m ≠ 1))

/-- A Lucas certificate whose factors are prime proves primality. -/
theorem prime_of_lucasOk {m a : Nat} {fs : List Nat} (h : lucasOk m a fs = true)
    (hfs : ∀ f ∈ fs, f.Prime) : m.Prime := by
  simp only [lucasOk, Bool.and_eq_true, decide_eq_true_eq, List.all_eq_true] at h
  obtain ⟨⟨⟨hm, hprod⟩, hone⟩, hne⟩ := h
  have key : ∀ e : Nat, (a : ZMod m) ^ e = 1 ↔ powMod a e m = 1 := by
    intro e
    rw [← powMod_zmod]
    constructor
    · intro he
      have h1 : ((powMod a e m : Nat) : ZMod m) = ((1 : Nat) : ZMod m) := by simpa using he
      have h2 := (ZMod.natCast_eq_natCast_iff' _ _ _).mp h1
      rwa [Nat.mod_eq_of_lt hm, Nat.mod_eq_of_lt (powMod_lt _ _ (by omega))] at h2
    · intro he
      rw [he, Nat.cast_one]
  refine lucas_primality m (a : ZMod m) ((key _).mpr hone) ?_
  intro q hq hdvd hpow
  rw [← hprod] at hdvd
  obtain ⟨f, hf, hqf⟩ := (Nat.Prime.prime hq).dvd_prod_iff.mp hdvd
  have hqe : q = f := (Nat.prime_dvd_prime_iff_eq hq (hfs f hf)).mp hqf
  subst hqe
  exact hne q hf ((key _).mp hpow)

theorem prime_2862218959 : Nat.Prime 2862218959 := by
  refine prime_of_lucasOk (a := 3) (fs := [2, 3, 157, 1373, 2213]) (by decide +kernel) ?_
  simp only [List.forall_mem_cons, List.not_mem_nil, false_implies, implies_true, and_true]
  exact ⟨by norm_num, by norm_num, by norm_num, by norm_num, by norm_num⟩

theorem prime_807145746439 : Nat.Prime 807145746439 := by
  refine prime_of_lucasOk (a := 3) (fs := [2, 3, 47, 2862218959]) (by decide +kernel) ?_
  simp only [List.forall_mem_cons, List.not_mem_nil, false_implies, implies_true, and_true]
  exact ⟨by norm_num, by norm_num, by norm_num, prime_2862218959⟩

theorem prime_513928823 : Nat.Prime 513928823 := by
  refine prime_of_lucasOk (a := 5) (fs := [2, 11, 59, 599, 661]) (by decide +kernel) ?_
  simp only [List.forall_mem_cons, List.not_mem_nil, false_implies, implies_true, and_true]
  exact ⟨by norm_num, by norm_num, by norm_num, by norm_num, by norm_num⟩

theorem prime_53448597593 : Nat.Prime 53448597593 := by
  refine prime_of_lucasOk (a := 3) (fs := [2, 2, 2, 13, 513928823]) (by decide +kernel) ?_
  simp only [List.forall_mem_cons, List.not_mem_nil, false_implies, implies_true, and_true]
  exact ⟨by norm_num, by norm_num, by norm_num, by norm_num, prime_513928823⟩

theorem prime_19_digits_135729 : Nat.Prime 1357291859799823621 := by
  refine prime_of_lucasOk (a := 2) (fs := [2, 2, 3, 5, 67, 6317, 53448597593]) (by decide +kernel) ?_
  simp only [List.forall_mem_cons, List.not_mem_nil, false_implies, implies_true, and_true]
  exact ⟨by norm_num, by norm_num, by norm_num, by norm_num, by norm_num, by norm_num, prime_53448597593⟩

theorem prime_105957871 : Nat.Prime 105957871 := by
  refine prime_of_lucasOk (a := 3) (fs := [2, 3, 5, 19, 211, 881]) (by decide +kernel) ?_
  simp only [List.forall_mem_cons, List.not_mem_nil, false_implies, implies_true, and_true]
  exact ⟨by norm_num, by norm_num, by norm_num, by norm_num, by norm_num, by norm_num⟩

theorem prime_246608641 : Nat.Prime 246608641 := by
  refine prime_of_lucasOk (a := 19) (fs := [2, 2, 2, 2, 2, 2, 2, 2, 3, 3, 5, 21407]) (by decide +kernel) ?_
  simp only [List.forall_mem_cons, List.not_mem_nil, false_implies, implies_true, and_true]
  exact ⟨by norm_num, by norm_num, by norm_num, by norm_num, by norm_num, by norm_num, by norm_num, by norm_num, by norm_num, by norm_num, by norm_num, by norm_num⟩

theorem prime_21_digits_529709 : Nat.Prime 529709925838459440593 := by
  refine prime_of_lucasOk (a := 3) (fs := [2, 2, 2, 2, 7, 181, 105957871, 246608641]) (by decide +kernel) ?_
  simp only [List.forall_mem_cons, List.not_mem_nil, false_implies, implies_true, and_true]
  exact ⟨by norm_num, by norm_num, by norm_num, by norm_num, by norm_num, by norm_num, prime_105957871, prime_246608641⟩

theorem prime_6051631 : Nat.Prime 6051631 := by
  refine prime_of_lucasOk (a := 6) (fs := [2, 3, 5, 13, 59, 263]) (by decide +kernel) ?_
  simp only [List.forall_mem_cons, List.not_mem_nil, false_implies, implies_true, and_true]
  exact ⟨by norm_num, by norm_num, by norm_num, by norm_num, by norm_num, by norm_num⟩

theorem prime_532247449 : Nat.Prime 532247449 := by
  refine prime_of_lucasOk (a := 7) (fs := [2, 2, 2, 3, 61, 363557]) (by decide +kernel) ?_
  simp only [List.forall_mem_cons, List.not_mem_nil, false_implies, implies_true, and_true]
  exact ⟨by norm_num, by norm_num, by norm_num, by norm_num, by norm_num, by norm_num⟩

theorem prime_14_digits_449259 : Nat.Prime 44925942675193 := by
  refine prime_of_lucasOk (a := 5) (fs := [2, 2, 2, 3, 3517, 532247449]) (by decide +kernel) ?_
  simp only [List.forall_mem_cons, List.not_mem_nil, false_implies, implies_true, and_true]
  exact ⟨by norm_num, by norm_num, by norm_num, by norm_num, by norm_num, prime_532247449⟩

theorem prime_23_digits_355814 : Nat.Prime 35581458644053887931343 := by
  refine prime_of_lucasOk (a := 5) (fs := [2, 17, 41, 568151, 44925942675193]) (by decide +kernel) ?_
  simp only [List.forall_mem_cons, List.not_mem_nil, false_implies, implies_true, and_true]
  exact ⟨by norm_num, by norm_num, by norm_num, by norm_num, prime_14_digits_449259⟩

theorem prime_29_digits_239646 : Nat.Prime 23964610537191310276190549303 := by
  refine prime_of_lucasOk (a := 5) (fs := [2, 336757, 35581458644053887931343]) (by decide +kernel) ?_
  simp only [List.forall_mem_cons, List.not_mem_nil, false_implies, implies_true, and_true]
  exact ⟨by norm_num, by norm_num, prime_23_digits_355814⟩

theorem prime_30_digits_862725 : Nat.Prime 862725979338887169942859774909 := by
  refine prime_of_lucasOk (a := 2) (fs := [2, 2, 3, 3, 23964610537191310276190549303]) (by decide +kernel) ?_
  simp only [List.forall_mem_cons, List.not_mem_nil, false_implies, implies_true, and_true]
  exact ⟨by norm_num, by norm_num, by norm_num, by norm_num, prime_29_digits_239646⟩

theorem prime_32_digits_207054 : Nat.Prime 20705423504133292078628634597817 := by
  refine prime_of_lucasOk (a := 5) (fs := [2, 2, 2, 3, 862725979338887169942859774909]) (by decide +kernel) ?_
  simp only [List.forall_mem_cons, List.not_mem_nil, false_implies, implies_true, and_true]
  exact ⟨by norm_num, by norm_num, by norm_num, by norm_num, prime_30_digits_862725⟩

theorem prime_42_digits_413244 : Nat.Prime 413244619895455989650825325680172591660047 := by
  refine prime_of_lucasOk (a := 5) (fs := [2, 17, 97, 6051631, 20705423504133292078628634597817]) (by decide +kernel) ?_
  simp only [List.forall_mem_cons, List.not_mem_nil, false_implies, implies_true, and_true]
  exact ⟨by norm_num, by norm_num, by norm_num, prime_6051631, prime_32_digits_207054⟩

theorem prime_44_digits_123973 : Nat.Prime 12397338596863679689524759770405177749801411 := by
  refine prime_of_lucasOk (a := 2) (fs := [2, 3, 5, 413244619895455989650825325680172591660047]) (by decide +kernel) ?_
  simp only [List.forall_mem_cons, List.not_mem_nil, false_implies, implies_true, and_true]
  exact ⟨by norm_num, by norm_num, by norm_num, prime_42_digits_413244⟩

theorem prime_101_digits_191737 : Nat.Prime 19173790298027098165721053155794528970226934547887232785722672956982046098136719667167519737147526097 := by
  refine prime_of_lucasOk (a := 3) (fs := [2, 2, 2, 2, 11, 11, 11, 8389, 38557, 312289, 1357291859799823621, 529709925838459440593, 12397338596863679689524759770405177749801411]) (by decide +kernel) ?_
  simp only [List.forall_mem_cons, List.not_mem_nil, false_implies, implies_true, and_true]
  exact ⟨by norm_num, by norm_num, by norm_num, by norm_num, by norm_num, by norm_num, by norm_num, by norm_num, by norm_num, by norm_num, prime_19_digits_135729, prime_21_digits_529709, prime_44_digits_123973⟩

theorem p384_prime : Nat.Prime Config.p := by
  refine prime_of_lucasOk (a := 19) (fs := [2, 19, 67, 807145746439, 19173790298027098165721053155794528970226934547887232785722672956982046098136719667167519737147526097]) (by decide +kernel) ?_
  simp only [List.forall_mem_cons, List.not_mem_nil, false_implies, implies_true, and_true]
  exact ⟨by norm_num, by norm_num, by norm_num, prime_807145746439, prime_101_digits_191737⟩

theorem prime_154950581 : Nat.Prime 154950581 := by
  refine prime_of_lucasOk (a := 2) (fs := [2, 2, 5, 17, 455737]) (by decide +kernel) ?_
  simp only [List.forall_mem_cons, List.not_mem_nil, false_implies, implies_true, and_true]
  exact ⟨by norm_num, by norm_num, by norm_num, by norm_num, by norm_num⟩

theorem prime_290064143 : Nat.Prime 290064143 := by
  refine prime_of_lucasOk (a := 5) (fs := [2, 79, 491, 3739]) (by decide +kernel) ?_
  simp only [List.forall_mem_cons, List.not_mem_nil, false_implies, implies_true, and_true]
  exact ⟨by norm_num, by norm_num, by norm_num, by norm_num⟩

theorem prime_24_digits_120699 : Nat.Prime 120699720968197491947347 := by
  refine prime_of_lucasOk (a := 3) (fs := [2, 3, 13, 34429, 154950581, 290064143]) (by decide +kernel) ?_
  simp only [List.forall_mem_cons, List.not_mem_nil, false_implies, implies_true, and_true]
  exact ⟨by norm_num, by norm_num, by norm_num, by norm_num, prime_154950581, prime_290064143⟩

theorem prime_28_digits_112467 : Nat.Prime 1124679999981664229965379347 := by
  refine prime_of_lucasOk (a := 2) (fs := [2, 3, 1553, 120699720968197491947347]) (by decide +kernel) ?_
  simp only [List.forall_mem_cons, List.not_mem_nil, false_implies, implies_true, and_true]
  exact ⟨by norm_num, by norm_num, by norm_num, prime_24_digits_120699⟩

theorem prime_1276987 : Nat.Prime 1276987 := by
  refine prime_of_lucasOk (a := 2) (fs := [2, 3, 29, 41, 179]) (by decide +kernel) ?_
  simp only [List.forall_mem_cons, List.not_mem_nil, false_implies, implies_true, and_true]
  exact ⟨by norm_num, by norm_num, by norm_num, by norm_num, by norm_num⟩

theorem prime_13_digits_143683 : Nat.Prime 1436833069313 := by
  refine prime_of_lucasOk (a := 3) (fs := [2, 2, 2, 2, 2, 2, 2, 2, 16979, 330563]) (by decide +kernel) ?_
  simp only [List.forall_mem_cons, List.not_mem_nil, false_implies, implies_true, and_true]
  exact ⟨by norm_num, by norm_num, by norm_num, by norm_num, by norm_num, by norm_num, by norm_num, by norm_num, by norm_num, by norm_num⟩

theorem prime_8463023 : Nat.Prime 8463023 := by
  refine prime_of_lucasOk (a := 5) (fs := [2, 113, 37447]) (by decide +kernel) ?_
  simp only [List.forall_mem_cons, List.not_mem_nil, false_implies, implies_true, and_true]
  exact ⟨by norm_num, by norm_num, by norm_num⟩

theorem prime_9863677 : Nat.Prime 9863677 := by
  refine prime_of_lucasOk (a := 5) (fs := [2, 2, 3, 3, 311, 881]) (by decide +kernel) ?_
  simp only [List.forall_mem_cons, List.not_mem_nil, false_implies, implies_true, and_true]
  exact ⟨by norm_num, by norm_num, by norm_num, by norm_num, by norm_num, by norm_num⟩

theorem prime_14_digits_373447 : Nat.Prime 37344768852931 := by
  refine prime_of_lucasOk (a := 3) (fs := [2, 3, 5, 7, 11, 11, 149, 9863677]) (by decide +kernel) ?_
  simp only [List.forall_mem_cons, List.not_mem_nil, false_implies, implies_true, and_true]
  exact ⟨by norm_num, by norm_num, by norm_num, by norm_num, by norm_num, by norm_num, by norm_num, prime_9863677⟩

theorem prime_17_digits_559424 : Nat.Prime 55942463741690639 := by
  refine prime_of_lucasOk (a := 7) (fs := [2, 7, 107, 37344768852931]) (by decide +kernel) ?_
  simp only [List.forall_mem_cons, List.not_mem_nil, false_implies, implies_true, and_true]
  exact ⟨by norm_num, by norm_num, by norm_num, prime_14_digits_373447⟩

theorem prime_272109983 : Nat.Prime 272109983 := by
  refine prime_of_lucasOk (a := 5) (fs := [2, 19, 73, 233, 421]) (by decide +kernel) ?_
  simp only [List.forall_mem_cons, List.not_mem_nil, false_implies, implies_true, and_true]
  exact ⟨by norm_num, by norm_num, by norm_num, by norm_num, by norm_num⟩

theorem prime_228572385721 : Nat.Prime 228572385721 := by
  refine prime_of_lucasOk (a := 23) (fs := [2, 2, 2, 3, 5, 7, 272109983]) (by decide +kernel) ?_
  simp only [List.forall_mem_cons, List.not_mem_nil, false_implies, implies_true, and_true]
  exact ⟨by norm_num, by norm_num, by norm_num, by norm_num, by norm_num, by norm_num, prime_272109983⟩

theorem prime_14_digits_233143 : Nat.Prime 23314383343543 := by
  refine prime_of_lucasOk (a := 3) (fs := [2, 3, 17, 228572385721]) (by decide +kernel) ?_
  simp only [List.forall_mem_cons, List.not_mem_nil, false_implies, implies_true, and_true]
  exact ⟨by norm_num, by norm_num, by norm_num, prime_228572385721⟩

theorem prime_21_digits_426632 : Nat.Prime 426632512014427833817 := by
  refine prime_of_lucasOk (a := 11) (fs := [2, 2, 2, 3, 13, 89, 659, 23314383343543]) (by decide +kernel) ?_
  simp only [List.forall_mem_cons, List.not_mem_nil, false_implies, implies_true, and_true]
  exact ⟨by norm_num, by norm_num, by norm_num, by norm_num, by norm_num, by norm_num, by norm_num, prime_14_digits_233143⟩

theorem prime_28_digits_149519 : Nat.Prime 1495199339761412565498084319 := by
  refine prime_of_lucasOk (a := 6) (fs := [2, 3, 3, 3, 64901, 426632512014427833817]) (by decide +kernel) ?_
  simp only [List.forall_mem_cons, List.not_mem_nil, false_implies, implies_true, and_true]
  exact ⟨by norm_num, by norm_num, by norm_num, by norm_num, by norm_num, prime_21_digits_426632⟩

theorem prime_29_digits_179423 : Nat.Prime 17942392077136950785977011829 := by
  refine prime_of_lucasOk (a := 6) (fs := [2, 2, 3, 1495199339761412565498084319]) (by decide +kernel) ?_
  simp only [List.forall_mem_cons, List.not_mem_nil, false_implies, implies_true, and_true]
  exact ⟨by norm_num, by norm_num, by norm_num, prime_28_digits_149519⟩

theorem prime_61_digits_105939 : Nat.Prime 1059392654943455286185473617842338478315215895509773412096307 := by
  refine prime_of_lucasOk (a := 2) (fs := [2, 251, 248431, 8463023, 55942463741690639, 17942392077136950785977011829]) (by decide +kernel) ?_
  simp only [List.forall_mem_cons, List.not_mem_nil, false_implies, implies_true, and_true]
  exact ⟨by norm_num, by norm_num, by norm_num, prime_8463023, prime_17_digits_559424, prime_29_digits_179423⟩

theorem prime_85_digits_305546 : Nat.Prime 3055465788140352002733946906144561090641249606160407884365391979704929268480326390471 := by
  refine prime_of_lucasOk (a := 12) (fs := [2, 3, 5, 151, 347, 1276987, 1436833069313, 1059392654943455286185473617842338478315215895509773412096307]) (by decide +kernel) ?_
  simp only [List.forall_mem_cons, List.not_mem_nil, false_implies, implies_true, and_true]
  exact ⟨by norm_num, by norm_num, by norm_num, by norm_num, by norm_num, prime_1276987, prime_13_digits_143683, prime_61_digits_105939⟩

theorem n384_prime : Nat.Prime Config.n := by
  refine prime_of_lucasOk (a := 2) (fs := [2, 3, 3, 7, 7, 13, 1124679999981664229965379347, 3055465788140352002733946906144561090641249606160407884365391979704929268480326390471]) (by decide +kernel) ?_
  simp only [List.forall_mem_cons, List.not_mem_nil, false_implies, implies_true, and_true]
  exact ⟨by norm_num, by norm_num, by norm_num, by norm_num, by norm_num, by norm_num, prime_28_digits_112467, prime_85_digits_305546⟩

end Sys2Proof.Machine
end

