-- ==== Sys2Proof/Laws/Curve.lean ====
section
/-! SUPPORT. The group law of 00_scope.md rule R10 is the group law of the curve y² = x³ - 3x + b over
ZMod p: the formulas keep points on the curve, and `ptAdd` is the addition of Mathlib's group of
nonsingular points. -/

namespace Sys2Proof.Machine

set_option Elab.async false

open WeierstrassCurve.Affine

/-- The curve y² = x³ - 3x + b over ZMod p (00_scope.md rule R5). -/
def curveW : WeierstrassCurve (ZMod Config.p) := ⟨0, 0, 0, -3, (Config.b : ZMod Config.p)⟩

theorem p_pos : 0 < Config.p := by decide

theorem p_lt : Config.p < 2 ^ 384 := by decide +kernel

theorem n_pos : 0 < Config.n := by decide

theorem n_lt : Config.n < 2 ^ 384 := by decide +kernel

theorem val_toNat_ofNat {v m : Nat} (hv : v < m) (hm : m < 2 ^ 384) : (BitVec.ofNat 384 v).toNat = v := by
  rw [BitVec.toNat_ofNat, Nat.mod_eq_of_lt (hv.trans hm)]

/-- Naturals below p are equal when they are equal in ZMod p. -/
theorem eq_of_zmod_eq {u v : Nat} (hu : u < Config.p) (hv : v < Config.p)
    (h : (u : ZMod Config.p) = (v : ZMod Config.p)) : u = v := by
  have h1 := (ZMod.natCast_eq_natCast_iff' u v _).mp h
  rwa [Nat.mod_eq_of_lt hu, Nat.mod_eq_of_lt hv] at h1

theorem curveRhs_zmod (x : Nat) :
    ((curveRhs x : Nat) : ZMod Config.p) = (x : ZMod Config.p) ^ 3 - 3 * x + (Config.b : ZMod Config.p) := by
  rw [curveRhs, imod_zmod _ p_pos]
  push_cast
  ring

/-- on_curve says that both coordinates are canonical and satisfy the curve equation in ZMod p. -/
theorem onCurve_iff_zmod (x y : Nat) : onCurve x y ↔ x < Config.p ∧ y < Config.p ∧
    (y : ZMod Config.p) ^ 2 = (x : ZMod Config.p) ^ 3 - 3 * x + (Config.b : ZMod Config.p) := by
  have hr : curveRhs x < Config.p := imod_lt _ p_pos
  rw [onCurve, ← curveRhs_zmod]
  refine and_congr_right fun _ => and_congr_right fun _ => ?_
  rw [← Nat.mod_eq_of_lt hr, ← ZMod.natCast_eq_natCast_iff', ZMod.natCast_mod]
  push_cast
  rw [sq]

theorem equation_iff_onCurve {x y : Nat} (hx : x < Config.p) (hy : y < Config.p) :
    curveW.toAffine.Equation (x : ZMod Config.p) (y : ZMod Config.p) ↔ onCurve x y := by
  rw [onCurve_iff_zmod, equation_iff]
  simp only [curveW, hx, hy, true_and]
  constructor <;> intro h <;> linear_combination h

/-- The discriminant is not zero, so every point of the curve is nonsingular. -/
theorem curve_nonsingular [Fact (Nat.Prime Config.p)] {x y : ZMod Config.p}
    (h : curveW.toAffine.Equation x y) : curveW.toAffine.Nonsingular x y := by
  have hdisc : curveW.Δ ≠ 0 := by
    intro h0
    have h1 : ((432 * Config.b * Config.b : Nat) : ZMod Config.p) = ((1728 : Nat) : ZMod Config.p) := by
      simp only [curveW, WeierstrassCurve.Δ, WeierstrassCurve.b₂, WeierstrassCurve.b₄, WeierstrassCurve.b₆,
        WeierstrassCurve.b₈] at h0
      push_cast
      linear_combination -h0
    have h2 := (ZMod.natCast_eq_natCast_iff' _ _ _).mp h1
    revert h2
    decide +kernel
  have : curveW.IsElliptic := ⟨isUnit_iff_ne_zero.mpr hdisc⟩
  exact equation_iff_nonsingular.mp h

/-- The point of Mathlib's group that a point register's value stands for. -/
noncomputable def toPoint [Fact (Nat.Prime Config.p)] : PointVal → curveW.toAffine.Point
  | .inf => .zero
  | .aff x y =>
    if h : onCurve x.toNat y.toNat then
      .some (x.toNat : ZMod Config.p) (y.toNat : ZMod Config.p)
        (curve_nonsingular ((equation_iff_onCurve h.1 h.2.1).mpr h))
    else .zero

/-- A valid affine value is a point of the curve. -/
theorem valid_aff {x y : Val} : (PointVal.aff x y).valid = true ↔ onCurve x.toNat y.toNat := by
  simp [PointVal.valid]

section
variable [Fact (Nat.Prime Config.p)]

theorem toPoint_aff {x y : Val} (h : onCurve x.toNat y.toNat) :
    toPoint (.aff x y) = .some (x.toNat : ZMod Config.p) (y.toNat : ZMod Config.p)
      (curve_nonsingular ((equation_iff_onCurve h.1 h.2.1).mpr h)) := by
  rw [toPoint, dif_pos h]

/-- Different values of point registers stand for different points. -/
theorem toPoint_injective {q r : PointVal} (hq : q.valid = true) (hr : r.valid = true)
    (h : toPoint q = toPoint r) : q = r := by
  match q, r with
  | .inf, .inf => rfl
  | .inf, .aff x y =>
    rw [toPoint_aff (valid_aff.mp hr)] at h
    simp [toPoint] at h
  | .aff x y, .inf =>
    rw [toPoint_aff (valid_aff.mp hq)] at h
    simp [toPoint] at h
  | .aff x1 y1, .aff x2 y2 =>
    have h1 := valid_aff.mp hq
    have h2 := valid_aff.mp hr
    rw [toPoint_aff h1, toPoint_aff h2] at h
    injection h with hx hy
    rw [BitVec.eq_of_toNat_eq (eq_of_zmod_eq h1.1 h2.1 hx), BitVec.eq_of_toNat_eq (eq_of_zmod_eq h1.2.1 h2.2.1 hy)]

/-- A pair of naturals below p on the curve, made into a register value, is valid and stands for that
point. -/
theorem affOf_spec {x y : Nat} {X Y : ZMod Config.p} (hx : x < Config.p) (hy : y < Config.p)
    (hX : (x : ZMod Config.p) = X) (hY : (y : ZMod Config.p) = Y) (h : curveW.toAffine.Nonsingular X Y) :
    (affOf x y).valid = true ∧ toPoint (affOf x y) = .some X Y h := by
  subst hX hY
  have hxv : (BitVec.ofNat 384 x).toNat = x := val_toNat_ofNat hx p_lt
  have hyv : (BitVec.ofNat 384 y).toNat = y := val_toNat_ofNat hy p_lt
  have hon : onCurve (BitVec.ofNat 384 x).toNat (BitVec.ofNat 384 y).toNat := by
    rw [hxv, hyv]
    exact (equation_iff_onCurve hx hy).mp h.1
  refine ⟨valid_aff.mpr hon, ?_⟩
  rw [affOf, toPoint_aff hon]
  simp only [hxv, hyv]

theorem negY_curveW (x y : ZMod Config.p) : curveW.toAffine.negY x y = -y := by
  simp [curveW, negY]

/-- The point the chord-and-tangent formulas give is the sum, when the slope is the slope of the line. -/
theorem chordPoint_spec {x1 y1 x2 y2 lam : Nat}
    (h1 : curveW.toAffine.Nonsingular (x1 : ZMod Config.p) (y1 : ZMod Config.p))
    (h2 : curveW.toAffine.Nonsingular (x2 : ZMod Config.p) (y2 : ZMod Config.p))
    (hxy : ¬((x1 : ZMod Config.p) = x2 ∧ (y1 : ZMod Config.p) = curveW.toAffine.negY (x2 : ZMod Config.p) y2))
    (hlam : (lam : ZMod Config.p) = curveW.toAffine.slope (x1 : ZMod Config.p) x2 y1 y2) :
    (chordPoint lam x1 y1 x2).valid = true ∧
      toPoint (chordPoint lam x1 y1 x2) = Point.some _ _ h1 + Point.some _ _ h2 := by
  have hX : ((imod ((lam : Int) * lam - x1 - x2) Config.p : Nat) : ZMod Config.p) =
      curveW.toAffine.addX (x1 : ZMod Config.p) x2 (curveW.toAffine.slope (x1 : ZMod Config.p) x2 y1 y2) := by
    rw [imod_zmod _ p_pos, ← hlam]
    push_cast
    simp only [addX, curveW]
    ring
  rw [chordPoint, Point.add_some hxy]
  refine affOf_spec (imod_lt _ p_pos) (imod_lt _ p_pos) hX ?_ _
  rw [imod_zmod _ p_pos]
  push_cast
  rw [hX, ← hlam, addY, negY_curveW, negAddY]
  ring

theorem two_ne_zero_zmod : (2 : ZMod Config.p) ≠ 0 := by
  intro h
  have h1 : ((2 : Nat) : ZMod Config.p) = ((0 : Nat) : ZMod Config.p) := by simpa using h
  have h2 := (ZMod.natCast_eq_natCast_iff' _ _ _).mp h1
  revert h2
  decide +kernel

theorem natCast_ne_zero_of_lt {v : Nat} (hv : v < Config.p) (h0 : v ≠ 0) : (v : ZMod Config.p) ≠ 0 :=
  fun h => h0 (eq_of_zmod_eq hv p_pos (by simpa using h))

/-- `invMod` divides in ZMod p. -/
theorem invMod_zmod_eq {a : Nat} (ha : (a : ZMod Config.p) ≠ 0) :
    ((invMod Config.p a : Nat) : ZMod Config.p) = (a : ZMod Config.p)⁻¹ := by
  have hmod : a % Config.p ≠ 0 := by
    intro h
    exact ha ((ZMod.natCast_eq_zero_iff _ _).mpr (Nat.dvd_of_mod_eq_zero h))
  exact eq_inv_of_mul_eq_one_left (invMod_zmod Fact.out hmod)

/-- pt_dbl keeps the curve and doubles. -/
theorem ptDbl_spec {q : PointVal} (hq : q.valid = true) :
    (ptDbl q).valid = true ∧ toPoint (ptDbl q) = toPoint q + toPoint q := by
  match q with
  | .inf => exact ⟨rfl, (add_zero (0 : curveW.toAffine.Point)).symm⟩
  | .aff x y =>
    have hon := valid_aff.mp hq
    rw [toPoint_aff hon, ptDbl]
    split
    · next hy =>
      refine ⟨rfl, ?_⟩
      have hneg : (y.toNat : ZMod Config.p) = curveW.toAffine.negY (x.toNat : ZMod Config.p) y.toNat := by
        rw [negY_curveW, hy, Nat.cast_zero, neg_zero]
      rw [Point.add_self_of_Y_eq hneg]
      rfl
    · next hy =>
      have hyne := natCast_ne_zero_of_lt hon.2.1 hy
      have hden : (y.toNat : ZMod Config.p) - curveW.toAffine.negY (x.toNat : ZMod Config.p) y.toNat ≠ 0 := by
        rw [negY_curveW, sub_neg_eq_add, ← two_mul]
        exact mul_ne_zero two_ne_zero_zmod hyne
      refine chordPoint_spec _ _ (fun h => hden (sub_eq_zero.mpr h.2)) ?_
      rw [slope_of_Y_ne rfl (fun h => hden (sub_eq_zero.mpr h)), tangentSlope, imod_zmod _ p_pos]
      have h2y : ((2 * y.toNat % Config.p : Nat) : ZMod Config.p) = 2 * (y.toNat : ZMod Config.p) := by
        rw [ZMod.natCast_mod]
        push_cast
        rfl
      push_cast
      rw [invMod_zmod_eq (by rw [h2y]; exact mul_ne_zero two_ne_zero_zmod hyne), h2y, negY_curveW,
        div_eq_mul_inv]
      simp only [curveW]
      ring

/-- pt_add keeps the curve and adds (00_scope.md rule R10; 44_point.md rule R177). -/
theorem ptAdd_spec {q r : PointVal} (hq : q.valid = true) (hr : r.valid = true) :
    (ptAdd q r).valid = true ∧ toPoint (ptAdd q r) = toPoint q + toPoint r := by
  match q, r with
  | .inf, r =>
    rw [ptAdd]
    exact ⟨hr, (zero_add _).symm⟩
  | .aff x y, .inf =>
    rw [ptAdd]
    exact ⟨hq, (add_zero _).symm⟩
  | .aff x1 y1, .aff x2 y2 =>
    have h1 := valid_aff.mp hq
    have h2 := valid_aff.mp hr
    rw [ptAdd]
    split
    · next h =>
      rw [← h.1, ← h.2]
      exact ptDbl_spec hq
    · next hne =>
      split
      · next hx =>
        subst hx
        refine ⟨rfl, ?_⟩
        rw [toPoint_aff h1, toPoint_aff h2]
        have hy : (y1.toNat : ZMod Config.p) = curveW.toAffine.negY (x1.toNat : ZMod Config.p) y2.toNat := by
          rcases Y_eq_of_X_eq ((equation_iff_onCurve h1.1 h1.2.1).mpr h1)
            ((equation_iff_onCurve h2.1 h2.2.1).mpr h2) rfl with hy | hy
          · exact absurd ⟨rfl, BitVec.eq_of_toNat_eq (eq_of_zmod_eq h1.2.1 h2.2.1 hy)⟩ hne
          · exact hy
        rw [Point.add_of_Y_eq rfl hy]
        rfl
      · next hx =>
        have hxz : (x1.toNat : ZMod Config.p) ≠ x2.toNat :=
          fun h => hx (BitVec.eq_of_toNat_eq (eq_of_zmod_eq h1.1 h2.1 h))
        rw [toPoint_aff h1, toPoint_aff h2]
        refine chordPoint_spec _ _ (fun h => hxz h.1) ?_
        rw [slope_of_X_ne hxz, chordSlope, imod_zmod _ p_pos]
        have hd : ((imod ((x2.toNat : Int) - x1.toNat) Config.p : Nat) : ZMod Config.p) =
            (x2.toNat : ZMod Config.p) - x1.toNat := by
          rw [imod_zmod _ p_pos]
          push_cast
          rfl
        have hdne : (x2.toNat : ZMod Config.p) - x1.toNat ≠ 0 := sub_ne_zero.mpr (Ne.symm hxz)
        push_cast
        rw [invMod_zmod_eq (by rw [hd]; exact hdne), hd, div_eq_mul_inv,
          ← neg_sub (x2.toNat : ZMod Config.p), ← neg_sub (y2.toNat : ZMod Config.p), inv_neg]
        ring

end

/-- pt_dbl maps curve points to curve points (10_state.md rule R24). -/
theorem ptDbl_valid {q : PointVal} (hq : q.valid = true) : (ptDbl q).valid = true :=
  have := Fact.mk p384_prime
  (ptDbl_spec hq).1

/-- pt_add maps curve points to curve points (10_state.md rule R24). -/
theorem ptAdd_valid {q r : PointVal} (hq : q.valid = true) (hr : r.valid = true) :
    (ptAdd q r).valid = true :=
  have := Fact.mk p384_prime
  (ptAdd_spec hq hr).1

end Sys2Proof.Machine
end

