-- ==== Sys2Proof/Laws/Decode.lean ====
section
/-! SUPPORT. Laws of the decoder and the encoder (30_encoding.md): the rows of the opcode map are disjoint,
and the fields of a word built in a format are the fields it was built from. -/

namespace Sys2Proof

set_option Elab.async false

/-- Opcodes of different rows differ (30_encoding.md rule R100: at most one row can match). -/
theorem opcodeMap_pairwise :
    opcodeMap.Pairwise (fun r q => fieldOp r.pattern ≠ fieldOp q.pattern) := by
  decide +kernel

/-- Every mask covers the whole opcode (30_encoding.md rule R98). -/
theorem opcodeMap_masks : ∀ r ∈ opcodeMap, fieldOp r.mask = 0xFF#8 := by
  decide +kernel

theorem Row.selects_iff (r : Row) (w : Word) : r.selects w = true ↔ w &&& r.mask = r.pattern := by
  simp [Row.selects]

theorem fieldOp_and (u v : Word) : fieldOp (u &&& v) = fieldOp u &&& fieldOp v := by
  ext i hi
  simp [fieldOp]

/-- A row that a word selects has the word's opcode. -/
theorem Row.fieldOp_of_selects {r : Row} {w : Word} (hr : r ∈ opcodeMap) (h : r.selects w = true) :
    fieldOp r.pattern = fieldOp w := by
  rw [← (Row.selects_iff r w).mp h, fieldOp_and, opcodeMap_masks r hr]
  have h255 : (0xFF#8 : BitVec 8) = BitVec.allOnes 8 := by decide
  rw [h255, BitVec.and_allOnes]

/-- In a list whose members have pairwise different keys, the first member that satisfies a test is any
member that satisfies it, if the test determines the key. -/
theorem find?_eq_of_mem {α β : Type} {key : α → β} {test : α → Bool} {l : List α}
    (hpair : l.Pairwise (fun r q => key r ≠ key q)) {c : β} (hkey : ∀ r ∈ l, test r = true → key r = c)
    {r : α} (hr : r ∈ l) (ht : test r = true) : l.find? test = some r := by
  induction l with
  | nil => cases hr
  | cons q rest ih =>
    rw [List.pairwise_cons] at hpair
    rcases List.mem_cons.mp hr with hq | hq
    · subst hq
      rw [List.find?_cons_of_pos ht]
    · have hqt : ¬test q = true := by
        intro h
        exact hpair.1 r hq ((hkey q (List.mem_cons_self ..) h).trans (hkey r hr ht).symm)
      rw [List.find?_cons_of_neg hqt]
      exact ih hpair.2 (fun r h => hkey r (List.mem_cons_of_mem _ h)) hq

/-- The decoder reads a word by any row the word selects. -/
theorem decode_of_selects {r : Row} {w : Word} (hr : r ∈ opcodeMap) (h : r.selects w = true) :
    decode w = .ok (r.build w) := by
  have hf : opcodeMap.find? (fun r => r.selects w) = some r :=
    find?_eq_of_mem (key := fun r : Row => fieldOp r.pattern) opcodeMap_pairwise
      (fun q hq hqs => Row.fieldOp_of_selects hq hqs) hr h
  rw [decode, hf]

/-- A word the decoder accepts selects a row, and the row builds the instruction. -/
theorem selects_of_decode {w : Word} {i : Instr} (h : decode w = .ok i) :
    ∃ r ∈ opcodeMap, r.selects w = true ∧ r.build w = i := by
  unfold decode at h
  split at h
  · cases h
  · next r hf =>
    refine ⟨r, List.mem_of_find?_eq_some hf, ?_, ?_⟩
    · simpa using List.find?_some hf
    · simpa using h

/-- The decoder refuses a word exactly when the word selects no row (30_encoding.md rule R102). -/
theorem decode_error_iff (w : Word) :
    (∃ e, decode w = .error e) ↔ ∀ r ∈ opcodeMap, w &&& r.mask ≠ r.pattern := by
  constructor
  · rintro ⟨e, he⟩ r hr hs
    rw [decode_of_selects hr ((Row.selects_iff r w).mpr hs)] at he
    cases he
  · intro h
    unfold decode
    split
    · exact ⟨_, rfl⟩
    · next r hf =>
      exact absurd ((Row.selects_iff r w).mp (by simpa using List.find?_some hf))
        (h r (List.mem_of_find?_eq_some hf))

theorem xRegOf_regField (d : XReg) : xRegOf (regField d) = d := by
  revert d
  decide

theorem pRegOf_regField (d : PReg) : pRegOf (regField d) = d := by
  revert d
  decide

theorem byteField_toNat {v : Nat} (hv : v < 256) : (byteField v).toNat = v := by
  rw [byteField, BitVec.toNat_ofNat, Nat.mod_eq_of_lt hv]

theorem fieldA_formatI (op : BitVec 8) (a : BitVec 4) (imm : BitVec 8) : fieldA (formatI op a imm) = a := by
  ext i hi
  interval_cases i <;> simp [fieldA, formatI, place]

theorem fieldAddr_formatI (op : BitVec 8) (a : BitVec 4) (imm : BitVec 8) :
    fieldAddr (formatI op a imm) = imm.toNat := by
  rw [fieldAddr]
  congr 1
  ext i hi
  interval_cases i <;> simp [formatI, place]

theorem fieldA_formatD (op : BitVec 8) (a : BitVec 4) (len addr : BitVec 8) :
    fieldA (formatD op a len addr) = a := by
  ext i hi
  interval_cases i <;> simp [fieldA, formatD, place]

theorem fieldAddr_formatD (op : BitVec 8) (a : BitVec 4) (len addr : BitVec 8) :
    fieldAddr (formatD op a len addr) = addr.toNat := by
  rw [fieldAddr]
  congr 1
  ext i hi
  interval_cases i <;> simp [formatD, place]

theorem fieldLen_formatD (op : BitVec 8) (a : BitVec 4) (len addr : BitVec 8) :
    fieldLen (formatD op a len addr) = len.toNat := by
  rw [fieldLen]
  congr 1
  ext i hi
  interval_cases i <;> simp [formatD, place]

/-- The bits of a format I word under a mask that leaves the immediate out do not depend on it. -/
theorem formatI_and_mask (op : BitVec 8) (a : BitVec 4) (imm : BitVec 8) {mask : Word}
    (h : mask &&& 0xFF#32 = 0#32) : formatI op a imm &&& mask = formatI op a 0#8 &&& mask := by
  have hlow : (place 0 imm : Word) &&& mask = 0#32 := by
    have himm : (place 0 imm : Word) = place 0 imm &&& 0xFF#32 := by
      ext i hi
      interval_cases i <;> simp [place]
    rw [himm, BitVec.and_assoc, BitVec.and_comm 0xFF#32, h, BitVec.and_zero]
  have hzero : (place 0 0#8 : Word) = 0#32 := by decide
  unfold formatI
  rw [BitVec.and_comm, BitVec.and_or_distrib_left, BitVec.and_comm mask (place 0 imm), hlow, hzero,
    BitVec.or_zero, BitVec.or_zero, BitVec.and_comm]

/-- The bits of a format D word under a mask that leaves the low half out do not depend on it. -/
theorem formatD_and_mask (op : BitVec 8) (a : BitVec 4) (len addr : BitVec 8) {mask : Word}
    (h : mask &&& 0xFFFF#32 = 0#32) : formatD op a len addr &&& mask = formatD op a 0#8 0#8 &&& mask := by
  have hlow : (place 8 len ||| place 0 addr : Word) &&& mask = 0#32 := by
    have himm : (place 8 len ||| place 0 addr : Word) = (place 8 len ||| place 0 addr) &&& 0xFFFF#32 := by
      ext i hi
      interval_cases i <;> simp [place]
    rw [himm, BitVec.and_assoc, BitVec.and_comm 0xFFFF#32, h, BitVec.and_zero]
  have hzero : (place 8 0#8 ||| place 0 0#8 : Word) = 0#32 := by decide
  unfold formatD
  rw [BitVec.or_assoc _ (place 8 len), BitVec.or_assoc _ (place 8 0#8), hzero, BitVec.or_zero, BitVec.and_comm,
    BitVec.and_or_distrib_left, BitVec.and_comm mask (place 8 len ||| place 0 addr), hlow, BitVec.or_zero,
    BitVec.and_comm]

/-- A mask acts on a field in its place as the bits of the mask at that place. -/
theorem place_and {k : Nat} (lo : Nat) (f : BitVec k) (m : Word) :
    place lo f &&& m = place lo (f &&& m.extractLsb' lo k) := by
  ext i hi
  by_cases hlo : i < lo
  · simp [place, hlo]
  · have hadd : lo + (i - lo) = i := by omega
    by_cases hk : i - lo < k
    · simp [place, hlo, hk, hadd, BitVec.getLsbD_eq_getElem hi]
    · simp [place, hlo, hk, BitVec.getLsbD_of_ge f (i - lo) (by omega)]

theorem place24_and (f : BitVec 8) (m : Word) : place 24 f &&& m = place 24 (f &&& fieldOp m) :=
  place_and 24 f m

theorem place20_and (f : BitVec 4) (m : Word) : place 20 f &&& m = place 20 (f &&& fieldA m) :=
  place_and 20 f m

theorem place16_and (f : BitVec 4) (m : Word) : place 16 f &&& m = place 16 (f &&& fieldB m) :=
  place_and 16 f m

theorem place12_and (f : BitVec 4) (m : Word) : place 12 f &&& m = place 12 (f &&& fieldC m) :=
  place_and 12 f m

theorem or_and_distrib (u v m : Word) : (u ||| v) &&& m = u &&& m ||| v &&& m := by
  rw [BitVec.and_comm, BitVec.and_or_distrib_left, BitVec.and_comm m u, BitVec.and_comm m v]

/-- A mask acts on the fields of a format R3 word one by one. -/
theorem formatR3_and (op : BitVec 8) (a b c : BitVec 4) (m : Word) :
    formatR3 op a b c &&& m =
      formatR3 (op &&& fieldOp m) (a &&& fieldA m) (b &&& fieldB m) (c &&& fieldC m) := by
  simp only [formatR3, or_and_distrib, place24_and, place20_and, place16_and, place12_and]

theorem formatR2_eq (op : BitVec 8) (a b : BitVec 4) : formatR2 op a b = formatR3 op a b 0#4 := by
  simp [formatR2, formatR3, place]

theorem formatR1_eq (op : BitVec 8) (a : BitVec 4) : formatR1 op a = formatR3 op a 0#4 0#4 := by
  simp [formatR1, formatR3, place]

theorem fieldA_formatR3 (op : BitVec 8) (a b c : BitVec 4) : fieldA (formatR3 op a b c) = a := by
  ext i hi
  interval_cases i <;> simp [fieldA, formatR3, place]

theorem fieldB_formatR3 (op : BitVec 8) (a b c : BitVec 4) : fieldB (formatR3 op a b c) = b := by
  ext i hi
  interval_cases i <;> simp [fieldB, formatR3, place]

theorem fieldC_formatR3 (op : BitVec 8) (a b c : BitVec 4) : fieldC (formatR3 op a b c) = c := by
  ext i hi
  interval_cases i <;> simp [fieldC, formatR3, place]

end Sys2Proof
end

