-- ==== Sys2Proof/Laws/Memory.lean ====
section
/-! SUPPORT. Laws of BUF: reading after writing, the canonical form, and the primitives MemRead and MemWrite
(20_memory.md rule R62). -/

namespace Sys2Proof.Machine

theorem Memory.readByte_consCell_same (a : Nat) (v : Byte) (rest : List Host.Cell)
    (h : Memory.readByte rest a = Memory.unlisted) : Memory.readByte (Memory.consCell a v rest) a = v := by
  unfold Memory.consCell
  split
  · next hv => rw [h, hv]
  · simp [Memory.readByte]

theorem Memory.readByte_consCell_other {a b : Nat} (v : Byte) (rest : List Host.Cell) (h : b ≠ a) :
    Memory.readByte (Memory.consCell a v rest) b = Memory.readByte rest b := by
  unfold Memory.consCell
  split
  · rfl
  · simp [Memory.readByte, Ne.symm h]

/-- An address below every listed one reads as unlisted. -/
theorem Memory.readByte_below {lo a : Nat} {m : List Host.Cell} (hm : Memory.wfFrom lo m = true) (ha : a < lo) :
    Memory.readByte m a = Memory.unlisted := by
  induction m generalizing lo with
  | nil => rfl
  | cons c rest ih =>
    obtain ⟨k, v⟩ := c
    simp only [Memory.wfFrom, Bool.and_eq_true, decide_eq_true_eq] at hm
    have hk : k ≠ a := by omega
    rw [Memory.readByte, if_neg hk]
    exact ih hm.2 (by omega)

/-- A canonical list from `lo` on is one from any lower bound on. -/
theorem Memory.wfFrom_mono {lo lo' : Nat} {m : List Host.Cell} (hm : Memory.wfFrom lo m = true)
    (h : lo' ≤ lo) : Memory.wfFrom lo' m = true := by
  cases m with
  | nil => rfl
  | cons c rest =>
    obtain ⟨k, v⟩ := c
    simp only [Memory.wfFrom, Bool.and_eq_true, decide_eq_true_eq] at hm ⊢
    exact ⟨⟨⟨by omega, hm.1.1.2⟩, hm.1.2⟩, hm.2⟩

theorem Memory.wfFrom_consCell {lo a : Nat} {v : Byte} {rest : List Host.Cell} (hlo : lo ≤ a)
    (ha : a < Config.bufSize) (hrest : Memory.wfFrom (a + 1) rest = true) :
    Memory.wfFrom lo (Memory.consCell a v rest) = true := by
  unfold Memory.consCell
  split
  · exact Memory.wfFrom_mono hrest (by omega)
  · next hv =>
    simp only [Memory.wfFrom, Bool.and_eq_true, decide_eq_true_eq]
    exact ⟨⟨⟨hlo, ha⟩, hv⟩, hrest⟩

/-- A write at an address of BUF keeps the canonical form. -/
theorem Memory.wfFrom_writeByte {lo a : Nat} {v : Byte} {m : List Host.Cell} (hm : Memory.wfFrom lo m = true)
    (hlo : lo ≤ a) (ha : a < Config.bufSize) : Memory.wfFrom lo (Memory.writeByte m a v) = true := by
  induction m generalizing lo with
  | nil => exact Memory.wfFrom_consCell hlo ha rfl
  | cons c rest ih =>
    obtain ⟨k, u⟩ := c
    have hm' := hm
    simp only [Memory.wfFrom, Bool.and_eq_true, decide_eq_true_eq] at hm'
    rw [Memory.writeByte]
    split
    · next hak =>
      refine Memory.wfFrom_consCell hlo ha ?_
      simp only [Memory.wfFrom, Bool.and_eq_true, decide_eq_true_eq]
      exact ⟨⟨⟨by omega, hm'.1.1.2⟩, hm'.1.2⟩, hm'.2⟩
    · split
      · next heq => exact Memory.wfFrom_consCell hlo ha (heq ▸ hm'.2)
      · next hak hne =>
        simp only [Memory.wfFrom, Bool.and_eq_true, decide_eq_true_eq]
        exact ⟨⟨⟨hm'.1.1.1, hm'.1.1.2⟩, hm'.1.2⟩, ih hm'.2 (by omega)⟩

/-- A write at an address of BUF keeps the canonical form. -/
theorem Memory.wf_writeByte {m : List Host.Cell} {a : Nat} {v : Byte} (hm : Memory.wf m = true)
    (ha : a < Config.bufSize) : Memory.wf (Memory.writeByte m a v) = true :=
  Memory.wfFrom_writeByte hm (Nat.zero_le _) ha

/-- MemWrite of n bytes that fit keeps the canonical form. -/
theorem Memory.wf_write {m : List Host.Cell} {addr n v : Nat} (hm : Memory.wf m = true)
    (h : addr + n ≤ Config.bufSize) : Memory.wf (Memory.write m addr n v) = true := by
  induction n generalizing v with
  | zero => exact hm
  | succ n ih => exact Memory.wf_writeByte (ih (by omega)) (by omega)

/-- The empty list, BUF at reset, is canonical. -/
theorem Memory.wf_nil : Memory.wf [] = true := rfl

/-- Reading the byte just written, in a canonical list. -/
theorem Memory.readByte_writeByte_sameFrom {lo a : Nat} {v : Byte} {m : List Host.Cell}
    (hm : Memory.wfFrom lo m = true) : Memory.readByte (Memory.writeByte m a v) a = v := by
  induction m generalizing lo with
  | nil => exact Memory.readByte_consCell_same a v [] rfl
  | cons c rest ih =>
    obtain ⟨k, u⟩ := c
    have hm' := hm
    simp only [Memory.wfFrom, Bool.and_eq_true, decide_eq_true_eq] at hm'
    rw [Memory.writeByte]
    split
    · next hak =>
      refine Memory.readByte_consCell_same a v _ ?_
      rw [Memory.readByte, if_neg (by omega)]
      exact Memory.readByte_below hm'.2 (by omega)
    · split
      · next heq =>
        refine Memory.readByte_consCell_same a v _ ?_
        exact Memory.readByte_below (heq ▸ hm'.2 : Memory.wfFrom (a + 1) rest = true) (by omega)
      · next hak hne =>
        rw [Memory.readByte, if_neg (Ne.symm hne)]
        exact ih hm'.2

/-- Reading the byte just written. -/
theorem Memory.readByte_writeByte_same {m : List Host.Cell} (a : Nat) (v : Byte) (hm : Memory.wf m = true) :
    Memory.readByte (Memory.writeByte m a v) a = v :=
  Memory.readByte_writeByte_sameFrom hm

/-- A write leaves every other byte alone, whatever the list. -/
theorem Memory.readByte_writeByte_other {m : List Host.Cell} {a b : Nat} (v : Byte) (h : b ≠ a) :
    Memory.readByte (Memory.writeByte m a v) b = Memory.readByte m b := by
  induction m with
  | nil => exact Memory.readByte_consCell_other v [] h
  | cons c rest ih =>
    obtain ⟨k, u⟩ := c
    rw [Memory.writeByte]
    split
    · exact Memory.readByte_consCell_other v _ h
    · split
      · next heq =>
        rw [Memory.readByte_consCell_other v _ h, Memory.readByte, if_neg (heq ▸ Ne.symm h)]
      · rw [Memory.readByte, Memory.readByte, ih]

/-- MemWrite leaves the bytes outside its range alone. -/
theorem Memory.readByte_write_outside {m : List Host.Cell} {addr n v a : Nat} (h : a < addr ∨ addr + n ≤ a) :
    Memory.readByte (Memory.write m addr n v) a = Memory.readByte m a := by
  induction n generalizing v with
  | zero => rfl
  | succ n ih =>
    rw [Memory.write, Memory.readByte_writeByte_other _ (by omega)]
    exact ih (by omega)

/-- MemWrite puts byte i of the big-endian number at addr + i (20_memory.md rule R62). -/
theorem Memory.readByte_write_inside {m : List Host.Cell} {addr n v i : Nat} (hm : Memory.wf m = true)
    (hfit : addr + n ≤ Config.bufSize) (hi : i < n) :
    Memory.readByte (Memory.write m addr n v) (addr + i) = BitVec.ofNat 8 (v / 256 ^ (n - 1 - i) % 256) := by
  induction n generalizing v with
  | zero => omega
  | succ n ih =>
    rw [Memory.write]
    by_cases hin : i = n
    · subst hin
      rw [Memory.readByte_writeByte_same _ _ (Memory.wf_write hm (by omega))]
      simp
    · rw [Memory.readByte_writeByte_other _ (by omega), ih (by omega) (by omega)]
      have hexp : n + 1 - 1 - i = (n - 1 - i) + 1 := by omega
      rw [hexp, pow_succ, Nat.mul_comm, Nat.div_div_eq_div_mul]

/-- MemRead depends only on the bytes it reads. -/
theorem Memory.read_congr {m m' : List Host.Cell} {addr n : Nat}
    (h : ∀ i, i < n → Memory.readByte m (addr + i) = Memory.readByte m' (addr + i)) :
    Memory.read m addr n = Memory.read m' addr n := by
  induction n with
  | zero => rfl
  | succ n ih =>
    rw [Memory.read, Memory.read, ih (fun i hi => h i (by omega)), h n (by omega)]

/-- MemRead is the sum of 20_memory.md rule R62. -/
theorem Memory.read_eq_sum (m : List Host.Cell) (addr n : Nat) :
    Memory.read m addr n =
      ∑ i ∈ Finset.range n, (Memory.readByte m (addr + i)).toNat * 256 ^ (n - 1 - i) := by
  induction n with
  | zero => rfl
  | succ n ih =>
    rw [Memory.read, ih, Finset.sum_range_succ, Finset.sum_mul]
    congr 1
    · refine Finset.sum_congr rfl fun i hi => ?_
      have hi' : i < n := Finset.mem_range.mp hi
      have hexp : n + 1 - 1 - i = (n - 1 - i) + 1 := by omega
      rw [hexp, pow_succ, mul_assoc]
    · simp

/-- MemRead of n bytes is below 256^n. -/
theorem Memory.read_lt (m : List Host.Cell) (addr n : Nat) : Memory.read m addr n < 256 ^ n := by
  induction n with
  | zero => simp [Memory.read]
  | succ n ih =>
    have hb := (Memory.readByte m (addr + n)).isLt
    rw [Memory.read, pow_succ]
    omega

/-- MemRead after MemWrite returns the value (20_memory.md rule R62). -/
theorem Memory.read_write {m : List Host.Cell} {addr n v : Nat} (hm : Memory.wf m = true)
    (hfit : addr + n ≤ Config.bufSize) (hv : v < 256 ^ n) :
    Memory.read (Memory.write m addr n v) addr n = v := by
  induction n generalizing v with
  | zero => simp at hv; simp [Memory.read, hv]
  | succ n ih =>
    have hdiv : v / 256 < 256 ^ n := by rw [pow_succ] at hv; omega
    have hsame : Memory.read (Memory.write m addr (n + 1) v) addr n =
        Memory.read (Memory.write m addr n (v / 256)) addr n :=
      Memory.read_congr fun i hi => Memory.readByte_writeByte_other _ (by omega)
    rw [Memory.read, hsame, ih (by omega) hdiv, Memory.write,
      Memory.readByte_writeByte_same _ _ (Memory.wf_write hm (by omega))]
    rw [BitVec.toNat_ofNat]
    omega

/-- A byte of the value MemRead gives is the byte read (20_memory.md rule R62). -/
theorem Memory.read_byte (m : List Host.Cell) (addr : Nat) {n j : Nat} (hj : j < n) :
    Memory.read m addr n / 256 ^ (n - 1 - j) % 256 = (Memory.readByte m (addr + j)).toNat := by
  induction n with
  | zero => omega
  | succ n ih =>
    have hb := (Memory.readByte m (addr + n)).isLt
    rw [Memory.read]
    by_cases hjn : j = n
    · subst hjn
      rw [show j + 1 - 1 - j = 0 by omega, pow_zero, Nat.div_one]
      omega
    · rw [show n + 1 - 1 - j = (n - 1 - j) + 1 by omega, pow_succ', ← Nat.div_div_eq_div_mul,
        show (Memory.read m addr n * 256 + (Memory.readByte m (addr + n)).toNat) / 256 = Memory.read m addr n by
          omega]
      exact ih (by omega)

/-- Canonical lists that read alike at every address are equal. -/
theorem Memory.ext_from {lo : Nat} {m m' : List Host.Cell} (hm : Memory.wfFrom lo m = true)
    (hm' : Memory.wfFrom lo m' = true) (h : ∀ a, Memory.readByte m a = Memory.readByte m' a) : m = m' := by
  induction m generalizing lo m' with
  | nil =>
    cases m' with
    | nil => rfl
    | cons c' rest' =>
      obtain ⟨k', v'⟩ := c'
      simp only [Memory.wfFrom, Bool.and_eq_true, decide_eq_true_eq] at hm'
      have hk := h k'
      rw [Memory.readByte, Memory.readByte, if_pos rfl] at hk
      exact absurd hk.symm hm'.1.2
  | cons c rest ih =>
    obtain ⟨k, v⟩ := c
    have hmc := hm
    simp only [Memory.wfFrom, Bool.and_eq_true, decide_eq_true_eq] at hmc
    cases m' with
    | nil =>
      have hk := h k
      rw [Memory.readByte, Memory.readByte, if_pos rfl] at hk
      exact absurd hk hmc.1.2
    | cons c' rest' =>
      obtain ⟨k', v'⟩ := c'
      have hmc' := hm'
      simp only [Memory.wfFrom, Bool.and_eq_true, decide_eq_true_eq] at hmc'
      have hkk : k = k' := by
        rcases Nat.lt_trichotomy k k' with hlt | heq | hgt
        · have hk := h k
          rw [Memory.readByte, if_pos rfl, Memory.readByte, if_neg (by omega),
            Memory.readByte_below hmc'.2 (by omega)] at hk
          exact absurd hk hmc.1.2
        · exact heq
        · have hk := h k'
          rw [Memory.readByte, if_neg (by omega), Memory.readByte_below hmc.2 (by omega),
            Memory.readByte, if_pos rfl] at hk
          exact absurd hk.symm hmc'.1.2
      subst hkk
      have hvv : v = v' := by
        have hk := h k
        rwa [Memory.readByte, if_pos rfl, Memory.readByte, if_pos rfl] at hk
      subst hvv
      rw [ih hmc.2 hmc'.2]
      intro a
      by_cases hak : k = a
      · subst hak
        rw [Memory.readByte_below hmc.2 (by omega), Memory.readByte_below hmc'.2 (by omega)]
      · have ha := h a
        rwa [Memory.readByte, if_neg hak, Memory.readByte, if_neg hak] at ha

/-- Canonical memories that read alike are equal data. -/
theorem Memory.ext {m m' : List Host.Cell} (hm : Memory.wf m = true) (hm' : Memory.wf m' = true)
    (h : ∀ a, Memory.readByte m a = Memory.readByte m' a) : m = m' :=
  Memory.ext_from hm hm' h

end Sys2Proof.Machine
end

