-- ==== Sys2Proof/Laws/State.lean ====
section
/-! SUPPORT. One lemma per field per update of the state, so that no later proof unfolds a record update,
and what the reads of Ops.lean give after each update. -/

namespace Sys2Proof.Machine

/-! `State.setX` -/

@[simp] theorem State.setX_x (s : State) (d : XReg) (v : Val) :
    (s.setX d v).x = s.x.set d v := rfl

@[simp] theorem State.setX_points (s : State) (d : XReg) (v : Val) :
    (s.setX d v).points = s.points := rfl

@[simp] theorem State.setX_buf (s : State) (d : XReg) (v : Val) :
    (s.setX d v).buf = s.buf := rfl

@[simp] theorem State.setX_flagEq (s : State) (d : XReg) (v : Val) :
    (s.setX d v).flagEq = s.flagEq := rfl

@[simp] theorem State.setX_flagLt (s : State) (d : XReg) (v : Val) :
    (s.setX d v).flagLt = s.flagLt := rfl

@[simp] theorem State.setX_flagZ (s : State) (d : XReg) (v : Val) :
    (s.setX d v).flagZ = s.flagZ := rfl

@[simp] theorem State.setX_flagInf (s : State) (d : XReg) (v : Val) :
    (s.setX d v).flagInf = s.flagInf := rfl

@[simp] theorem State.setX_busy (s : State) (d : XReg) (v : Val) :
    (s.setX d v).busy = s.busy := rfl

@[simp] theorem State.setX_err (s : State) (d : XReg) (v : Val) :
    (s.setX d v).err = s.err := rfl

@[simp] theorem State.setX_ovr (s : State) (d : XReg) (v : Val) :
    (s.setX d v).ovr = s.ovr := rfl

@[simp] theorem State.setX_errCode (s : State) (d : XReg) (v : Val) :
    (s.setX d v).errCode = s.errCode := rfl

@[simp] theorem State.setX_errCmd (s : State) (d : XReg) (v : Val) :
    (s.setX d v).errCmd = s.errCmd := rfl

@[simp] theorem State.setX_cmdLatch (s : State) (d : XReg) (v : Val) :
    (s.setX d v).cmdLatch = s.cmdLatch := rfl

@[simp] theorem State.setX_port (s : State) (d : XReg) (v : Val) :
    (s.setX d v).port = s.port := rfl

/-! `State.setPoint` -/

@[simp] theorem State.setPoint_x (s : State) (d : PReg) (q : PointVal) :
    (s.setPoint d q).x = s.x := rfl

@[simp] theorem State.setPoint_points (s : State) (d : PReg) (q : PointVal) :
    (s.setPoint d q).points = s.points.set d q := rfl

@[simp] theorem State.setPoint_buf (s : State) (d : PReg) (q : PointVal) :
    (s.setPoint d q).buf = s.buf := rfl

@[simp] theorem State.setPoint_flagEq (s : State) (d : PReg) (q : PointVal) :
    (s.setPoint d q).flagEq = s.flagEq := rfl

@[simp] theorem State.setPoint_flagLt (s : State) (d : PReg) (q : PointVal) :
    (s.setPoint d q).flagLt = s.flagLt := rfl

@[simp] theorem State.setPoint_flagZ (s : State) (d : PReg) (q : PointVal) :
    (s.setPoint d q).flagZ = s.flagZ := rfl

@[simp] theorem State.setPoint_flagInf (s : State) (d : PReg) (q : PointVal) :
    (s.setPoint d q).flagInf = s.flagInf := rfl

@[simp] theorem State.setPoint_busy (s : State) (d : PReg) (q : PointVal) :
    (s.setPoint d q).busy = s.busy := rfl

@[simp] theorem State.setPoint_err (s : State) (d : PReg) (q : PointVal) :
    (s.setPoint d q).err = s.err := rfl

@[simp] theorem State.setPoint_ovr (s : State) (d : PReg) (q : PointVal) :
    (s.setPoint d q).ovr = s.ovr := rfl

@[simp] theorem State.setPoint_errCode (s : State) (d : PReg) (q : PointVal) :
    (s.setPoint d q).errCode = s.errCode := rfl

@[simp] theorem State.setPoint_errCmd (s : State) (d : PReg) (q : PointVal) :
    (s.setPoint d q).errCmd = s.errCmd := rfl

@[simp] theorem State.setPoint_cmdLatch (s : State) (d : PReg) (q : PointVal) :
    (s.setPoint d q).cmdLatch = s.cmdLatch := rfl

@[simp] theorem State.setPoint_port (s : State) (d : PReg) (q : PointVal) :
    (s.setPoint d q).port = s.port := rfl

/-! `State.setByte` -/

@[simp] theorem State.setByte_x (s : State) (a : Nat) (v : Byte) :
    (s.setByte a v).x = s.x := rfl

@[simp] theorem State.setByte_points (s : State) (a : Nat) (v : Byte) :
    (s.setByte a v).points = s.points := rfl

@[simp] theorem State.setByte_buf (s : State) (a : Nat) (v : Byte) :
    (s.setByte a v).buf = Memory.writeByte s.buf a v := rfl

@[simp] theorem State.setByte_flagEq (s : State) (a : Nat) (v : Byte) :
    (s.setByte a v).flagEq = s.flagEq := rfl

@[simp] theorem State.setByte_flagLt (s : State) (a : Nat) (v : Byte) :
    (s.setByte a v).flagLt = s.flagLt := rfl

@[simp] theorem State.setByte_flagZ (s : State) (a : Nat) (v : Byte) :
    (s.setByte a v).flagZ = s.flagZ := rfl

@[simp] theorem State.setByte_flagInf (s : State) (a : Nat) (v : Byte) :
    (s.setByte a v).flagInf = s.flagInf := rfl

@[simp] theorem State.setByte_busy (s : State) (a : Nat) (v : Byte) :
    (s.setByte a v).busy = s.busy := rfl

@[simp] theorem State.setByte_err (s : State) (a : Nat) (v : Byte) :
    (s.setByte a v).err = s.err := rfl

@[simp] theorem State.setByte_ovr (s : State) (a : Nat) (v : Byte) :
    (s.setByte a v).ovr = s.ovr := rfl

@[simp] theorem State.setByte_errCode (s : State) (a : Nat) (v : Byte) :
    (s.setByte a v).errCode = s.errCode := rfl

@[simp] theorem State.setByte_errCmd (s : State) (a : Nat) (v : Byte) :
    (s.setByte a v).errCmd = s.errCmd := rfl

@[simp] theorem State.setByte_cmdLatch (s : State) (a : Nat) (v : Byte) :
    (s.setByte a v).cmdLatch = s.cmdLatch := rfl

@[simp] theorem State.setByte_port (s : State) (a : Nat) (v : Byte) :
    (s.setByte a v).port = s.port := rfl

/-! `State.memWrite` -/

@[simp] theorem State.memWrite_x (s : State) (addr n v : Nat) :
    (s.memWrite addr n v).x = s.x := rfl

@[simp] theorem State.memWrite_points (s : State) (addr n v : Nat) :
    (s.memWrite addr n v).points = s.points := rfl

@[simp] theorem State.memWrite_buf (s : State) (addr n v : Nat) :
    (s.memWrite addr n v).buf = Memory.write s.buf addr n v := rfl

@[simp] theorem State.memWrite_flagEq (s : State) (addr n v : Nat) :
    (s.memWrite addr n v).flagEq = s.flagEq := rfl

@[simp] theorem State.memWrite_flagLt (s : State) (addr n v : Nat) :
    (s.memWrite addr n v).flagLt = s.flagLt := rfl

@[simp] theorem State.memWrite_flagZ (s : State) (addr n v : Nat) :
    (s.memWrite addr n v).flagZ = s.flagZ := rfl

@[simp] theorem State.memWrite_flagInf (s : State) (addr n v : Nat) :
    (s.memWrite addr n v).flagInf = s.flagInf := rfl

@[simp] theorem State.memWrite_busy (s : State) (addr n v : Nat) :
    (s.memWrite addr n v).busy = s.busy := rfl

@[simp] theorem State.memWrite_err (s : State) (addr n v : Nat) :
    (s.memWrite addr n v).err = s.err := rfl

@[simp] theorem State.memWrite_ovr (s : State) (addr n v : Nat) :
    (s.memWrite addr n v).ovr = s.ovr := rfl

@[simp] theorem State.memWrite_errCode (s : State) (addr n v : Nat) :
    (s.memWrite addr n v).errCode = s.errCode := rfl

@[simp] theorem State.memWrite_errCmd (s : State) (addr n v : Nat) :
    (s.memWrite addr n v).errCmd = s.errCmd := rfl

@[simp] theorem State.memWrite_cmdLatch (s : State) (addr n v : Nat) :
    (s.memWrite addr n v).cmdLatch = s.cmdLatch := rfl

@[simp] theorem State.memWrite_port (s : State) (addr n v : Nat) :
    (s.memWrite addr n v).port = s.port := rfl

/-! `State.raise` -/

@[simp] theorem State.raise_x (s : State) (c : ErrCode) :
    (s.raise c).x = s.x := rfl

@[simp] theorem State.raise_points (s : State) (c : ErrCode) :
    (s.raise c).points = s.points := rfl

@[simp] theorem State.raise_buf (s : State) (c : ErrCode) :
    (s.raise c).buf = s.buf := rfl

@[simp] theorem State.raise_flagEq (s : State) (c : ErrCode) :
    (s.raise c).flagEq = s.flagEq := rfl

@[simp] theorem State.raise_flagLt (s : State) (c : ErrCode) :
    (s.raise c).flagLt = s.flagLt := rfl

@[simp] theorem State.raise_flagZ (s : State) (c : ErrCode) :
    (s.raise c).flagZ = s.flagZ := rfl

@[simp] theorem State.raise_flagInf (s : State) (c : ErrCode) :
    (s.raise c).flagInf = s.flagInf := rfl

@[simp] theorem State.raise_busy (s : State) (c : ErrCode) :
    (s.raise c).busy = false := rfl

@[simp] theorem State.raise_err (s : State) (c : ErrCode) :
    (s.raise c).err = true := rfl

@[simp] theorem State.raise_ovr (s : State) (c : ErrCode) :
    (s.raise c).ovr = s.ovr := rfl

@[simp] theorem State.raise_errCode (s : State) (c : ErrCode) :
    (s.raise c).errCode = c.byte := rfl

@[simp] theorem State.raise_errCmd (s : State) (c : ErrCode) :
    (s.raise c).errCmd = s.cmdLatch := rfl

@[simp] theorem State.raise_cmdLatch (s : State) (c : ErrCode) :
    (s.raise c).cmdLatch = s.cmdLatch := rfl

@[simp] theorem State.raise_port (s : State) (c : ErrCode) :
    (s.raise c).port = s.port := rfl

/-! `State.clearError` -/

@[simp] theorem State.clearError_x (s : State) :
    (s.clearError).x = s.x := rfl

@[simp] theorem State.clearError_points (s : State) :
    (s.clearError).points = s.points := rfl

@[simp] theorem State.clearError_buf (s : State) :
    (s.clearError).buf = s.buf := rfl

@[simp] theorem State.clearError_flagEq (s : State) :
    (s.clearError).flagEq = s.flagEq := rfl

@[simp] theorem State.clearError_flagLt (s : State) :
    (s.clearError).flagLt = s.flagLt := rfl

@[simp] theorem State.clearError_flagZ (s : State) :
    (s.clearError).flagZ = s.flagZ := rfl

@[simp] theorem State.clearError_flagInf (s : State) :
    (s.clearError).flagInf = s.flagInf := rfl

@[simp] theorem State.clearError_busy (s : State) :
    (s.clearError).busy = s.busy := rfl

@[simp] theorem State.clearError_err (s : State) :
    (s.clearError).err = false := rfl

@[simp] theorem State.clearError_ovr (s : State) :
    (s.clearError).ovr = false := rfl

@[simp] theorem State.clearError_errCode (s : State) :
    (s.clearError).errCode = 0x00#8 := rfl

@[simp] theorem State.clearError_errCmd (s : State) :
    (s.clearError).errCmd = 0x00000000#32 := rfl

@[simp] theorem State.clearError_cmdLatch (s : State) :
    (s.clearError).cmdLatch = s.cmdLatch := rfl

@[simp] theorem State.clearError_port (s : State) :
    (s.clearError).port = s.port := rfl

/-! `State.retire` -/

@[simp] theorem State.retire_x (s : State) :
    (s.retire).x = s.x := rfl

@[simp] theorem State.retire_points (s : State) :
    (s.retire).points = s.points := rfl

@[simp] theorem State.retire_buf (s : State) :
    (s.retire).buf = s.buf := rfl

@[simp] theorem State.retire_flagEq (s : State) :
    (s.retire).flagEq = s.flagEq := rfl

@[simp] theorem State.retire_flagLt (s : State) :
    (s.retire).flagLt = s.flagLt := rfl

@[simp] theorem State.retire_flagZ (s : State) :
    (s.retire).flagZ = s.flagZ := rfl

@[simp] theorem State.retire_flagInf (s : State) :
    (s.retire).flagInf = s.flagInf := rfl

@[simp] theorem State.retire_busy (s : State) :
    (s.retire).busy = false := rfl

@[simp] theorem State.retire_err (s : State) :
    (s.retire).err = s.err := rfl

@[simp] theorem State.retire_ovr (s : State) :
    (s.retire).ovr = s.ovr := rfl

@[simp] theorem State.retire_errCode (s : State) :
    (s.retire).errCode = s.errCode := rfl

@[simp] theorem State.retire_errCmd (s : State) :
    (s.retire).errCmd = s.errCmd := rfl

@[simp] theorem State.retire_cmdLatch (s : State) :
    (s.retire).cmdLatch = s.cmdLatch := rfl

@[simp] theorem State.retire_port (s : State) :
    (s.retire).port = s.port := rfl

/-! `State.accept` -/

@[simp] theorem State.accept_x (s : State) (w : Word) :
    (s.accept w).x = s.x := rfl

@[simp] theorem State.accept_points (s : State) (w : Word) :
    (s.accept w).points = s.points := rfl

@[simp] theorem State.accept_buf (s : State) (w : Word) :
    (s.accept w).buf = s.buf := rfl

@[simp] theorem State.accept_flagEq (s : State) (w : Word) :
    (s.accept w).flagEq = s.flagEq := rfl

@[simp] theorem State.accept_flagLt (s : State) (w : Word) :
    (s.accept w).flagLt = s.flagLt := rfl

@[simp] theorem State.accept_flagZ (s : State) (w : Word) :
    (s.accept w).flagZ = s.flagZ := rfl

@[simp] theorem State.accept_flagInf (s : State) (w : Word) :
    (s.accept w).flagInf = s.flagInf := rfl

@[simp] theorem State.accept_busy (s : State) (w : Word) :
    (s.accept w).busy = true := rfl

@[simp] theorem State.accept_err (s : State) (w : Word) :
    (s.accept w).err = s.err := rfl

@[simp] theorem State.accept_ovr (s : State) (w : Word) :
    (s.accept w).ovr = s.ovr := rfl

@[simp] theorem State.accept_errCode (s : State) (w : Word) :
    (s.accept w).errCode = s.errCode := rfl

@[simp] theorem State.accept_errCmd (s : State) (w : Word) :
    (s.accept w).errCmd = s.errCmd := rfl

@[simp] theorem State.accept_cmdLatch (s : State) (w : Word) :
    (s.accept w).cmdLatch = w := rfl

@[simp] theorem State.accept_port (s : State) (w : Word) :
    (s.accept w).port = s.port := rfl

/-! `State.overrun` -/

@[simp] theorem State.overrun_x (s : State) :
    (s.overrun).x = s.x := rfl

@[simp] theorem State.overrun_points (s : State) :
    (s.overrun).points = s.points := rfl

@[simp] theorem State.overrun_buf (s : State) :
    (s.overrun).buf = s.buf := rfl

@[simp] theorem State.overrun_flagEq (s : State) :
    (s.overrun).flagEq = s.flagEq := rfl

@[simp] theorem State.overrun_flagLt (s : State) :
    (s.overrun).flagLt = s.flagLt := rfl

@[simp] theorem State.overrun_flagZ (s : State) :
    (s.overrun).flagZ = s.flagZ := rfl

@[simp] theorem State.overrun_flagInf (s : State) :
    (s.overrun).flagInf = s.flagInf := rfl

@[simp] theorem State.overrun_busy (s : State) :
    (s.overrun).busy = s.busy := rfl

@[simp] theorem State.overrun_err (s : State) :
    (s.overrun).err = s.err := rfl

@[simp] theorem State.overrun_ovr (s : State) :
    (s.overrun).ovr = true := rfl

@[simp] theorem State.overrun_errCode (s : State) :
    (s.overrun).errCode = s.errCode := rfl

@[simp] theorem State.overrun_errCmd (s : State) :
    (s.overrun).errCmd = s.errCmd := rfl

@[simp] theorem State.overrun_cmdLatch (s : State) :
    (s.overrun).cmdLatch = s.cmdLatch := rfl

@[simp] theorem State.overrun_port (s : State) :
    (s.overrun).port = s.port := rfl

/-! `State.reply` -/

@[simp] theorem State.reply_x (s : State) (r : Reply) :
    (s.reply r).x = s.x := rfl

@[simp] theorem State.reply_points (s : State) (r : Reply) :
    (s.reply r).points = s.points := rfl

@[simp] theorem State.reply_buf (s : State) (r : Reply) :
    (s.reply r).buf = s.buf := rfl

@[simp] theorem State.reply_flagEq (s : State) (r : Reply) :
    (s.reply r).flagEq = s.flagEq := rfl

@[simp] theorem State.reply_flagLt (s : State) (r : Reply) :
    (s.reply r).flagLt = s.flagLt := rfl

@[simp] theorem State.reply_flagZ (s : State) (r : Reply) :
    (s.reply r).flagZ = s.flagZ := rfl

@[simp] theorem State.reply_flagInf (s : State) (r : Reply) :
    (s.reply r).flagInf = s.flagInf := rfl

@[simp] theorem State.reply_busy (s : State) (r : Reply) :
    (s.reply r).busy = s.busy := rfl

@[simp] theorem State.reply_err (s : State) (r : Reply) :
    (s.reply r).err = s.err := rfl

@[simp] theorem State.reply_ovr (s : State) (r : Reply) :
    (s.reply r).ovr = s.ovr := rfl

@[simp] theorem State.reply_errCode (s : State) (r : Reply) :
    (s.reply r).errCode = s.errCode := rfl

@[simp] theorem State.reply_errCmd (s : State) (r : Reply) :
    (s.reply r).errCmd = s.errCmd := rfl

@[simp] theorem State.reply_cmdLatch (s : State) (r : Reply) :
    (s.reply r).cmdLatch = s.cmdLatch := rfl

@[simp] theorem State.reply_port (s : State) (r : Reply) :
    (s.reply r).port = { s.port with replies := r :: s.port.replies } := rfl

/-! `State.withScript` -/

@[simp] theorem State.withScript_x (s : State) (es : List HostEvent) :
    (s.withScript es).x = s.x := rfl

@[simp] theorem State.withScript_points (s : State) (es : List HostEvent) :
    (s.withScript es).points = s.points := rfl

@[simp] theorem State.withScript_buf (s : State) (es : List HostEvent) :
    (s.withScript es).buf = s.buf := rfl

@[simp] theorem State.withScript_flagEq (s : State) (es : List HostEvent) :
    (s.withScript es).flagEq = s.flagEq := rfl

@[simp] theorem State.withScript_flagLt (s : State) (es : List HostEvent) :
    (s.withScript es).flagLt = s.flagLt := rfl

@[simp] theorem State.withScript_flagZ (s : State) (es : List HostEvent) :
    (s.withScript es).flagZ = s.flagZ := rfl

@[simp] theorem State.withScript_flagInf (s : State) (es : List HostEvent) :
    (s.withScript es).flagInf = s.flagInf := rfl

@[simp] theorem State.withScript_busy (s : State) (es : List HostEvent) :
    (s.withScript es).busy = s.busy := rfl

@[simp] theorem State.withScript_err (s : State) (es : List HostEvent) :
    (s.withScript es).err = s.err := rfl

@[simp] theorem State.withScript_ovr (s : State) (es : List HostEvent) :
    (s.withScript es).ovr = s.ovr := rfl

@[simp] theorem State.withScript_errCode (s : State) (es : List HostEvent) :
    (s.withScript es).errCode = s.errCode := rfl

@[simp] theorem State.withScript_errCmd (s : State) (es : List HostEvent) :
    (s.withScript es).errCmd = s.errCmd := rfl

@[simp] theorem State.withScript_cmdLatch (s : State) (es : List HostEvent) :
    (s.withScript es).cmdLatch = s.cmdLatch := rfl

@[simp] theorem State.withScript_port (s : State) (es : List HostEvent) :
    (s.withScript es).port = { s.port with script := es } := rfl

/-! `State.setCompare` -/

@[simp] theorem State.setCompare_x (s : State) (u v : Nat) :
    (s.setCompare u v).x = s.x := rfl

@[simp] theorem State.setCompare_points (s : State) (u v : Nat) :
    (s.setCompare u v).points = s.points := rfl

@[simp] theorem State.setCompare_buf (s : State) (u v : Nat) :
    (s.setCompare u v).buf = s.buf := rfl

@[simp] theorem State.setCompare_flagEq (s : State) (u v : Nat) :
    (s.setCompare u v).flagEq = decide (u = v) := rfl

@[simp] theorem State.setCompare_flagLt (s : State) (u v : Nat) :
    (s.setCompare u v).flagLt = decide (u < v) := rfl

@[simp] theorem State.setCompare_flagZ (s : State) (u v : Nat) :
    (s.setCompare u v).flagZ = s.flagZ := rfl

@[simp] theorem State.setCompare_flagInf (s : State) (u v : Nat) :
    (s.setCompare u v).flagInf = s.flagInf := rfl

@[simp] theorem State.setCompare_busy (s : State) (u v : Nat) :
    (s.setCompare u v).busy = s.busy := rfl

@[simp] theorem State.setCompare_err (s : State) (u v : Nat) :
    (s.setCompare u v).err = s.err := rfl

@[simp] theorem State.setCompare_ovr (s : State) (u v : Nat) :
    (s.setCompare u v).ovr = s.ovr := rfl

@[simp] theorem State.setCompare_errCode (s : State) (u v : Nat) :
    (s.setCompare u v).errCode = s.errCode := rfl

@[simp] theorem State.setCompare_errCmd (s : State) (u v : Nat) :
    (s.setCompare u v).errCmd = s.errCmd := rfl

@[simp] theorem State.setCompare_cmdLatch (s : State) (u v : Nat) :
    (s.setCompare u v).cmdLatch = s.cmdLatch := rfl

@[simp] theorem State.setCompare_port (s : State) (u v : Nat) :
    (s.setCompare u v).port = s.port := rfl

/-! `State.setZ` -/

@[simp] theorem State.setZ_x (s : State) (z : Bool) :
    (s.setZ z).x = s.x := rfl

@[simp] theorem State.setZ_points (s : State) (z : Bool) :
    (s.setZ z).points = s.points := rfl

@[simp] theorem State.setZ_buf (s : State) (z : Bool) :
    (s.setZ z).buf = s.buf := rfl

@[simp] theorem State.setZ_flagEq (s : State) (z : Bool) :
    (s.setZ z).flagEq = s.flagEq := rfl

@[simp] theorem State.setZ_flagLt (s : State) (z : Bool) :
    (s.setZ z).flagLt = s.flagLt := rfl

@[simp] theorem State.setZ_flagZ (s : State) (z : Bool) :
    (s.setZ z).flagZ = z := rfl

@[simp] theorem State.setZ_flagInf (s : State) (z : Bool) :
    (s.setZ z).flagInf = s.flagInf := rfl

@[simp] theorem State.setZ_busy (s : State) (z : Bool) :
    (s.setZ z).busy = s.busy := rfl

@[simp] theorem State.setZ_err (s : State) (z : Bool) :
    (s.setZ z).err = s.err := rfl

@[simp] theorem State.setZ_ovr (s : State) (z : Bool) :
    (s.setZ z).ovr = s.ovr := rfl

@[simp] theorem State.setZ_errCode (s : State) (z : Bool) :
    (s.setZ z).errCode = s.errCode := rfl

@[simp] theorem State.setZ_errCmd (s : State) (z : Bool) :
    (s.setZ z).errCmd = s.errCmd := rfl

@[simp] theorem State.setZ_cmdLatch (s : State) (z : Bool) :
    (s.setZ z).cmdLatch = s.cmdLatch := rfl

@[simp] theorem State.setZ_port (s : State) (z : Bool) :
    (s.setZ z).port = s.port := rfl

/-! `State.setInf` -/

@[simp] theorem State.setInf_x (s : State) (i : Bool) :
    (s.setInf i).x = s.x := rfl

@[simp] theorem State.setInf_points (s : State) (i : Bool) :
    (s.setInf i).points = s.points := rfl

@[simp] theorem State.setInf_buf (s : State) (i : Bool) :
    (s.setInf i).buf = s.buf := rfl

@[simp] theorem State.setInf_flagEq (s : State) (i : Bool) :
    (s.setInf i).flagEq = s.flagEq := rfl

@[simp] theorem State.setInf_flagLt (s : State) (i : Bool) :
    (s.setInf i).flagLt = s.flagLt := rfl

@[simp] theorem State.setInf_flagZ (s : State) (i : Bool) :
    (s.setInf i).flagZ = s.flagZ := rfl

@[simp] theorem State.setInf_flagInf (s : State) (i : Bool) :
    (s.setInf i).flagInf = i := rfl

@[simp] theorem State.setInf_busy (s : State) (i : Bool) :
    (s.setInf i).busy = s.busy := rfl

@[simp] theorem State.setInf_err (s : State) (i : Bool) :
    (s.setInf i).err = s.err := rfl

@[simp] theorem State.setInf_ovr (s : State) (i : Bool) :
    (s.setInf i).ovr = s.ovr := rfl

@[simp] theorem State.setInf_errCode (s : State) (i : Bool) :
    (s.setInf i).errCode = s.errCode := rfl

@[simp] theorem State.setInf_errCmd (s : State) (i : Bool) :
    (s.setInf i).errCmd = s.errCmd := rfl

@[simp] theorem State.setInf_cmdLatch (s : State) (i : Bool) :
    (s.setInf i).cmdLatch = s.cmdLatch := rfl

@[simp] theorem State.setInf_port (s : State) (i : Bool) :
    (s.setInf i).port = s.port := rfl

/-! `State.clearFlags` -/

@[simp] theorem State.clearFlags_x (s : State) :
    (s.clearFlags).x = s.x := rfl

@[simp] theorem State.clearFlags_points (s : State) :
    (s.clearFlags).points = s.points := rfl

@[simp] theorem State.clearFlags_buf (s : State) :
    (s.clearFlags).buf = s.buf := rfl

@[simp] theorem State.clearFlags_flagEq (s : State) :
    (s.clearFlags).flagEq = false := rfl

@[simp] theorem State.clearFlags_flagLt (s : State) :
    (s.clearFlags).flagLt = false := rfl

@[simp] theorem State.clearFlags_flagZ (s : State) :
    (s.clearFlags).flagZ = false := rfl

@[simp] theorem State.clearFlags_flagInf (s : State) :
    (s.clearFlags).flagInf = false := rfl

@[simp] theorem State.clearFlags_busy (s : State) :
    (s.clearFlags).busy = s.busy := rfl

@[simp] theorem State.clearFlags_err (s : State) :
    (s.clearFlags).err = s.err := rfl

@[simp] theorem State.clearFlags_ovr (s : State) :
    (s.clearFlags).ovr = s.ovr := rfl

@[simp] theorem State.clearFlags_errCode (s : State) :
    (s.clearFlags).errCode = s.errCode := rfl

@[simp] theorem State.clearFlags_errCmd (s : State) :
    (s.clearFlags).errCmd = s.errCmd := rfl

@[simp] theorem State.clearFlags_cmdLatch (s : State) :
    (s.clearFlags).cmdLatch = s.cmdLatch := rfl

@[simp] theorem State.clearFlags_port (s : State) :
    (s.clearFlags).port = s.port := rfl

/-! `State.clearData` -/

@[simp] theorem State.clearData_x (s : State) :
    (s.clearData).x = Vector.replicate 8 0#384 := rfl

@[simp] theorem State.clearData_points (s : State) :
    (s.clearData).points = Vector.replicate 4 .inf := rfl

@[simp] theorem State.clearData_buf (s : State) :
    (s.clearData).buf = [] := rfl

@[simp] theorem State.clearData_flagEq (s : State) :
    (s.clearData).flagEq = s.flagEq := rfl

@[simp] theorem State.clearData_flagLt (s : State) :
    (s.clearData).flagLt = s.flagLt := rfl

@[simp] theorem State.clearData_flagZ (s : State) :
    (s.clearData).flagZ = s.flagZ := rfl

@[simp] theorem State.clearData_flagInf (s : State) :
    (s.clearData).flagInf = s.flagInf := rfl

@[simp] theorem State.clearData_busy (s : State) :
    (s.clearData).busy = s.busy := rfl

@[simp] theorem State.clearData_err (s : State) :
    (s.clearData).err = s.err := rfl

@[simp] theorem State.clearData_ovr (s : State) :
    (s.clearData).ovr = s.ovr := rfl

@[simp] theorem State.clearData_errCode (s : State) :
    (s.clearData).errCode = s.errCode := rfl

@[simp] theorem State.clearData_errCmd (s : State) :
    (s.clearData).errCmd = s.errCmd := rfl

@[simp] theorem State.clearData_cmdLatch (s : State) :
    (s.clearData).cmdLatch = s.cmdLatch := rfl

@[simp] theorem State.clearData_port (s : State) :
    (s.clearData).port = s.port := rfl

/-! `State.takeEvent` -/

@[simp] theorem State.takeEvent_x (s : State) :
    (s.takeEvent).x = s.x := rfl

@[simp] theorem State.takeEvent_points (s : State) :
    (s.takeEvent).points = s.points := rfl

@[simp] theorem State.takeEvent_buf (s : State) :
    (s.takeEvent).buf = s.buf := rfl

@[simp] theorem State.takeEvent_flagEq (s : State) :
    (s.takeEvent).flagEq = s.flagEq := rfl

@[simp] theorem State.takeEvent_flagLt (s : State) :
    (s.takeEvent).flagLt = s.flagLt := rfl

@[simp] theorem State.takeEvent_flagZ (s : State) :
    (s.takeEvent).flagZ = s.flagZ := rfl

@[simp] theorem State.takeEvent_flagInf (s : State) :
    (s.takeEvent).flagInf = s.flagInf := rfl

@[simp] theorem State.takeEvent_busy (s : State) :
    (s.takeEvent).busy = s.busy := rfl

@[simp] theorem State.takeEvent_err (s : State) :
    (s.takeEvent).err = s.err := rfl

@[simp] theorem State.takeEvent_ovr (s : State) :
    (s.takeEvent).ovr = s.ovr := rfl

@[simp] theorem State.takeEvent_errCode (s : State) :
    (s.takeEvent).errCode = s.errCode := rfl

@[simp] theorem State.takeEvent_errCmd (s : State) :
    (s.takeEvent).errCmd = s.errCmd := rfl

@[simp] theorem State.takeEvent_cmdLatch (s : State) :
    (s.takeEvent).cmdLatch = s.cmdLatch := rfl

@[simp] theorem State.takeEvent_port (s : State) :
    (s.takeEvent).port = { s.port with script := s.port.script.tail } := rfl

/-! Reads after updates -/

theorem State.setX_x_same (s : State) (d : XReg) (v : Val) : (s.setX d v).x[d] = v := by
  simp

theorem State.setX_x_other (s : State) {d r : XReg} (v : Val) (h : r ≠ d) : (s.setX d v).x[r] = s.x[r] := by
  have h2 : (d : Nat) ≠ r := fun e => h (Fin.ext e.symm)
  simp [h2]

@[simp] theorem State.setPoint_point_same (s : State) (d : PReg) (q : PointVal) :
    (s.setPoint d q).point d = q := by
  simp [State.point]

theorem State.setPoint_point_other (s : State) {d k : PReg} (q : PointVal) (h : k ≠ d) :
    (s.setPoint d q).point k = s.point k := by
  have h2 : (d : Nat) ≠ k := fun e => h (Fin.ext e.symm)
  simp [State.point, h2]

/-- Two states with the same point registers read the same points. -/
theorem State.point_congr {s t : State} (h : t.points = s.points) (k : PReg) : t.point k = s.point k := by
  simp [State.point, h]

/-- Two states with the same BUF read the same bytes. -/
theorem State.byteAt_congr {s t : State} (h : t.buf = s.buf) (a : Nat) : t.byteAt a = s.byteAt a := by
  simp [State.byteAt, h]

/-- Two states with the same x registers read the same integers. -/
theorem State.xNat_congr {s t : State} (h : t.x = s.x) (r : XReg) : t.xNat r = s.xNat r := by
  simp [State.xNat, h]

theorem State.setX_xNat_same (s : State) (d : XReg) (v : Val) : (s.setX d v).xNat d = v.toNat := by
  simp [State.xNat]

theorem State.setX_xNat_other (s : State) {d r : XReg} (v : Val) (h : r ≠ d) :
    (s.setX d v).xNat r = s.xNat r := by
  rw [State.xNat, State.setX_x_other s v h, State.xNat]

/-- The integer written to `x[d]` is the integer read, when it is a 384-bit value. -/
theorem State.setX_xNat_ofNat (s : State) (d : XReg) {v : Nat} (hv : v < 2 ^ 384) :
    (s.setX d (BitVec.ofNat 384 v)).xNat d = v := by
  rw [State.setX_xNat_same, BitVec.toNat_ofNat, Nat.mod_eq_of_lt hv]

/-- An x register is a 384-bit value (10_state.md rule R45 (a)). -/
theorem State.xNat_lt (s : State) (r : XReg) : s.xNat r < 2 ^ 384 := (s.x[r]).isLt

end Sys2Proof.Machine
end

