-- ==== Sys2Proof/Laws/Ops.lean ====
section
/-! SUPPORT. For each shared operation, one lemma that says everything it can do, and the frame of each
update. -/

namespace Sys2Proof.Machine

/-! Operand checks -/

/-- The range check passes: the body runs (60_exceptions.md rule R228). -/
theorem requireCanonical_of {m : Nat} {rs : List XReg} {s : State} (body : Result)
    (h : ∀ r ∈ rs, s.xNat r < m) : requireCanonical m rs s body = body :=
  if_pos h

/-- The range check fails: OPERAND_RANGE (60_exceptions.md rule R228). -/
theorem requireCanonical_not {m : Nat} {rs : List XReg} {s : State} (body : Result) {r : XReg} (hr : r ∈ rs)
    (h : m ≤ s.xNat r) : requireCanonical m rs s body = .next (s.raise .operandRange) :=
  if_neg fun hall => Nat.not_le.mpr (hall r hr) h

/-- Everything the range check can do. -/
theorem requireCanonical_cases {m : Nat} {rs : List XReg} {s t : State} {body : Result}
    (h : requireCanonical m rs s body = .next t) :
    ((∀ r ∈ rs, s.xNat r < m) ∧ body = .next t) ∨
      ((∃ r ∈ rs, m ≤ s.xNat r) ∧ t = s.raise .operandRange) := by
  unfold requireCanonical at h
  split at h
  · next hall => exact .inl ⟨hall, h⟩
  · next hall =>
    simp only [not_forall, canonical, Nat.not_lt] at hall
    obtain ⟨r, hr, hm⟩ := hall
    cases h
    exact .inr ⟨⟨r, hr, hm⟩, rfl⟩

/-- The access fits: the body runs (20_memory.md rule R64). -/
theorem requireFits_of {addr size : Nat} {s : State} (body : Result) (h : addr + size ≤ 256) :
    requireFits addr size s body = body :=
  if_neg (Nat.not_lt.mpr h)

/-- The access does not fit: BUF_RANGE (20_memory.md rule R64). -/
theorem requireFits_not {addr size : Nat} {s : State} (body : Result) (h : 256 < addr + size) :
    requireFits addr size s body = .next (s.raise .bufRange) :=
  if_pos h

/-- Everything the fit check can do. -/
theorem requireFits_cases {addr size : Nat} {s t : State} {body : Result}
    (h : requireFits addr size s body = .next t) :
    (addr + size ≤ 256 ∧ body = .next t) ∨ (256 < addr + size ∧ t = s.raise .bufRange) := by
  by_cases hfit : addr + size ≤ 256
  · rw [requireFits_of body hfit] at h
    exact .inl ⟨hfit, h⟩
  · rw [requireFits_not body (Nat.not_le.mp hfit)] at h
    cases h
    exact .inr ⟨Nat.not_le.mp hfit, rfl⟩

theorem requireAffine_aff {k : PReg} {s : State} {x y : Val} (body : Val → Val → Result)
    (h : s.point k = .aff x y) : requireAffine k s body = body x y := by
  rw [requireAffine, h]

theorem requireAffine_inf {k : PReg} {s : State} (body : Val → Val → Result) (h : s.point k = .inf) :
    requireAffine k s body = .next (s.raise .pointInf) := by
  rw [requireAffine, h]

/-- Everything the Inf check can do (60_exceptions.md rule R231). -/
theorem requireAffine_cases {k : PReg} {s t : State} {body : Val → Val → Result}
    (h : requireAffine k s body = .next t) :
    (∃ x y, s.point k = .aff x y ∧ body x y = .next t) ∨ (s.point k = .inf ∧ t = s.raise .pointInf) := by
  unfold requireAffine at h
  split at h
  · next hp =>
    cases h
    exact .inr ⟨hp, rfl⟩
  · next x y hp => exact .inl ⟨x, y, hp, h⟩

/-! The shapes of the arithmetic families -/

/-- Everything a command of two canonical operands can do (42_field.md rule R140, 43_scalar.md rule R160). -/
theorem execBinary_cases {m : Nat} {f : Nat → Nat → Nat} {d a b : XReg} {s t : State}
    (h : execBinary m f d a b s = .next t) :
    (s.xNat a < m ∧ s.xNat b < m ∧ t = s.setResult d (f (s.xNat a) (s.xNat b))) ∨
      ((m ≤ s.xNat a ∨ m ≤ s.xNat b) ∧ t = s.raise .operandRange) := by
  rcases requireCanonical_cases h with ⟨hall, hb⟩ | ⟨⟨r, hr, hm⟩, ht⟩
  · cases hb
    exact .inl ⟨hall a (by simp), hall b (by simp), rfl⟩
  · refine .inr ⟨?_, ht⟩
    simp only [List.mem_cons, List.not_mem_nil, or_false] at hr
    rcases hr with rfl | rfl
    · exact .inl hm
    · exact .inr hm

theorem execBinary_of {m : Nat} {f : Nat → Nat → Nat} {d a b : XReg} {s : State} (ha : s.xNat a < m)
    (hb : s.xNat b < m) : execBinary m f d a b s = .next (s.setResult d (f (s.xNat a) (s.xNat b))) :=
  requireCanonical_of _ (by simp [ha, hb])

theorem execBinary_range {m : Nat} {f : Nat → Nat → Nat} {d a b : XReg} {s : State}
    (h : m ≤ s.xNat a ∨ m ≤ s.xNat b) : execBinary m f d a b s = .next (s.raise .operandRange) := by
  rcases h with h | h
  · exact requireCanonical_not _ (List.mem_cons_self ..) h
  · exact requireCanonical_not _ (List.mem_cons_of_mem _ (List.mem_cons_self ..)) h

/-- Everything an inverter can do (42_field.md rule R145, 43_scalar.md rule R165). -/
theorem execInverse_cases {m : Nat} {d a : XReg} {s t : State} (h : execInverse m d a s = .next t) :
    (0 < s.xNat a ∧ s.xNat a < m ∧ t = (s.setX d (BitVec.ofNat 384 (invMod m (s.xNat a)))).setZ false) ∨
      (s.xNat a = 0 ∧ t = s.raise .invZero) ∨ (m ≤ s.xNat a ∧ t = s.raise .operandRange) := by
  rcases requireCanonical_cases h with ⟨hall, hb⟩ | ⟨⟨r, hr, hm⟩, ht⟩
  · split at hb
    · next h0 =>
      cases hb
      exact .inr (.inl ⟨h0, rfl⟩)
    · next h0 =>
      cases hb
      exact .inl ⟨Nat.pos_of_ne_zero h0, hall a (by simp), rfl⟩
  · simp only [List.mem_cons, List.not_mem_nil, or_false] at hr
    subst hr
    exact .inr (.inr ⟨hm, ht⟩)

theorem execInverse_of {m : Nat} {d a : XReg} {s : State} (h0 : 0 < s.xNat a) (ha : s.xNat a < m) :
    execInverse m d a s = .next ((s.setX d (BitVec.ofNat 384 (invMod m (s.xNat a)))).setZ false) := by
  rw [execInverse, requireCanonical_of _ (by simp [ha]), if_neg (Nat.pos_iff_ne_zero.mp h0)]

theorem execInverse_zero {m : Nat} {d a : XReg} {s : State} (hm : 0 < m) (h0 : s.xNat a = 0) :
    execInverse m d a s = .next (s.raise .invZero) := by
  rw [execInverse, requireCanonical_of _ (by simp [h0, hm]), if_pos h0]

theorem execInverse_range {m : Nat} {d a : XReg} {s : State} (h : m ≤ s.xNat a) :
    execInverse m d a s = .next (s.raise .operandRange) :=
  requireCanonical_not _ (List.mem_cons_self ..) h

/-! Results and frames -/

@[simp] theorem State.setResult_eq (s : State) (d : XReg) (v : Nat) :
    s.setResult d v = (s.setX d (BitVec.ofNat 384 v)).setZ (decide (BitVec.ofNat 384 v = 0#384)) := rfl

@[simp] theorem State.setPointResult_eq (s : State) (d : PReg) (q : PointVal) :
    s.setPointResult d q = (s.setPoint d q).setInf q.isInf := rfl

theorem State.setZ_xNat (s : State) (z : Bool) (r : XReg) : (s.setZ z).xNat r = s.xNat r := rfl

/-- The value a result command writes, and the flag Z, when the result is a 384-bit value. -/
theorem State.setResult_spec (s : State) (d : XReg) {v : Nat} (hv : v < 2 ^ 384) :
    (s.setResult d v).xNat d = v ∧ (s.setResult d v).flagZ = decide (v = 0) := by
  refine ⟨?_, ?_⟩
  · rw [State.setResult_eq, State.setZ_xNat, State.setX_xNat_ofNat s d hv]
  · rw [State.setResult_eq, State.setZ_flagZ, decide_eq_decide, ← BitVec.toNat_inj, BitVec.toNat_ofNat,
      Nat.mod_eq_of_lt hv, BitVec.toNat_ofNat, Nat.zero_mod]

theorem State.setX_sameXBut (s : State) (d : XReg) (v : Val) : SameXBut d s (s.setX d v) :=
  fun _ hr => State.setX_x_other s v hr

theorem State.setPoint_samePointsBut (s : State) (d : PReg) (q : PointVal) :
    SamePointsBut d s (s.setPoint d q) :=
  fun _ hk => State.setPoint_point_other s q hk

theorem sameControl_refl (s : State) : SameControl s s := ⟨rfl, rfl, rfl, rfl, rfl, rfl, rfl⟩

/-- A write of `x[d]` alone. -/
theorem State.setX_frame (s : State) (d : XReg) (v : Val) : FrameX d s (s.setX d v) :=
  ⟨State.setX_sameXBut s d v, rfl, fun _ => rfl, ⟨rfl, rfl⟩, rfl, rfl, sameControl_refl s⟩

/-- A write of `x[d]` and Z. -/
theorem State.setX_setZ_frame (s : State) (d : XReg) (v : Val) (z : Bool) :
    FrameXZ d s ((s.setX d v).setZ z) :=
  ⟨State.setX_sameXBut s d v, rfl, fun _ => rfl, ⟨rfl, rfl⟩, rfl, sameControl_refl s⟩

theorem State.setResult_frame (s : State) (d : XReg) (v : Nat) : FrameXZ d s (s.setResult d v) :=
  State.setX_setZ_frame s d _ _

/-- A write of `P[d]` and INF. -/
theorem State.setPointResult_frame (s : State) (d : PReg) (q : PointVal) :
    FramePoint d s (s.setPointResult d q) :=
  ⟨rfl, State.setPoint_samePointsBut s d q, fun _ => rfl, ⟨rfl, rfl⟩, rfl, sameControl_refl s⟩

/-- The point and the flag INF after a point command. -/
theorem State.setPointResult_spec (s : State) (d : PReg) (q : PointVal) :
    (s.setPointResult d q).point d = q ∧ (s.setPointResult d q).flagInf = q.isInf :=
  ⟨State.setPoint_point_same s d q, rfl⟩

/-- A store of n bytes. -/
theorem State.memWrite_frame (s : State) (addr n v : Nat) : FrameStore addr n s (s.memWrite addr n v) :=
  ⟨rfl, rfl, fun _ ha => Memory.readByte_write_outside ha, ⟨rfl, rfl⟩, rfl, rfl, sameControl_refl s⟩

/-- A store of the 49 bytes of a compressed point. -/
theorem State.setByte_memWrite_frame (s : State) (addr : Nat) (tag : Byte) (v : Nat) :
    FrameStore addr 49 s ((s.setByte addr tag).memWrite (addr + 1) 48 v) := by
  have hbuf : SameBufOutside addr 49 s ((s.setByte addr tag).memWrite (addr + 1) 48 v) := by
    intro a ha
    rw [State.byteAt, State.memWrite_buf, Memory.readByte_write_outside (by omega), State.setByte_buf,
      Memory.readByte_writeByte_other _ (by omega), State.byteAt]
  simp [FrameStore, SameCompare, SameControl, hbuf]

/-- Error entry (60_exceptions.md rule R224). -/
theorem State.raise_endsInError (s : State) (c : ErrCode) : EndsInError c s (s.raise c) :=
  ⟨rfl, rfl, rfl, rfl, rfl, rfl, rfl, ⟨rfl, rfl⟩, rfl, rfl, rfl, rfl, rfl⟩

/-! Completion -/

/-- A squashed command (30_encoding.md rule R100 step 1). -/
theorem execLatch_squash {s : State} (he : s.err = true) (hw : survivesError s.cmdLatch = false) :
    execLatch s = .next s := by
  rw [execLatch, he, hw]
  rfl

/-- A command that is not squashed: decoded, and executed or illegal (30_encoding.md rule R100). -/
theorem execLatch_runs {s : State} (h : s.err = false ∨ survivesError s.cmdLatch = true) :
    execLatch s =
      match decode s.cmdLatch with
      | .error _ => .next (s.raise .illegalCmd)
      | .ok i => exec i s := by
  refine if_neg ?_
  rcases h with h | h <;> rw [h] <;> simp

/-- Everything Exec can do when it gives a next state (30_encoding.md rule R100). -/
theorem execLatch_cases {s t : State} (h : execLatch s = .next t) :
    (s.err = true ∧ survivesError s.cmdLatch = false ∧ t = s) ∨
      ((s.err = false ∨ survivesError s.cmdLatch = true) ∧
        ((∃ e, decode s.cmdLatch = .error e ∧ t = s.raise .illegalCmd) ∨
          ∃ i, decode s.cmdLatch = .ok i ∧ exec i s = .next t)) := by
  by_cases hs : s.err = true ∧ survivesError s.cmdLatch = false
  · rw [execLatch_squash hs.1 hs.2] at h
    cases h
    exact .inl ⟨hs.1, hs.2, rfl⟩
  · have hr : s.err = false ∨ survivesError s.cmdLatch = true := by
      cases he : s.err <;> cases hw : survivesError s.cmdLatch <;> simp_all
    rw [execLatch_runs hr] at h
    refine .inr ⟨hr, ?_⟩
    split at h
    · next e hd =>
      cases h
      exact .inl ⟨e, hd, rfl⟩
    · next i hd => exact .inr ⟨i, hd, h⟩

theorem retireResult_next {r : Result} {t : State} (h : retireResult r = .next t) :
    ∃ u, r = .next u ∧ t = u.retire := by
  cases r with
  | next u =>
    cases h
    exact ⟨u, rfl, rfl⟩
  | fault r => cases h
  | refused r => cases h

/-- Everything a completion can do (10_state.md rule R41). -/
theorem complete_cases {s t : State} (h : complete s = .next t) :
    (s.busy = false ∧ t = s) ∨ (s.busy = true ∧ ∃ u, execLatch s = .next u ∧ t = u.retire) := by
  unfold complete at h
  split at h
  · next hb => exact .inr ⟨hb, retireResult_next h⟩
  · next hb =>
    cases h
    exact .inl ⟨by simpa using hb, rfl⟩

theorem complete_busy {s : State} (h : s.busy = true) : complete s = retireResult (execLatch s) := by
  rw [complete, h]
  rfl

theorem complete_idle {s : State} (h : s.busy = false) : complete s = .next s := by
  rw [complete, h]
  rfl

/-- A completion does not depend on the events still to come, nor change them. -/
theorem step_completion {s : State} (h : nextEvent s = .completion) : step s = complete s.takeEvent := by
  rw [step, h]
  rfl

end Sys2Proof.Machine
end

