-- ==== Sys2Proof/Laws/Effect.lean ====
section
/-! SUPPORT. A command reads x, P and BUF alone and has one of nine effects: the lemma `exec_effect` says so for
every command. So no command's effect depends on a flag, a control bit, the error record or the host's port, and
every command ends in a next state. -/

namespace Sys2Proof.Machine

/-- What a command can do to the state. -/
inductive Effect where
  | nothing
  | fail (c : ErrCode)
  | putX (d : XReg) (v : Val)
  | putXZ (d : XReg) (v : Val) (z : Bool)
  | putPoint (d : PReg) (q : PointVal)
  | putBuf (b : List Host.Cell)
  | compare (u v : Nat)
  | clearError
  | zeroize

/-- The state an effect gives. -/
def Effect.apply : Effect → State → State
  | .nothing, s => s
  | .fail c, s => s.raise c
  | .putX d v, s => s.setX d v
  | .putXZ d v z, s => (s.setX d v).setZ z
  | .putPoint d q, s => s.setPointResult d q
  | .putBuf b, s => { s with buf := b }
  | .compare u v, s => s.setCompare u v
  | .clearError, s => s.clearError
  | .zeroize, s => s.clearData.clearFlags

theorem ite_effect {c : Prop} [Decidable c] {e1 e2 : Effect} {s : State} {r1 r2 : Result}
    (h1 : r1 = .next (e1.apply s)) (h2 : r2 = .next (e2.apply s)) :
    (if c then r1 else r2) = .next ((if c then e1 else e2).apply s) := by
  split <;> assumption

/-- The effect of a command that has read a point register. -/
def affineEffect (q : PointVal) (f : Val → Val → Effect) : Effect :=
  match q with
  | .inf => .fail .pointInf
  | .aff x y => f x y

theorem requireAffine_effect {k : PReg} {s : State} {body : Val → Val → Result} {f : Val → Val → Effect}
    (h : ∀ x y, body x y = .next ((f x y).apply s)) :
    requireAffine k s body = .next ((affineEffect s.points[k] f).apply s) := by
  cases hq : s.point k with
  | inf =>
    have hq' : s.points[k] = .inf := hq
    rw [requireAffine_inf body hq, hq']
    rfl
  | aff x y =>
    have hq' : s.points[k] = .aff x y := hq
    rw [requireAffine_aff body hq, hq']
    exact h x y

/-- A function of x, P and BUF. -/
abbrev OfData (α : Type) := Vector Val 8 → Vector PointVal 4 → List Host.Cell → α

theorem binary_effect (m : Nat) (g : Nat → Nat → Nat) (d a b : XReg) :
    ∃ f : OfData Effect, ∀ s, execBinary m g d a b s = .next ((f s.x s.points s.buf).apply s) :=
  ⟨fun x _ _ => if ∀ r ∈ [a, b], canonical m x[r].toNat then
      .putXZ d (BitVec.ofNat 384 (g x[a].toNat x[b].toNat))
        (decide (BitVec.ofNat 384 (g x[a].toNat x[b].toNat) = 0#384))
    else .fail .operandRange, fun _ => ite_effect rfl rfl⟩

theorem inverse_effect (m : Nat) (d a : XReg) :
    ∃ f : OfData Effect, ∀ s, execInverse m d a s = .next ((f s.x s.points s.buf).apply s) :=
  ⟨fun x _ _ => if ∀ r ∈ [a], canonical m x[r].toNat then
      (if x[a].toNat = 0 then .fail .invZero else .putXZ d (BitVec.ofNat 384 (invMod m x[a].toNat)) false)
    else .fail .operandRange, fun _ => ite_effect (ite_effect rfl rfl) rfl⟩

theorem reduce_effect (m : Nat) (d a : XReg) :
    ∃ f : OfData Effect, ∀ s, execReduce m d a s = .next ((f s.x s.points s.buf).apply s) :=
  ⟨fun x _ _ => .putXZ d (BitVec.ofNat 384 (x[a].toNat % m)) (decide (BitVec.ofNat 384 (x[a].toNat % m) = 0#384)),
    fun _ => rfl⟩

theorem decodePoint_effect (d : PReg) (tag xx : Nat) :
    ∃ e : Effect, ∀ s, decodePoint d tag xx s = .next (e.apply s) :=
  ⟨if Config.p ≤ xx then .fail .notOnCurve
    else if sqrtP (curveRhs xx) * sqrtP (curveRhs xx) % Config.p ≠ curveRhs xx then .fail .notOnCurve
    else .putPoint d (affOf xx (rootOfParity (sqrtP (curveRhs xx)) tag)),
    fun _ => ite_effect rfl (ite_effect rfl rfl)⟩

theorem execPdec_effect (d : PReg) (addr len : Nat) :
    ∃ f : OfData Effect, ∀ s, execPdec d addr len s = .next ((f s.x s.points s.buf).apply s) := by
  choose g hg using fun tag xx => decodePoint_effect d tag xx
  exact ⟨fun _ _ b => if len ≠ 49 then .fail .decInvalidLength
    else if addr + 49 > Config.bufSize then .fail .bufRange
    else if Memory.readByte b addr ≠ 0x02#8 ∧ Memory.readByte b addr ≠ 0x03#8 then .fail .decInvalidTag
    else g (Memory.readByte b addr).toNat (Memory.read b (addr + 1) 48),
    fun s => ite_effect rfl (ite_effect rfl (ite_effect rfl (hg _ _ s)))⟩

/-- Everything a command can do: one of the nine effects, chosen from x, P and BUF alone. -/
theorem exec_effect (i : Instr) :
    ∃ f : OfData Effect, ∀ s, exec i s = .next ((f s.x s.points s.buf).apply s) := by
  cases i with
  | nop => exact ⟨fun _ _ _ => .nothing, fun _ => rfl⟩
  | clrerr => exact ⟨fun _ _ _ => .clearError, fun _ => rfl⟩
  | zeroize => exact ⟨fun _ _ _ => .zeroize, fun _ => rfl⟩
  | ldx d addr =>
    exact ⟨fun _ _ b => if addr + 48 > Config.bufSize then .fail .bufRange
      else .putX d (BitVec.ofNat 384 (Memory.read b addr 48)), fun _ => ite_effect rfl rfl⟩
  | stx r addr =>
    exact ⟨fun x _ b => if addr + 48 > Config.bufSize then .fail .bufRange
      else .putBuf (Memory.write b addr 48 x[r].toNat), fun _ => ite_effect rfl rfl⟩
  | mov d a => exact ⟨fun x _ _ => .putX d x[a], fun _ => rfl⟩
  | ldc d k => exact ⟨fun _ _ _ => .putX d (BitVec.ofNat 384 (constValue k)), fun _ => rfl⟩
  | cmp a b => exact ⟨fun x _ _ => .compare x[a].toNat x[b].toNat, fun _ => rfl⟩
  | fadd d a b => exact binary_effect ..
  | fsub d a b => exact binary_effect ..
  | fmul d a b => exact binary_effect ..
  | fmmul d a b => exact binary_effect ..
  | finv d a => exact inverse_effect ..
  | fred d a => exact reduce_effect ..
  | fsqrt d a =>
    exact ⟨fun x _ _ => if ∀ r ∈ [a], canonical Config.p x[r].toNat then
        (if sqrtP x[a].toNat * sqrtP x[a].toNat % Config.p ≠ x[a].toNat then .fail .notSquare
        else .putXZ d (BitVec.ofNat 384 (sqrtP x[a].toNat)) (decide (BitVec.ofNat 384 (sqrtP x[a].toNat) = 0#384)))
      else .fail .operandRange, fun _ => ite_effect (ite_effect rfl rfl) rfl⟩
  | nadd d a b => exact binary_effect ..
  | nsub d a b => exact binary_effect ..
  | nmul d a b => exact binary_effect ..
  | nmmul d a b => exact binary_effect ..
  | ninv d a => exact inverse_effect ..
  | nred d a => exact reduce_effect ..
  | pinf d => exact ⟨fun _ _ _ => .putPoint d .inf, fun _ => rfl⟩
  | pldg d => exact ⟨fun _ _ _ => .putPoint d generator, fun _ => rfl⟩
  | pset d a b =>
    exact ⟨fun x _ _ => if ∀ r ∈ [a, b], canonical Config.p x[r].toNat then
        (if x[b].toNat * x[b].toNat % Config.p ≠ curveRhs x[a].toNat then .fail .notOnCurve
        else .putPoint d (.aff x[a] x[b]))
      else .fail .operandRange, fun _ => ite_effect (ite_effect rfl rfl) rfl⟩
  | pgetx d a =>
    exact ⟨fun _ q _ => affineEffect q[a] fun x _ => .putX d x, fun _ => requireAffine_effect fun _ _ => rfl⟩
  | pgety d a =>
    exact ⟨fun _ q _ => affineEffect q[a] fun _ y => .putX d y, fun _ => requireAffine_effect fun _ _ => rfl⟩
  | pmov d a => exact ⟨fun _ q _ => .putPoint d q[a], fun _ => rfl⟩
  | pdbl d a => exact ⟨fun _ q _ => .putPoint d (ptDbl q[a]), fun _ => rfl⟩
  | padd d a b => exact ⟨fun _ q _ => .putPoint d (ptAdd q[a] q[b]), fun _ => rfl⟩
  | pmul d k b =>
    exact ⟨fun x q _ => if ∀ r ∈ [k], canonical Config.n x[r].toNat then .putPoint d (ptMulEval x[k].toNat q[b])
      else .fail .operandRange, fun _ => ite_effect rfl rfl⟩
  | penc r addr =>
    exact ⟨fun _ q b => if addr + 49 > Config.bufSize then .fail .bufRange
      else affineEffect q[r] fun x y =>
        .putBuf (Memory.write (Memory.writeByte b addr (tagOf y.toNat)) (addr + 1) 48 x.toNat),
      fun _ => ite_effect rfl (requireAffine_effect fun _ _ => rfl)⟩
  | pdec d addr len => exact execPdec_effect d addr len

/-- Every command ends in a next state. -/
theorem exec_next (i : Instr) (s : State) : ∃ t, exec i s = .next t := by
  obtain ⟨f, hf⟩ := exec_effect i
  exact ⟨_, hf s⟩

/-- Exec(CMDLATCH) ends in a next state, whatever the word. -/
theorem execLatch_next (s : State) : ∃ t, execLatch s = .next t := by
  rw [execLatch]
  split
  · exact ⟨_, rfl⟩
  · split
    · exact ⟨_, rfl⟩
    · exact exec_next _ _

end Sys2Proof.Machine
end

