-- ==== Sys2Proof/Laws/NoOrderTwo.lean ====
section
/-! SUPPORT. No point of the curve has y = 0 (00_scope.md rule R10: the curve has no element of order 2).
A root r of X³ - 3X + b modulo p would satisfy r ^ p = r, so it would be a root of X ^ p - X reduced modulo
the cubic; that remainder has an inverse modulo the cubic, so there is no such r. -/

namespace Sys2Proof.Machine

set_option Elab.async false

/-- A polynomial of degree at most 2, its coefficients from the constant one up. -/
abbrev Quad := Nat × Nat × Nat

/-- The product modulo X³ - 3X + b. -/
def quadMul (u v : Quad) : Quad :=
  let c3 := u.2.1 * v.2.2 + u.2.2 * v.2.1
  let c4 := u.2.2 * v.2.2
  ((u.1 * v.1 + (Config.p - Config.b) * c3) % Config.p,
   (u.1 * v.2.1 + u.2.1 * v.1 + 3 * c3 + (Config.p - Config.b) * c4) % Config.p,
   (u.1 * v.2.2 + u.2.1 * v.2.1 + u.2.2 * v.1 + 3 * c4) % Config.p)

/-- X ^ e modulo the cubic, by the `k` low bits of e. -/
def quadPow : Nat → Nat → Quad
  | 0, _ => (1, 0, 0)
  | k + 1, e =>
    let r := quadPow k (e / 2)
    if e % 2 = 1 then quadMul (quadMul r r) (0, 1, 0) else quadMul r r

/-- The value of the polynomial at x. -/
def quadEval (x : ZMod Config.p) (u : Quad) : ZMod Config.p := u.1 + u.2.1 * x + u.2.2 * x ^ 2

theorem b_le_p : Config.b ≤ Config.p := by decide +kernel

theorem quadEval_mul {x : ZMod Config.p} (h : x ^ 3 - 3 * x + (Config.b : ZMod Config.p) = 0) (u v : Quad) :
    quadEval x (quadMul u v) = quadEval x u * quadEval x v := by
  simp only [quadEval, quadMul, ZMod.natCast_mod, Nat.cast_add, Nat.cast_mul, Nat.cast_sub b_le_p,
    ZMod.natCast_self, Nat.cast_ofNat]
  linear_combination (-((u.2.1 : ZMod Config.p) * v.2.2 + u.2.2 * v.2.1) - (u.2.2 : ZMod Config.p) * v.2.2 * x) * h

theorem quadEval_pow {x : ZMod Config.p} (h : x ^ 3 - 3 * x + (Config.b : ZMod Config.p) = 0) :
    ∀ k e : Nat, e < 2 ^ k → quadEval x (quadPow k e) = x ^ e := by
  intro k
  induction k with
  | zero =>
    intro e he
    have h0 : e = 0 := by simpa using he
    simp [quadPow, quadEval, h0]
  | succ k ih =>
    intro e he
    have hd : e / 2 < 2 ^ k := by rw [pow_succ] at he; omega
    have hstep : x ^ e = (x ^ (e / 2) * x ^ (e / 2)) * x ^ (e % 2) := by
      rw [← pow_add, ← pow_add]
      congr 1
      omega
    rw [quadPow, hstep]
    rcases Nat.mod_two_eq_zero_or_one e with h2 | h2
    · simp only [h2, zero_ne_one, if_false, quadEval_mul h, ih _ hd, pow_zero, mul_one]
    · have hx : quadEval x (0, 1, 0) = x := by simp [quadEval]
      simp only [h2, if_true, quadEval_mul h, ih _ hd, hx, pow_one]

/-- X ^ p modulo the cubic. -/
def frobenius : Quad :=
  (0x35EE9AEC5294D58B89A8381D0568388A2C5A3BA167941ADB0288B9412AF8ECAD6E929C7B6E55FB52A805656A9A91D9CB,
   0xECD5182549221B8603468A475156CD2DA7CE40CB70F0F35282DD73976104BA9D6A8E21D8CC1F482A7710677E562EC48A,
   0x6508B289D6B5953A3B2BE3F17D4BE3BAE9D2E22F4C35F2927EBBA35F6A8389A8C8B6B1C1C8D50256ABFD4D4B32B7131A)

/-- The inverse of X ^ p - X modulo the cubic. -/
def frobeniusInverse : Quad :=
  (0x95ADEC811EBE8D4B9E2B41150D78F91A619189A415583B8F5E01888DA3353B61765CDE8CD6C12846310C3F0C10AAE682,
   0x3581B884702FB0931C541A5CACEFBE3BEA864DB86E01E048170560418DCA3AA8689F246D9D11CCD2E145532DD48491AF,
   0x4EFCEBFDCCD7CB25D1B864228F0C32D3A83EC026134AE4753BDFF5D3F1FA20B278B31DC3487BEB792024FE436F36B43A)

theorem quadPow_p : quadPow 384 Config.p = frobenius := by decide +kernel

theorem frobeniusInverse_mul :
    quadMul frobeniusInverse (frobenius.1, frobenius.2.1 + (Config.p - 1), frobenius.2.2) = (1, 0, 0) := by
  decide +kernel

/-- The cubic has no root modulo p. -/
theorem cubic_no_root [Fact (Nat.Prime Config.p)] (x : ZMod Config.p) :
    x ^ 3 - 3 * x + (Config.b : ZMod Config.p) ≠ 0 := by
  intro h
  have h1 : quadEval x frobenius = x := by
    rw [← quadPow_p, quadEval_pow h 384 Config.p p_lt, ZMod.pow_card]
  have h2 : quadEval x (frobenius.1, frobenius.2.1 + (Config.p - 1), frobenius.2.2) = 0 := by
    have hp : ((Config.p - 1 : Nat) : ZMod Config.p) = -1 := by
      rw [Nat.cast_sub p_pos, ZMod.natCast_self]
      simp
    simp only [quadEval, Nat.cast_add, hp] at h1 ⊢
    linear_combination h1
  have h3 := quadEval_mul h frobeniusInverse (frobenius.1, frobenius.2.1 + (Config.p - 1), frobenius.2.2)
  rw [frobeniusInverse_mul, h2, mul_zero] at h3
  simp [quadEval] at h3

/-- No x has a right side 0 in the curve equation. -/
theorem curveRhs_ne_zero (x : Nat) : curveRhs x ≠ 0 := by
  have := Fact.mk p384_prime
  intro h
  have h1 := curveRhs_zmod x
  rw [h, Nat.cast_zero] at h1
  exact cubic_no_root _ h1.symm

/-- No point of the curve has y = 0 (00_scope.md rule R10). -/
theorem onCurve_y_ne_zero {x y : Nat} (h : onCurve x y) : y ≠ 0 := by
  intro h0
  have h1 := h.2.2
  rw [h0, Nat.zero_mul, Nat.zero_mod] at h1
  exact curveRhs_ne_zero x h1.symm

end Sys2Proof.Machine
end

