-- ==== Sys2Proof/Laws/PerInstr.lean ====
section
/-! SUPPORT. The per-instruction family `EncodedRow`: the word of a well-formed command selects a row of the
opcode map (30_encoding.md rule R101) whose fields give the command back. -/

namespace Sys2Proof.Laws.EncodedRow

set_option Elab.async false

/-- The word of a well-formed command selects a row, and the row builds the command from it. -/
def Statement (i : Instr) : Prop :=
  i.wellFormed = true → ∃ r ∈ opcodeMap, r.selects (encode i) = true ∧ r.build (encode i) = i

theorem nop : Statement .nop := by
  intro _
  exact ⟨⟨0x00000000#32, 0xFFFFFFFF#32, 0#32, fun _ => .nop⟩, List.mem_of_getElem? (i := 0) rfl, by decide, rfl⟩

theorem clrerr : Statement .clrerr := by
  intro _
  exact ⟨⟨0x01000000#32, 0xFFFFFFFF#32, 0#32, fun _ => .clrerr⟩, List.mem_of_getElem? (i := 1) rfl, by decide, rfl⟩

theorem zeroize : Statement .zeroize := by
  intro _
  exact ⟨⟨0x02000000#32, 0xFFFFFFFF#32, 0#32, fun _ => .zeroize⟩, List.mem_of_getElem? (i := 2) rfl, by decide, rfl⟩

theorem ldx (d : XReg) (addr : Nat) : Statement (.ldx d addr) := by
  intro hwf
  have haddr : addr < 256 := by simpa [Instr.wellFormed] using hwf
  refine ⟨⟨0x10000000#32, 0xFF8FFF00#32, 0x00800000#32, fun w => .ldx (xRegOf (fieldA w)) (fieldAddr w)⟩, List.mem_of_getElem? (i := 3) rfl, ?_, ?_⟩
  · rw [Row.selects_iff, encode, formatI_and_mask _ _ _ (by decide)]
    clear hwf haddr
    revert d
    decide +kernel
  · simp only [encode, fieldA_formatI, fieldAddr_formatI, xRegOf_regField, byteField_toNat haddr]

theorem stx (r : XReg) (addr : Nat) : Statement (.stx r addr) := by
  intro hwf
  have haddr : addr < 256 := by simpa [Instr.wellFormed] using hwf
  refine ⟨⟨0x11000000#32, 0xFF8FFF00#32, 0x00800000#32, fun w => .stx (xRegOf (fieldA w)) (fieldAddr w)⟩, List.mem_of_getElem? (i := 4) rfl, ?_, ?_⟩
  · rw [Row.selects_iff, encode, formatI_and_mask _ _ _ (by decide)]
    clear hwf haddr
    revert r
    decide +kernel
  · simp only [encode, fieldA_formatI, fieldAddr_formatI, xRegOf_regField, byteField_toNat haddr]

theorem mov (d : XReg) (a : XReg) : Statement (.mov d a) := by
  intro _
  have hA := (by decide : ∀ r : XReg, regField r &&& fieldA 0xFF88FFFF#32 = 0#4) d
  have hB := (by decide : ∀ r : XReg, regField r &&& fieldB 0xFF88FFFF#32 = 0#4) a
  refine ⟨⟨0x12000000#32, 0xFF88FFFF#32, 0x00880000#32, fun w => .mov (xRegOf (fieldA w)) (xRegOf (fieldB w))⟩, List.mem_of_getElem? (i := 5) rfl, ?_, ?_⟩
  · simp only [Row.selects_iff, encode, formatR2_eq, formatR3_and, hA, hB]
    decide
  · simp only [encode, formatR2_eq, fieldA_formatR3, fieldB_formatR3, xRegOf_regField]

theorem ldc (d : XReg) (k : Const) : Statement (.ldc d k) := by
  intro _
  refine ⟨⟨0x13000000#32, 0xFF8FFFF8#32, 0x00800000#32, fun w => .ldc (xRegOf (fieldA w)) (constOf (w.extractLsb' 0 3))⟩, List.mem_of_getElem? (i := 6) rfl, ?_⟩
  cases k <;> (revert d; decide +kernel)

theorem cmp (a : XReg) (b : XReg) : Statement (.cmp a b) := by
  intro _
  have hB := (by decide : ∀ r : XReg, regField r &&& fieldB 0xFFF88FFF#32 = 0#4) a
  have hC := (by decide : ∀ r : XReg, regField r &&& fieldC 0xFFF88FFF#32 = 0#4) b
  refine ⟨⟨0x14000000#32, 0xFFF88FFF#32, 0x00088000#32, fun w => .cmp (xRegOf (fieldB w)) (xRegOf (fieldC w))⟩, List.mem_of_getElem? (i := 7) rfl, ?_, ?_⟩
  · simp only [Row.selects_iff, encode, formatR3_and, hB, hC]
    decide
  · simp only [encode, fieldB_formatR3, fieldC_formatR3, xRegOf_regField]

theorem fadd (d : XReg) (a : XReg) (b : XReg) : Statement (.fadd d a b) := by
  intro _
  have hA := (by decide : ∀ r : XReg, regField r &&& fieldA 0xFF888FFF#32 = 0#4) d
  have hB := (by decide : ∀ r : XReg, regField r &&& fieldB 0xFF888FFF#32 = 0#4) a
  have hC := (by decide : ∀ r : XReg, regField r &&& fieldC 0xFF888FFF#32 = 0#4) b
  refine ⟨rowXXX 0x20000000#32 .fadd, List.mem_of_getElem? (i := 8) rfl, ?_, ?_⟩
  · simp only [Row.selects_iff, encode, formatR3_and, hA, hB, hC, rowXXX]
    decide
  · simp only [encode, fieldA_formatR3, fieldB_formatR3, fieldC_formatR3, xRegOf_regField, rowXXX]

theorem fsub (d : XReg) (a : XReg) (b : XReg) : Statement (.fsub d a b) := by
  intro _
  have hA := (by decide : ∀ r : XReg, regField r &&& fieldA 0xFF888FFF#32 = 0#4) d
  have hB := (by decide : ∀ r : XReg, regField r &&& fieldB 0xFF888FFF#32 = 0#4) a
  have hC := (by decide : ∀ r : XReg, regField r &&& fieldC 0xFF888FFF#32 = 0#4) b
  refine ⟨rowXXX 0x21000000#32 .fsub, List.mem_of_getElem? (i := 9) rfl, ?_, ?_⟩
  · simp only [Row.selects_iff, encode, formatR3_and, hA, hB, hC, rowXXX]
    decide
  · simp only [encode, fieldA_formatR3, fieldB_formatR3, fieldC_formatR3, xRegOf_regField, rowXXX]

theorem fmul (d : XReg) (a : XReg) (b : XReg) : Statement (.fmul d a b) := by
  intro _
  have hA := (by decide : ∀ r : XReg, regField r &&& fieldA 0xFF888FFF#32 = 0#4) d
  have hB := (by decide : ∀ r : XReg, regField r &&& fieldB 0xFF888FFF#32 = 0#4) a
  have hC := (by decide : ∀ r : XReg, regField r &&& fieldC 0xFF888FFF#32 = 0#4) b
  refine ⟨rowXXX 0x22000000#32 .fmul, List.mem_of_getElem? (i := 10) rfl, ?_, ?_⟩
  · simp only [Row.selects_iff, encode, formatR3_and, hA, hB, hC, rowXXX]
    decide
  · simp only [encode, fieldA_formatR3, fieldB_formatR3, fieldC_formatR3, xRegOf_regField, rowXXX]

theorem fmmul (d : XReg) (a : XReg) (b : XReg) : Statement (.fmmul d a b) := by
  intro _
  have hA := (by decide : ∀ r : XReg, regField r &&& fieldA 0xFF888FFF#32 = 0#4) d
  have hB := (by decide : ∀ r : XReg, regField r &&& fieldB 0xFF888FFF#32 = 0#4) a
  have hC := (by decide : ∀ r : XReg, regField r &&& fieldC 0xFF888FFF#32 = 0#4) b
  refine ⟨rowXXX 0x23000000#32 .fmmul, List.mem_of_getElem? (i := 11) rfl, ?_, ?_⟩
  · simp only [Row.selects_iff, encode, formatR3_and, hA, hB, hC, rowXXX]
    decide
  · simp only [encode, fieldA_formatR3, fieldB_formatR3, fieldC_formatR3, xRegOf_regField, rowXXX]

theorem finv (d : XReg) (a : XReg) : Statement (.finv d a) := by
  intro _
  have hA := (by decide : ∀ r : XReg, regField r &&& fieldA 0xFF88FFFF#32 = 0#4) d
  have hB := (by decide : ∀ r : XReg, regField r &&& fieldB 0xFF88FFFF#32 = 0#4) a
  refine ⟨rowXX 0x24000000#32 .finv, List.mem_of_getElem? (i := 12) rfl, ?_, ?_⟩
  · simp only [Row.selects_iff, encode, formatR2_eq, formatR3_and, hA, hB, rowXX]
    decide
  · simp only [encode, formatR2_eq, fieldA_formatR3, fieldB_formatR3, xRegOf_regField, rowXX]

theorem fred (d : XReg) (a : XReg) : Statement (.fred d a) := by
  intro _
  have hA := (by decide : ∀ r : XReg, regField r &&& fieldA 0xFF88FFFF#32 = 0#4) d
  have hB := (by decide : ∀ r : XReg, regField r &&& fieldB 0xFF88FFFF#32 = 0#4) a
  refine ⟨rowXX 0x25000000#32 .fred, List.mem_of_getElem? (i := 13) rfl, ?_, ?_⟩
  · simp only [Row.selects_iff, encode, formatR2_eq, formatR3_and, hA, hB, rowXX]
    decide
  · simp only [encode, formatR2_eq, fieldA_formatR3, fieldB_formatR3, xRegOf_regField, rowXX]

theorem fsqrt (d : XReg) (a : XReg) : Statement (.fsqrt d a) := by
  intro _
  have hA := (by decide : ∀ r : XReg, regField r &&& fieldA 0xFF88FFFF#32 = 0#4) d
  have hB := (by decide : ∀ r : XReg, regField r &&& fieldB 0xFF88FFFF#32 = 0#4) a
  refine ⟨rowXX 0x26000000#32 .fsqrt, List.mem_of_getElem? (i := 14) rfl, ?_, ?_⟩
  · simp only [Row.selects_iff, encode, formatR2_eq, formatR3_and, hA, hB, rowXX]
    decide
  · simp only [encode, formatR2_eq, fieldA_formatR3, fieldB_formatR3, xRegOf_regField, rowXX]

theorem nadd (d : XReg) (a : XReg) (b : XReg) : Statement (.nadd d a b) := by
  intro _
  have hA := (by decide : ∀ r : XReg, regField r &&& fieldA 0xFF888FFF#32 = 0#4) d
  have hB := (by decide : ∀ r : XReg, regField r &&& fieldB 0xFF888FFF#32 = 0#4) a
  have hC := (by decide : ∀ r : XReg, regField r &&& fieldC 0xFF888FFF#32 = 0#4) b
  refine ⟨rowXXX 0x30000000#32 .nadd, List.mem_of_getElem? (i := 15) rfl, ?_, ?_⟩
  · simp only [Row.selects_iff, encode, formatR3_and, hA, hB, hC, rowXXX]
    decide
  · simp only [encode, fieldA_formatR3, fieldB_formatR3, fieldC_formatR3, xRegOf_regField, rowXXX]

theorem nsub (d : XReg) (a : XReg) (b : XReg) : Statement (.nsub d a b) := by
  intro _
  have hA := (by decide : ∀ r : XReg, regField r &&& fieldA 0xFF888FFF#32 = 0#4) d
  have hB := (by decide : ∀ r : XReg, regField r &&& fieldB 0xFF888FFF#32 = 0#4) a
  have hC := (by decide : ∀ r : XReg, regField r &&& fieldC 0xFF888FFF#32 = 0#4) b
  refine ⟨rowXXX 0x31000000#32 .nsub, List.mem_of_getElem? (i := 16) rfl, ?_, ?_⟩
  · simp only [Row.selects_iff, encode, formatR3_and, hA, hB, hC, rowXXX]
    decide
  · simp only [encode, fieldA_formatR3, fieldB_formatR3, fieldC_formatR3, xRegOf_regField, rowXXX]

theorem nmul (d : XReg) (a : XReg) (b : XReg) : Statement (.nmul d a b) := by
  intro _
  have hA := (by decide : ∀ r : XReg, regField r &&& fieldA 0xFF888FFF#32 = 0#4) d
  have hB := (by decide : ∀ r : XReg, regField r &&& fieldB 0xFF888FFF#32 = 0#4) a
  have hC := (by decide : ∀ r : XReg, regField r &&& fieldC 0xFF888FFF#32 = 0#4) b
  refine ⟨rowXXX 0x32000000#32 .nmul, List.mem_of_getElem? (i := 17) rfl, ?_, ?_⟩
  · simp only [Row.selects_iff, encode, formatR3_and, hA, hB, hC, rowXXX]
    decide
  · simp only [encode, fieldA_formatR3, fieldB_formatR3, fieldC_formatR3, xRegOf_regField, rowXXX]

theorem nmmul (d : XReg) (a : XReg) (b : XReg) : Statement (.nmmul d a b) := by
  intro _
  have hA := (by decide : ∀ r : XReg, regField r &&& fieldA 0xFF888FFF#32 = 0#4) d
  have hB := (by decide : ∀ r : XReg, regField r &&& fieldB 0xFF888FFF#32 = 0#4) a
  have hC := (by decide : ∀ r : XReg, regField r &&& fieldC 0xFF888FFF#32 = 0#4) b
  refine ⟨rowXXX 0x33000000#32 .nmmul, List.mem_of_getElem? (i := 18) rfl, ?_, ?_⟩
  · simp only [Row.selects_iff, encode, formatR3_and, hA, hB, hC, rowXXX]
    decide
  · simp only [encode, fieldA_formatR3, fieldB_formatR3, fieldC_formatR3, xRegOf_regField, rowXXX]

theorem ninv (d : XReg) (a : XReg) : Statement (.ninv d a) := by
  intro _
  have hA := (by decide : ∀ r : XReg, regField r &&& fieldA 0xFF88FFFF#32 = 0#4) d
  have hB := (by decide : ∀ r : XReg, regField r &&& fieldB 0xFF88FFFF#32 = 0#4) a
  refine ⟨rowXX 0x34000000#32 .ninv, List.mem_of_getElem? (i := 19) rfl, ?_, ?_⟩
  · simp only [Row.selects_iff, encode, formatR2_eq, formatR3_and, hA, hB, rowXX]
    decide
  · simp only [encode, formatR2_eq, fieldA_formatR3, fieldB_formatR3, xRegOf_regField, rowXX]

theorem nred (d : XReg) (a : XReg) : Statement (.nred d a) := by
  intro _
  have hA := (by decide : ∀ r : XReg, regField r &&& fieldA 0xFF88FFFF#32 = 0#4) d
  have hB := (by decide : ∀ r : XReg, regField r &&& fieldB 0xFF88FFFF#32 = 0#4) a
  refine ⟨rowXX 0x35000000#32 .nred, List.mem_of_getElem? (i := 20) rfl, ?_, ?_⟩
  · simp only [Row.selects_iff, encode, formatR2_eq, formatR3_and, hA, hB, rowXX]
    decide
  · simp only [encode, formatR2_eq, fieldA_formatR3, fieldB_formatR3, xRegOf_regField, rowXX]

theorem pinf (d : PReg) : Statement (.pinf d) := by
  intro _
  have hA := (by decide : ∀ r : PReg, regField r &&& fieldA 0xFFCFFFFF#32 = 0#4) d
  refine ⟨⟨0x40000000#32, 0xFFCFFFFF#32, 0x00C00000#32, fun w => .pinf (pRegOf (fieldA w))⟩, List.mem_of_getElem? (i := 21) rfl, ?_, ?_⟩
  · simp only [Row.selects_iff, encode, formatR1_eq, formatR3_and, hA]
    decide
  · simp only [encode, formatR1_eq, fieldA_formatR3, pRegOf_regField]

theorem pldg (d : PReg) : Statement (.pldg d) := by
  intro _
  have hA := (by decide : ∀ r : PReg, regField r &&& fieldA 0xFFCFFFFF#32 = 0#4) d
  refine ⟨⟨0x41000000#32, 0xFFCFFFFF#32, 0x00C00000#32, fun w => .pldg (pRegOf (fieldA w))⟩, List.mem_of_getElem? (i := 22) rfl, ?_, ?_⟩
  · simp only [Row.selects_iff, encode, formatR1_eq, formatR3_and, hA]
    decide
  · simp only [encode, formatR1_eq, fieldA_formatR3, pRegOf_regField]

theorem pset (d : PReg) (a : XReg) (b : XReg) : Statement (.pset d a b) := by
  intro _
  have hA := (by decide : ∀ r : PReg, regField r &&& fieldA 0xFFC88FFF#32 = 0#4) d
  have hB := (by decide : ∀ r : XReg, regField r &&& fieldB 0xFFC88FFF#32 = 0#4) a
  have hC := (by decide : ∀ r : XReg, regField r &&& fieldC 0xFFC88FFF#32 = 0#4) b
  refine ⟨⟨0x42000000#32, 0xFFC88FFF#32, 0x00C88000#32, fun w => .pset (pRegOf (fieldA w)) (xRegOf (fieldB w)) (xRegOf (fieldC w))⟩, List.mem_of_getElem? (i := 23) rfl, ?_, ?_⟩
  · simp only [Row.selects_iff, encode, formatR3_and, hA, hB, hC]
    decide
  · simp only [encode, fieldA_formatR3, fieldB_formatR3, fieldC_formatR3, pRegOf_regField, xRegOf_regField]

theorem pgetx (d : XReg) (a : PReg) : Statement (.pgetx d a) := by
  intro _
  have hA := (by decide : ∀ r : XReg, regField r &&& fieldA 0xFF8CFFFF#32 = 0#4) d
  have hB := (by decide : ∀ r : PReg, regField r &&& fieldB 0xFF8CFFFF#32 = 0#4) a
  refine ⟨⟨0x43000000#32, 0xFF8CFFFF#32, 0x008C0000#32, fun w => .pgetx (xRegOf (fieldA w)) (pRegOf (fieldB w))⟩, List.mem_of_getElem? (i := 24) rfl, ?_, ?_⟩
  · simp only [Row.selects_iff, encode, formatR2_eq, formatR3_and, hA, hB]
    decide
  · simp only [encode, formatR2_eq, fieldA_formatR3, fieldB_formatR3, pRegOf_regField, xRegOf_regField]

theorem pgety (d : XReg) (a : PReg) : Statement (.pgety d a) := by
  intro _
  have hA := (by decide : ∀ r : XReg, regField r &&& fieldA 0xFF8CFFFF#32 = 0#4) d
  have hB := (by decide : ∀ r : PReg, regField r &&& fieldB 0xFF8CFFFF#32 = 0#4) a
  refine ⟨⟨0x44000000#32, 0xFF8CFFFF#32, 0x008C0000#32, fun w => .pgety (xRegOf (fieldA w)) (pRegOf (fieldB w))⟩, List.mem_of_getElem? (i := 25) rfl, ?_, ?_⟩
  · simp only [Row.selects_iff, encode, formatR2_eq, formatR3_and, hA, hB]
    decide
  · simp only [encode, formatR2_eq, fieldA_formatR3, fieldB_formatR3, pRegOf_regField, xRegOf_regField]

theorem pmov (d : PReg) (a : PReg) : Statement (.pmov d a) := by
  intro _
  have hA := (by decide : ∀ r : PReg, regField r &&& fieldA 0xFFCCFFFF#32 = 0#4) d
  have hB := (by decide : ∀ r : PReg, regField r &&& fieldB 0xFFCCFFFF#32 = 0#4) a
  refine ⟨⟨0x45000000#32, 0xFFCCFFFF#32, 0x00CC0000#32, fun w => .pmov (pRegOf (fieldA w)) (pRegOf (fieldB w))⟩, List.mem_of_getElem? (i := 26) rfl, ?_, ?_⟩
  · simp only [Row.selects_iff, encode, formatR2_eq, formatR3_and, hA, hB]
    decide
  · simp only [encode, formatR2_eq, fieldA_formatR3, fieldB_formatR3, pRegOf_regField]

theorem pdbl (d : PReg) (a : PReg) : Statement (.pdbl d a) := by
  intro _
  have hA := (by decide : ∀ r : PReg, regField r &&& fieldA 0xFFCCFFFF#32 = 0#4) d
  have hB := (by decide : ∀ r : PReg, regField r &&& fieldB 0xFFCCFFFF#32 = 0#4) a
  refine ⟨⟨0x46000000#32, 0xFFCCFFFF#32, 0x00CC0000#32, fun w => .pdbl (pRegOf (fieldA w)) (pRegOf (fieldB w))⟩, List.mem_of_getElem? (i := 27) rfl, ?_, ?_⟩
  · simp only [Row.selects_iff, encode, formatR2_eq, formatR3_and, hA, hB]
    decide
  · simp only [encode, formatR2_eq, fieldA_formatR3, fieldB_formatR3, pRegOf_regField]

theorem padd (d : PReg) (a : PReg) (b : PReg) : Statement (.padd d a b) := by
  intro _
  have hA := (by decide : ∀ r : PReg, regField r &&& fieldA 0xFFCCCFFF#32 = 0#4) d
  have hB := (by decide : ∀ r : PReg, regField r &&& fieldB 0xFFCCCFFF#32 = 0#4) a
  have hC := (by decide : ∀ r : PReg, regField r &&& fieldC 0xFFCCCFFF#32 = 0#4) b
  refine ⟨⟨0x47000000#32, 0xFFCCCFFF#32, 0x00CCC000#32, fun w => .padd (pRegOf (fieldA w)) (pRegOf (fieldB w)) (pRegOf (fieldC w))⟩, List.mem_of_getElem? (i := 28) rfl, ?_, ?_⟩
  · simp only [Row.selects_iff, encode, formatR3_and, hA, hB, hC]
    decide
  · simp only [encode, fieldA_formatR3, fieldB_formatR3, fieldC_formatR3, pRegOf_regField]

theorem pmul (d : PReg) (k : XReg) (b : PReg) : Statement (.pmul d k b) := by
  intro _
  have hA := (by decide : ∀ r : PReg, regField r &&& fieldA 0xFFC8CFFF#32 = 0#4) d
  have hB := (by decide : ∀ r : XReg, regField r &&& fieldB 0xFFC8CFFF#32 = 0#4) k
  have hC := (by decide : ∀ r : PReg, regField r &&& fieldC 0xFFC8CFFF#32 = 0#4) b
  refine ⟨⟨0x48000000#32, 0xFFC8CFFF#32, 0x00C8C000#32, fun w => .pmul (pRegOf (fieldA w)) (xRegOf (fieldB w)) (pRegOf (fieldC w))⟩, List.mem_of_getElem? (i := 29) rfl, ?_, ?_⟩
  · simp only [Row.selects_iff, encode, formatR3_and, hA, hB, hC]
    decide
  · simp only [encode, fieldA_formatR3, fieldB_formatR3, fieldC_formatR3, pRegOf_regField, xRegOf_regField]

theorem penc (r : PReg) (addr : Nat) : Statement (.penc r addr) := by
  intro hwf
  have haddr : addr < 256 := by simpa [Instr.wellFormed] using hwf
  refine ⟨⟨0x49000000#32, 0xFFCFFF00#32, 0x00C00000#32, fun w => .penc (pRegOf (fieldA w)) (fieldAddr w)⟩, List.mem_of_getElem? (i := 30) rfl, ?_, ?_⟩
  · rw [Row.selects_iff, encode, formatI_and_mask _ _ _ (by decide)]
    clear hwf haddr
    revert r
    decide +kernel
  · simp only [encode, fieldA_formatI, fieldAddr_formatI, pRegOf_regField, byteField_toNat haddr]

theorem pdec (d : PReg) (addr : Nat) (len : Nat) : Statement (.pdec d addr len) := by
  intro hwf
  have hfit : addr < 256 ∧ len < 256 := by simpa [Instr.wellFormed] using hwf
  refine ⟨⟨0x4A000000#32, 0xFFCF0000#32, 0x00C00000#32, fun w => .pdec (pRegOf (fieldA w)) (fieldAddr w) (fieldLen w)⟩, List.mem_of_getElem? (i := 31) rfl, ?_, ?_⟩
  · rw [Row.selects_iff, encode, formatD_and_mask _ _ _ _ (by decide)]
    clear hwf hfit
    revert d
    decide +kernel
  · simp only [encode, fieldA_formatD, fieldAddr_formatD, fieldLen_formatD, pRegOf_regField,
      byteField_toNat hfit.1, byteField_toNat hfit.2]

end Sys2Proof.Laws.EncodedRow
end

