-- ==== Sys2Proof/Laws/PointMul.lean ====
section
/-! SUPPORT. Scalar multiplication: the repeated addition of 00_scope.md rule R10 is the multiple of the
group, double-and-add computes the same point, and so `ptMulEval`, which the machine runs, is `ptMul`. -/

namespace Sys2Proof.Machine

section
variable [Fact (Nat.Prime Config.p)]

/-- pt_mul keeps the curve and is the multiple in the group. -/
theorem ptMul_spec {q : PointVal} (hq : q.valid = true) (k : Nat) :
    (ptMul k q).valid = true ∧ toPoint (ptMul k q) = k • toPoint q := by
  induction k with
  | zero => exact ⟨rfl, (zero_nsmul _).symm⟩
  | succ k ih =>
    have h := ptAdd_spec ih.1 hq
    rw [ptMul]
    exact ⟨h.1, by rw [h.2, ih.2, succ_nsmul]⟩

/-- Double-and-add over enough bits keeps the curve and is the multiple in the group. -/
theorem doubleAndAdd_spec {q : PointVal} (hq : q.valid = true) :
    ∀ n k : Nat, k < 2 ^ n →
      (doubleAndAdd q n k).valid = true ∧ toPoint (doubleAndAdd q n k) = k • toPoint q := by
  intro n
  induction n with
  | zero =>
    intro k hk
    have : k = 0 := by simpa using hk
    subst this
    exact ⟨rfl, (zero_nsmul _).symm⟩
  | succ n ih =>
    intro k hk
    have hdiv : k / 2 < 2 ^ n := by rw [pow_succ] at hk; omega
    obtain ⟨hv, hp⟩ := ih _ hdiv
    obtain ⟨hdv, hdp⟩ := ptDbl_spec hv
    rw [doubleAndAdd, ladderStep]
    split
    · next hbit =>
      obtain ⟨hav, hap⟩ := ptAdd_spec hdv hq
      refine ⟨hav, ?_⟩
      rw [hap, hdp, hp, ← add_nsmul, ← succ_nsmul]
      congr 1
      omega
    · next hbit =>
      refine ⟨hdv, ?_⟩
      rw [hdp, hp, ← add_nsmul]
      congr 1
      omega

end

/-- What the machine evaluates is pt_mul of 00_scope.md rule R10, for every scalar and every value of a
point register. -/
theorem ptMulEval_eq_ptMul (k : Nat) (q : PointVal) : ptMulEval k q = ptMul k q := by
  have := Fact.mk p384_prime
  rw [ptMulEval]
  split
  · next hq =>
    obtain ⟨hv, hp⟩ := doubleAndAdd_spec hq (k.log2 + 1) k Nat.lt_log2_self
    obtain ⟨hv', hp'⟩ := ptMul_spec hq k
    exact toPoint_injective hv hv' (hp.trans hp'.symm)
  · rfl

/-- pt_mul maps curve points to curve points. -/
theorem ptMul_valid {q : PointVal} (hq : q.valid = true) (k : Nat) : (ptMul k q).valid = true :=
  have := Fact.mk p384_prime
  (ptMul_spec hq k).1

end Sys2Proof.Machine
end

