-- ==== Sys2Proof/Laws/Root.lean ====
section
/-! SUPPORT. Square roots modulo p (00_scope.md rule R10: p mod 4 = 3) and the selection of a root by the
parity of a tag (45_codec.md rules R190, R192). -/

namespace Sys2Proof.Machine

theorem p_mod_four : Config.p % 4 = 3 := by decide

theorem sqrtP_lt (v : Nat) : sqrtP v < Config.p := powMod_lt _ _ p_pos

/-- The formula of 42_field.md rule R147 gives a root of every square. -/
theorem sqrtP_sq {v : Nat} (hv : v < Config.p) (h : ∃ y, y * y % Config.p = v) :
    sqrtP v * sqrtP v % Config.p = v := by
  have := Fact.mk p384_prime
  obtain ⟨y, hy⟩ := h
  have hvy : (v : ZMod Config.p) = (y : ZMod Config.p) ^ 2 := by
    rw [← hy, ZMod.natCast_mod, Nat.cast_mul, sq]
  have h1 : ((sqrtP v * sqrtP v : Nat) : ZMod Config.p) = (v : ZMod Config.p) := by
    have hexp : 2 * ((Config.p + 1) / 4 + (Config.p + 1) / 4) = Config.p + 1 := by
      have := p_mod_four
      omega
    rw [Nat.cast_mul, sqrtP, powMod_zmod, hvy, ← pow_add, ← pow_mul, hexp, pow_succ, ZMod.pow_card, sq]
  have h2 := (ZMod.natCast_eq_natCast_iff' _ _ _).mp h1
  rwa [Nat.mod_eq_of_lt hv] at h2

/-- A value is a square modulo p exactly when the formula gives a root of it. -/
theorem square_iff_sqrtP {v : Nat} (hv : v < Config.p) :
    (∃ y, y * y % Config.p = v) ↔ sqrtP v * sqrtP v % Config.p = v :=
  ⟨sqrtP_sq hv, fun h => ⟨_, h⟩⟩

/-- Two canonical values with the same square are equal or opposite. -/
theorem eq_or_neg_of_sq {u r : Nat} (hu : u < Config.p) (hr : r < Config.p)
    (h : u * u % Config.p = r * r % Config.p) : u = r ∨ (r ≠ 0 ∧ u = Config.p - r) := by
  have := Fact.mk p384_prime
  have h1 : ((u * u : Nat) : ZMod Config.p) = ((r * r : Nat) : ZMod Config.p) :=
    (ZMod.natCast_eq_natCast_iff' _ _ _).mpr h
  push_cast at h1
  rcases mul_self_eq_mul_self_iff.mp h1 with he | he
  · exact .inl (eq_of_zmod_eq hu hr he)
  · by_cases h0 : r = 0
    · left
      refine eq_of_zmod_eq hu hr ?_
      rw [he, h0, Nat.cast_zero, neg_zero]
    · right
      refine ⟨h0, eq_of_zmod_eq hu (by omega) ?_⟩
      rw [he, Nat.cast_sub hr.le, ZMod.natCast_self, zero_sub]

/-- The parity selection of PDEC finds the root whose parity the tag gives (45_codec.md rule R192). -/
theorem rootOfParity_eq {u r tag : Nat} (hu : u < Config.p) (hr : r < Config.p)
    (h : u * u % Config.p = r * r % Config.p) (htag : tag % 2 = u % 2) : rootOfParity r tag = u := by
  have hodd : Config.p % 2 = 1 := by have := p_mod_four; omega
  rw [rootOfParity]
  rcases eq_or_neg_of_sq hu hr h with he | ⟨h0, he⟩
  · rw [if_pos (by omega), he]
  · rw [if_neg (by omega), Nat.mod_eq_of_lt (by omega), he]

/-- The selected root is canonical and has the same square. -/
theorem rootOfParity_spec {r tag : Nat} (hr : r < Config.p) :
    rootOfParity r tag < Config.p ∧
      rootOfParity r tag * rootOfParity r tag % Config.p = r * r % Config.p := by
  have := Fact.mk p384_prime
  rw [rootOfParity]
  split
  · exact ⟨hr, rfl⟩
  · refine ⟨Nat.mod_lt _ p_pos, ?_⟩
    rw [← ZMod.natCast_eq_natCast_iff']
    push_cast
    rw [ZMod.natCast_mod, Nat.cast_sub hr.le, ZMod.natCast_self]
    ring

theorem curveRhs_lt (x : Nat) : curveRhs x < Config.p := imod_lt _ p_pos

/-- Both tags are 0x02 plus a parity, and a byte has the parity of the tag (45_codec.md rule R190). -/
theorem tagOf_toNat (y : Nat) : (tagOf y).toNat = 2 + y % 2 := by
  rw [tagOf, BitVec.toNat_ofNat]
  omega

/-- The tag written by PENC is one PDEC recognises. -/
theorem tagOf_recognised (y : Nat) : tagOf y = 0x02#8 ∨ tagOf y = 0x03#8 := by
  have h := tagOf_toNat y
  rcases Nat.mod_two_eq_zero_or_one y with h0 | h0
  · left
    exact BitVec.eq_of_toNat_eq (by rw [h, h0]; rfl)
  · right
    exact BitVec.eq_of_toNat_eq (by rw [h, h0]; rfl)

end Sys2Proof.Machine
end

