-- ==== Sys2Proof/Laws/Points.lean ====
section
/-! SUPPORT. What the point formulas and the point decoder give. -/

namespace Sys2Proof.Machine

theorem PointVal.isInf_iff (q : PointVal) : q.isInf = true ↔ q = .inf := by
  cases q <;> simp [PointVal.isInf]

/-- The coordinates of the third point of a line (00_scope.md rule R10). -/
theorem chordPoint_coords (lam x1 y1 x2 : Nat) :
    ∃ x3 y3 : Val, chordPoint lam x1 y1 x2 = .aff x3 y3 ∧
      (x3.toNat : ZMod Config.p) = (lam : ZMod Config.p) ^ 2 - x1 - x2 ∧
      (y3.toNat : ZMod Config.p) = (lam : ZMod Config.p) * ((x1 : ZMod Config.p) - x3.toNat) - y1 := by
  refine ⟨_, _, rfl, ?_, ?_⟩
  · rw [val_toNat_ofNat (imod_lt _ p_pos) p_lt, imod_zmod _ p_pos]
    push_cast
    ring
  · rw [val_toNat_ofNat (imod_lt _ p_pos) p_lt, val_toNat_ofNat (imod_lt _ p_pos) p_lt, imod_zmod _ p_pos]
    push_cast
    ring

/-- The opposite of a curve point is another point: no curve point has y = 0. -/
theorem neg_y_ne {x y : Val} (h : onCurve x.toNat y.toNat) :
    BitVec.ofNat 384 ((Config.p - y.toNat) % Config.p) ≠ y := by
  intro he
  have h0 := onCurve_y_ne_zero h
  have hlt := h.2.1
  have h1 := congrArg BitVec.toNat he
  rw [val_toNat_ofNat (Nat.mod_lt _ p_pos) p_lt, Nat.mod_eq_of_lt (by omega)] at h1
  have := p_mod_four
  omega

/-- neg maps curve points to curve points. -/
theorem ptNeg_valid {q : PointVal} (hq : q.valid = true) : (ptNeg q).valid = true := by
  match q with
  | .inf => rfl
  | .aff x y =>
    have h := valid_aff.mp hq
    have h0 := onCurve_y_ne_zero h
    have hlt := h.2.1
    rw [ptNeg]
    apply valid_aff.mpr
    rw [val_toNat_ofNat (Nat.mod_lt _ p_pos) p_lt, Nat.mod_eq_of_lt (by omega)]
    rw [onCurve_iff_zmod] at h ⊢
    refine ⟨h.1, by omega, ?_⟩
    rw [Nat.cast_sub hlt.le, ZMod.natCast_self, ← h.2.2]
    ring

/-- One of the two roots has the parity of the tag (45_codec.md rule R190). -/
theorem exists_root_of_parity {xx y : Nat} (tag : Nat) (h : onCurve xx y) :
    ∃ y', onCurve xx y' ∧ y' % 2 = tag % 2 := by
  by_cases hp : y % 2 = tag % 2
  · exact ⟨y, h, hp⟩
  · have h0 := onCurve_y_ne_zero h
    have hodd := p_mod_four
    have hlt := h.2.1
    have hr : rootOfParity y tag = Config.p - y := by
      rw [rootOfParity, if_neg hp, Nat.mod_eq_of_lt (by omega)]
    obtain ⟨h1, h2⟩ := rootOfParity_spec (tag := tag) h.2.1
    rw [hr] at h1 h2
    exact ⟨_, ⟨h.1, h1, h2.trans h.2.2⟩, by omega⟩

/-- The decoder finds the point with the x of the buffer and the parity of the tag. -/
theorem decodePoint_of {d : PReg} {tag xx y : Nat} {s : State} (h : onCurve xx y) (ht : y % 2 = tag % 2) :
    decodePoint d tag xx s = .next (s.setPointResult d (affOf xx y)) := by
  have hs := sqrtP_sq (curveRhs_lt xx) ⟨y, h.2.2⟩
  rw [decodePoint, if_neg (Nat.not_le.mpr h.1), if_neg (not_not.mpr hs),
    rootOfParity_eq h.2.1 (sqrtP_lt _) (h.2.2.trans hs.symm) ht.symm]

/-- Without such a point the decoder ends in NOT_ON_CURVE. -/
theorem decodePoint_not {d : PReg} {tag xx : Nat} {s : State} (h : ¬∃ y, onCurve xx y) :
    decodePoint d tag xx s = .next (s.raise .notOnCurve) := by
  rw [decodePoint]
  split
  · rfl
  · next hlt => rw [if_pos fun hs => h ⟨_, Nat.not_le.mp hlt, sqrtP_lt _, hs⟩]

/-- PDEC once the length, the range and the tag are accepted (45_codec.md rule R192). -/
theorem execPdec_tagged {d : PReg} {addr : Nat} {s : State} (hf : addr + 49 ≤ 256)
    (ht : s.byteAt addr = 0x02#8 ∨ s.byteAt addr = 0x03#8) :
    execPdec d addr 49 s = decodePoint d (s.byteAt addr).toNat (s.memRead (addr + 1) 48) s := by
  have htag : ¬(s.byteAt addr ≠ 0x02#8 ∧ s.byteAt addr ≠ 0x03#8) := by
    rcases ht with h | h <;> simp [h]
  rw [execPdec, if_neg (by simp), requireFits_of _ hf, if_neg htag]

end Sys2Proof.Machine
end

