-- ==== Sys2Proof/Laws/Step.lean ====
section
/-! SUPPORT. What a command and a step can do: one inversion lemma for each. -/

namespace Sys2Proof.Machine

/-- The error entry of a command, as the statements say it. -/
theorem RaisesError.of_exec {i : Instr} {c : ErrCode} {s : State} (h : exec i s = .next (s.raise c)) :
    RaisesError i c s :=
  ⟨_, h, State.raise_endsInError s c⟩

/-- The ways a command can end: the error entry with one of its own errors, or the update of its flag class. -/
def Ends (i : Instr) (s t : State) : Prop :=
  (∃ c ∈ raisableErrors i, t = s.raise c) ∨
  (flagClass i = .none ∧ ∃ d v, t = s.setX d v) ∨
  (∃ d v, flagClass i = .zero d ∧ t = (s.setX d v).setZ (decide (v = 0#384))) ∨
  (∃ d q, flagClass i = .inf d ∧ t = s.setPointResult d q ∧ (s.pointsOk → q.valid = true)) ∨
  (flagClass i = .none ∧ ∃ b, t = { s with buf := b } ∧ (Memory.wf s.buf = true → Memory.wf b = true)) ∨
  (i = .clrerr ∧ t = s.clearError) ∨
  (i = .zeroize ∧ t = s.clearData.clearFlags) ∨
  ∃ a b, i = .cmp a b ∧ t = s.setCompare (s.xNat a) (s.xNat b)

theorem Ends.error {i : Instr} {s t : State} {c : ErrCode} (hc : c ∈ raisableErrors i) (h : t = s.raise c) :
    Ends i s t := .inl ⟨c, hc, h⟩

theorem Ends.x {i : Instr} {s : State} (hi : flagClass i = .none) (d : XReg) (v : Val) :
    Ends i s (s.setX d v) := .inr (.inl ⟨hi, d, v, rfl⟩)

theorem Ends.xz {i : Instr} {s : State} {d : XReg} (hi : flagClass i = .zero d) (v : Val) :
    Ends i s ((s.setX d v).setZ (decide (v = 0#384))) := .inr (.inr (.inl ⟨d, v, hi, rfl⟩))

theorem Ends.point {i : Instr} {s : State} {d : PReg} (hi : flagClass i = .inf d) {q : PointVal}
    (hq : s.pointsOk → q.valid = true) : Ends i s (s.setPointResult d q) :=
  .inr (.inr (.inr (.inl ⟨d, q, hi, rfl, hq⟩)))

theorem Ends.store {i : Instr} {s : State} (hi : flagClass i = .none) {b : List Host.Cell}
    (hb : Memory.wf s.buf = true → Memory.wf b = true) : Ends i s { s with buf := b } :=
  .inr (.inr (.inr (.inr (.inl ⟨hi, b, rfl, hb⟩))))

/-- The inverse an inverter writes is not 0, so the Z it writes is the Z of its result (42_field.md rule R145,
43_scalar.md rule R165). -/
theorem inverse_zero_flag {m a : Nat} (hm : m.Prime) (hlt : m < 2 ^ 384) (h0 : 0 < a) (ha : a < m) :
    decide (BitVec.ofNat 384 (invMod m a) = 0#384) = false := by
  obtain ⟨hpos, hinv, _⟩ := invMod_spec hm h0 ha
  refine decide_eq_false fun h => ?_
  have h1 : invMod m a % 2 ^ 384 = 0 := by simpa using congrArg BitVec.toNat h
  rw [Nat.mod_eq_of_lt (hinv.trans hlt)] at h1
  omega

/-- Everything a command can do when it gives a next state. -/
theorem exec_cases {i : Instr} {s t : State} (h : exec i s = .next t) : Ends i s t := by
  have hb : Config.bufSize = 256 := rfl
  cases i with
  | nop =>
    cases h
    exact .store rfl fun h => h
  | clrerr =>
    cases h
    exact .inr (.inr (.inr (.inr (.inr (.inl ⟨rfl, rfl⟩)))))
  | zeroize =>
    cases h
    exact .inr (.inr (.inr (.inr (.inr (.inr (.inl ⟨rfl, rfl⟩))))))
  | ldx d addr =>
    rcases requireFits_cases h with ⟨_, h⟩ | ⟨_, h⟩
    · cases h
      exact .x rfl _ _
    · exact .error (by simp [raisableErrors]) h
  | stx r addr =>
    rcases requireFits_cases h with ⟨hf, h⟩ | ⟨_, h⟩
    · cases h
      exact .store rfl fun h => Memory.wf_write h (by omega)
    · exact .error (by simp [raisableErrors]) h
  | mov d a | ldc d k =>
    cases h
    exact .x rfl _ _
  | cmp a b =>
    cases h
    exact .inr (.inr (.inr (.inr (.inr (.inr (.inr ⟨a, b, rfl, rfl⟩))))))
  | fadd d a b | fsub d a b | fmul d a b | fmmul d a b | nadd d a b | nsub d a b | nmul d a b | nmmul d a b =>
    rcases execBinary_cases h with ⟨_, _, h⟩ | ⟨_, h⟩
    · cases h
      exact .xz rfl _
    · exact .error (by simp [raisableErrors]) h
  | finv d a =>
    rcases execInverse_cases h with ⟨h0, ha, h⟩ | ⟨_, h⟩ | ⟨_, h⟩
    · rw [h, ← inverse_zero_flag p384_prime p_lt h0 ha]
      exact .xz rfl _
    · exact .error (by simp [raisableErrors]) h
    · exact .error (by simp [raisableErrors]) h
  | ninv d a =>
    rcases execInverse_cases h with ⟨h0, ha, h⟩ | ⟨_, h⟩ | ⟨_, h⟩
    · rw [h, ← inverse_zero_flag n384_prime n_lt h0 ha]
      exact .xz rfl _
    · exact .error (by simp [raisableErrors]) h
    · exact .error (by simp [raisableErrors]) h
  | fred d a | nred d a =>
    cases h
    exact .xz rfl _
  | fsqrt d a =>
    rcases requireCanonical_cases h with ⟨_, h⟩ | ⟨_, h⟩
    · split at h
      · cases h
        exact .error (by simp [raisableErrors]) rfl
      · cases h
        exact .xz rfl _
    · exact .error (by simp [raisableErrors]) h
  | pinf d =>
    cases h
    exact .point rfl fun _ => rfl
  | pldg d =>
    cases h
    exact .point rfl fun _ => by decide +kernel
  | pset d a b =>
    rcases requireCanonical_cases h with ⟨hc, h⟩ | ⟨_, h⟩
    · split at h
      · cases h
        exact .error (by simp [raisableErrors]) rfl
      · next hs =>
        cases h
        exact .point rfl fun _ => valid_aff.mpr ⟨hc a (by simp), hc b (by simp), not_not.mp hs⟩
    · exact .error (by simp [raisableErrors]) h
  | pgetx d a | pgety d a =>
    rcases requireAffine_cases h with ⟨x, y, _, h⟩ | ⟨_, h⟩
    · cases h
      exact .x rfl _ _
    · exact .error (by simp [raisableErrors]) h
  | pmov d a =>
    cases h
    exact .point rfl fun h => h a
  | pdbl d a =>
    cases h
    exact .point rfl fun h => ptDbl_valid (h a)
  | padd d a b =>
    cases h
    exact .point rfl fun h => ptAdd_valid (h a) (h b)
  | pmul d k b =>
    rcases requireCanonical_cases h with ⟨_, h⟩ | ⟨_, h⟩
    · cases h
      exact .point rfl fun h => by rw [ptMulEval_eq_ptMul]; exact ptMul_valid (h b) _
    · exact .error (by simp [raisableErrors]) h
  | penc r addr =>
    rcases requireFits_cases h with ⟨hf, h⟩ | ⟨_, h⟩
    · rcases requireAffine_cases h with ⟨x, y, _, h⟩ | ⟨_, h⟩
      · cases h
        exact .store rfl fun h => Memory.wf_write (Memory.wf_writeByte h (by omega)) (by omega)
      · exact .error (by simp [raisableErrors]) h
    · exact .error (by simp [raisableErrors]) h
  | pdec d addr len =>
    change execPdec d addr len s = _ at h
    rw [execPdec] at h
    split at h
    · cases h
      exact .error (by simp [raisableErrors]) rfl
    · rcases requireFits_cases h with ⟨hf, h⟩ | ⟨_, h⟩
      · split at h
        · cases h
          exact .error (by simp [raisableErrors]) rfl
        · by_cases hex : ∃ y, onCurve (s.memRead (addr + 1) 48) y
          · obtain ⟨y, hy⟩ := hex
            obtain ⟨y', hy', hp⟩ := exists_root_of_parity (s.byteAt addr).toNat hy
            rw [decodePoint_of hy' hp] at h
            cases h
            refine .point rfl fun _ => valid_aff.mpr ?_
            rw [val_toNat_ofNat hy'.1 p_lt, val_toNat_ofNat hy'.2.1 p_lt]
            exact hy'
          · rw [decodePoint_not hex] at h
            cases h
            exact .error (by simp [raisableErrors]) rfl
      · exact .error (by simp [raisableErrors]) h

theorem inBufWindow_below {off : Nat} (h : off < 0x100) : inBufWindow off = false := by
  simp [inBufWindow]
  omega

theorem inBufWindow_inside {off : Nat} (h : 0x100 ≤ off) (h' : off < 0x200) : inBufWindow off = true := by
  simp [inBufWindow]
  omega

theorem inBufWindow_above {off : Nat} (h : 0x200 ≤ off) : inBufWindow off = false := by
  simp [inBufWindow]
  omega

/-- A host transaction that is not Reset writes OVR, or CMDLATCH and BUSY, or one byte of BUF, or nothing, and
the host's port. -/
def HostWrites (s t : State) : Prop :=
  (∃ p, t = { s with port := p }) ∨
  (s.busy = true ∧ ((∃ w, nextEvent s = .regWrite 0 w) ∨ ∃ a v, nextEvent s = .bufWrite a v) ∧
    t = s.takeEvent.overrun) ∨
  (s.busy = false ∧ ∃ w, nextEvent s = .regWrite 0 w ∧ t = s.takeEvent.accept w) ∨
  (s.busy = false ∧ ∃ a v, nextEvent s = .bufWrite a v ∧ t = s.takeEvent.setByte a.toNat v)

/-- Everything a step can do when it gives a next state. -/
theorem step_cases {s t : State} (h : step s = .next t) :
    (nextEvent s ≠ .completion ∧ nextEvent s ≠ .reset ∧ HostWrites s t) ∨
    (nextEvent s = .reset ∧ t = { State.reset with port := s.takeEvent.port }) ∨
    (nextEvent s = .completion ∧ s.busy = false ∧ t = s.takeEvent) ∨
    (nextEvent s = .completion ∧ s.busy = true ∧ ∃ u, execLatch s.takeEvent = .next u ∧ t = u.retire) := by
  rw [step] at h
  cases he : nextEvent s with
  | completion =>
    rw [he] at h
    rcases complete_cases h with ⟨h1, h2⟩ | ⟨h1, h2⟩
    · exact .inr (.inr (.inl ⟨rfl, h1, h2⟩))
    · exact .inr (.inr (.inr ⟨rfl, h1, h2⟩))
  | reset =>
    rw [he] at h
    cases h
    exact .inr (.inl ⟨rfl, rfl⟩)
  | regRead off =>
    rw [he] at h
    change regRead off _ = _ at h
    rw [regRead] at h
    split at h <;> cases h
    exact .inl ⟨by simp, by simp, .inl ⟨_, rfl⟩⟩
  | regWrite off w =>
    rw [he] at h
    change regWrite off w _ = _ at h
    rw [regWrite] at h
    split at h
    · cases h
    · split at h
      · next h0 =>
        rw [writeCmd] at h
        subst h0
        cases h
        refine .inl ⟨by simp, by simp, ?_⟩
        split
        · next hb => exact .inr (.inl ⟨hb, .inl ⟨w, he⟩, rfl⟩)
        · next hb => exact .inr (.inr (.inl ⟨by simpa using hb, w, he, rfl⟩))
      · cases h
        exact .inl ⟨by simp, by simp, .inl ⟨_, rfl⟩⟩
  | bufRead a =>
    rw [he] at h
    cases h
    exact .inl ⟨by simp, by simp, .inl ⟨_, rfl⟩⟩
  | bufWrite a v =>
    rw [he] at h
    change bufWrite a v _ = _ at h
    rw [bufWrite] at h
    cases h
    refine .inl ⟨by simp, by simp, ?_⟩
    split
    · next hb => exact .inr (.inl ⟨hb, .inr ⟨a, v, he⟩, rfl⟩)
    · next hb => exact .inr (.inr (.inr ⟨by simpa using hb, a, v, he, rfl⟩))
  | otherAccess off bits =>
    rw [he] at h
    cases h

/-- A run of one step and then n more. -/
theorem run_next {s t : State} (n : Nat) (h : step s = .next t) :
    Host.Core.run core (n + 1) s = Host.Core.run core n t := by
  have hs : core.step s = .next t := h
  simp only [Host.Core.run, hs]

end Sys2Proof.Machine
end

