-- ==== Sys2Proof/Laws/Words.lean ====
section
/-! SUPPORT. The word formula of 30_encoding.md rule R106 is the word of the encoder. -/

namespace Sys2Proof.Machine

theorem place_toNat {k : Nat} (lo : Nat) (f : BitVec k) (h : lo + k ≤ 32) :
    (place lo f).toNat = 2 ^ lo * f.toNat := by
  have hf := f.isLt
  have hlt : f.toNat < 2 ^ 32 := hf.trans_le (Nat.pow_le_pow_right (by omega) (by omega))
  have hmul : f.toNat * 2 ^ lo < 2 ^ 32 := by
    calc f.toNat * 2 ^ lo < 2 ^ k * 2 ^ lo := Nat.mul_lt_mul_of_pos_right hf (by positivity)
      _ = 2 ^ (k + lo) := (pow_add 2 k lo).symm
      _ ≤ 2 ^ 32 := Nat.pow_le_pow_right (by omega) (by omega)
  rw [place, BitVec.toNat_shiftLeft, BitVec.toNat_setWidth, Nat.mod_eq_of_lt hlt, Nat.shiftLeft_eq,
    Nat.mod_eq_of_lt hmul, Nat.mul_comm]

/-- A word is the sum of its fields, each at its place. -/
theorem or_place {k : Nat} (w : Word) (lo : Nat) (f : BitVec k) (h : lo + k ≤ 32) (hw : 2 ^ (lo + k) ∣ w.toNat) :
    (w ||| place lo f).toNat = w.toNat + 2 ^ lo * f.toNat := by
  obtain ⟨q, hq⟩ := hw
  have hlt : 2 ^ lo * f.toNat < 2 ^ (lo + k) := by
    rw [pow_add]
    exact Nat.mul_lt_mul_of_pos_left f.isLt (by positivity)
  rw [BitVec.toNat_or, place_toNat lo f h, hq, Nat.two_pow_add_eq_or_of_lt hlt]

/-- The formula of 30_encoding.md rule R106, for fields in range. -/
theorem commandWord_eq {op a b c len imm : Nat} (hop : op < 256) (ha : a < 16) (hb : b < 16) (hc : c < 16)
    (hlen : len < 256) (himm : imm < 256) (hcl : c = 0 ∨ len = 0) :
    commandWord op a b c len imm =
      (if len = 0 then
        place 24 (BitVec.ofNat 8 op) ||| place 20 (BitVec.ofNat 4 a) ||| place 16 (BitVec.ofNat 4 b) |||
          place 12 (BitVec.ofNat 4 c) ||| place 0 (BitVec.ofNat 8 imm)
      else
        place 24 (BitVec.ofNat 8 op) ||| place 20 (BitVec.ofNat 4 a) ||| place 16 (BitVec.ofNat 4 b) |||
          place 8 (BitVec.ofNat 8 len) ||| place 0 (BitVec.ofNat 8 imm)) := by
  apply BitVec.eq_of_toNat_eq
  have h1 : (place 24 (BitVec.ofNat 8 op)).toNat = 2 ^ 24 * op := by
    rw [place_toNat _ _ (by omega), BitVec.toNat_ofNat, Nat.mod_eq_of_lt (by omega)]
  have h2 : (place 24 (BitVec.ofNat 8 op) ||| place 20 (BitVec.ofNat 4 a)).toNat = 2 ^ 24 * op + 2 ^ 20 * a := by
    rw [or_place _ _ _ (by omega) (by rw [h1]; exact ⟨op, rfl⟩), h1, BitVec.toNat_ofNat, Nat.mod_eq_of_lt (by omega)]
  have h3 : (place 24 (BitVec.ofNat 8 op) ||| place 20 (BitVec.ofNat 4 a) ||| place 16 (BitVec.ofNat 4 b)).toNat =
      2 ^ 24 * op + 2 ^ 20 * a + 2 ^ 16 * b := by
    rw [or_place _ _ _ (by omega) (by rw [h2]; exact ⟨2 ^ 4 * op + a, by ring⟩), h2, BitVec.toNat_ofNat,
      Nat.mod_eq_of_lt (by omega)]
  rw [commandWord, BitVec.toNat_ofNat, Nat.mod_eq_of_lt (by omega)]
  split
  · next h0 =>
    have h4 : (place 24 (BitVec.ofNat 8 op) ||| place 20 (BitVec.ofNat 4 a) ||| place 16 (BitVec.ofNat 4 b) |||
        place 12 (BitVec.ofNat 4 c)).toNat = 2 ^ 24 * op + 2 ^ 20 * a + 2 ^ 16 * b + 2 ^ 12 * c := by
      rw [or_place _ _ _ (by omega) (by rw [h3]; exact ⟨2 ^ 8 * op + 2 ^ 4 * a + b, by ring⟩), h3,
        BitVec.toNat_ofNat, Nat.mod_eq_of_lt (by omega)]
    rw [or_place _ _ _ (by omega) (by rw [h4]; exact ⟨2 ^ 16 * op + 2 ^ 12 * a + 2 ^ 8 * b + 2 ^ 4 * c, by ring⟩),
      h4, BitVec.toNat_ofNat, Nat.mod_eq_of_lt (by omega)]
    omega
  · next h0 =>
    have h4 : (place 24 (BitVec.ofNat 8 op) ||| place 20 (BitVec.ofNat 4 a) ||| place 16 (BitVec.ofNat 4 b) |||
        place 8 (BitVec.ofNat 8 len)).toNat = 2 ^ 24 * op + 2 ^ 20 * a + 2 ^ 16 * b + 2 ^ 8 * len := by
      rw [or_place _ _ _ (by omega) (by rw [h3]; exact ⟨2 ^ 8 * op + 2 ^ 4 * a + b, by ring⟩), h3,
        BitVec.toNat_ofNat, Nat.mod_eq_of_lt (by omega)]
    rw [or_place _ _ _ (by omega) (by rw [h4]; exact ⟨2 ^ 16 * op + 2 ^ 12 * a + 2 ^ 8 * b + len, by ring⟩), h4,
      BitVec.toNat_ofNat, Nat.mod_eq_of_lt (by omega)]
    omega

theorem place_zero (k lo : Nat) : (place lo 0#k : Word) = 0#32 := by
  simp [place]

/-- The word of PDEC (30_encoding.md rules R97, R106). -/
theorem commandWord_pdec (d : PReg) {addr len : Nat} (haddr : addr < 256) (hlen : len < 256) :
    commandWord 0x4A d.val 0 0 len addr = encode (.pdec d addr len) := by
  rw [commandWord_eq (by omega) (by omega) (by omega) (by omega) hlen haddr (.inl rfl)]
  split
  · next h0 => simp [encode, formatD, regField, byteField, h0, place_zero]
  · simp [encode, formatD, regField, byteField, place_zero]

/-! The fields of a word, and the opcode of each format -/

theorem fieldA_and (u v : Word) : fieldA (u &&& v) = fieldA u &&& fieldA v := by
  ext i hi
  simp [fieldA]

theorem fieldB_and (u v : Word) : fieldB (u &&& v) = fieldB u &&& fieldB v := by
  ext i hi
  simp [fieldB]

theorem fieldC_and (u v : Word) : fieldC (u &&& v) = fieldC u &&& fieldC v := by
  ext i hi
  simp [fieldC]

/-- A word is its opcode, its three register fields and its twelve low bits (30_encoding.md rule R91). -/
theorem word_eq_fields (w : Word) :
    w = place 24 (fieldOp w) ||| place 20 (fieldA w) ||| place 16 (fieldB w) ||| place 12 (fieldC w) |||
      (w &&& 0xFFF#32) := by
  ext i hi
  interval_cases i <;> simp [place, fieldOp, fieldA, fieldB, fieldC]

/-- A register field with no bit above the register numbers is the field of the register it names. -/
theorem regField_xRegOf {f : BitVec 4} (h : f &&& 8#4 = 0#4) : regField (xRegOf f) = f := by
  revert f
  decide

theorem regField_pRegOf {f : BitVec 4} (h : f &&& 12#4 = 0#4) : regField (pRegOf f) = f := by
  revert f
  decide

theorem fieldOp_formatR3 (op : BitVec 8) (a b c : BitVec 4) : fieldOp (formatR3 op a b c) = op := by
  ext i hi
  interval_cases i <;> simp [fieldOp, formatR3, place]

theorem fieldOp_formatI (op : BitVec 8) (a : BitVec 4) (imm : BitVec 8) : fieldOp (formatI op a imm) = op := by
  ext i hi
  interval_cases i <;> simp [fieldOp, formatI, place]

theorem fieldOp_formatD (op : BitVec 8) (a : BitVec 4) (len addr : BitVec 8) :
    fieldOp (formatD op a len addr) = op := by
  ext i hi
  interval_cases i <;> simp [fieldOp, formatD, place]

end Sys2Proof.Machine
end

