-- ==== Sys2Proof/Tests/Slice0.lean ====
section
/-! SUPPORT. Tests. Expected values come from spec/95_test_vectors.md (V11 to V90) or from the rule named.
The last part shows, for each statement with hypotheses, states and operands that meet them. -/

namespace Sys2Proof.Tests

set_option Elab.async false

open Sys2Proof.Machine

/-! ## WellFormed refuses what has no encoding -/

theorem test_wellFormed_refuses_ldx_addr : (Instr.ldx 0 256).wellFormed = false := by decide

theorem test_wellFormed_refuses_stx_addr : (Instr.stx 0 256).wellFormed = false := by decide

theorem test_wellFormed_refuses_penc_addr : (Instr.penc 0 256).wellFormed = false := by decide

theorem test_wellFormed_refuses_pdec_addr : (Instr.pdec 0 256 49).wellFormed = false := by decide

theorem test_wellFormed_refuses_pdec_len : (Instr.pdec 0 0 256).wellFormed = false := by decide

/-! ## Decoding: words written from 30_encoding.md rules R92 to R101 and R106 -/

theorem test_decode_nop : decode 0x00000000#32 = .ok (.nop) := by decide +kernel

theorem test_decode_clrerr : decode 0x01000000#32 = .ok (.clrerr) := by decide +kernel

theorem test_decode_zeroize : decode 0x02000000#32 = .ok (.zeroize) := by decide +kernel

theorem test_decode_ldx : decode 0x105000FF#32 = .ok (.ldx 5 255) := by decide +kernel

theorem test_decode_stx : decode 0x112000D0#32 = .ok (.stx 2 208) := by decide +kernel

theorem test_decode_mov : decode 0x12610000#32 = .ok (.mov 6 1) := by decide +kernel

theorem test_decode_ldc : decode 0x13700007#32 = .ok (.ldc 7 .r2n) := by decide +kernel

theorem test_decode_cmp : decode 0x14045000#32 = .ok (.cmp 4 5) := by decide +kernel

theorem test_decode_fadd : decode 0x20201000#32 = .ok (.fadd 2 0 1) := by decide +kernel

theorem test_decode_fsub : decode 0x21735000#32 = .ok (.fsub 7 3 5) := by decide +kernel

theorem test_decode_fmul : decode 0x22423000#32 = .ok (.fmul 4 2 3) := by decide +kernel

theorem test_decode_fmmul : decode 0x23546000#32 = .ok (.fmmul 5 4 6) := by decide +kernel

theorem test_decode_finv : decode 0x24140000#32 = .ok (.finv 1 4) := by decide +kernel

theorem test_decode_fred : decode 0x25520000#32 = .ok (.fred 5 2) := by decide +kernel

theorem test_decode_fsqrt : decode 0x26300000#32 = .ok (.fsqrt 3 0) := by decide +kernel

theorem test_decode_nadd : decode 0x30441000#32 = .ok (.nadd 4 4 1) := by decide +kernel

theorem test_decode_nsub : decode 0x31201000#32 = .ok (.nsub 2 0 1) := by decide +kernel

theorem test_decode_nmul : decode 0x32454000#32 = .ok (.nmul 4 5 4) := by decide +kernel

theorem test_decode_nmmul : decode 0x33672000#32 = .ok (.nmmul 6 7 2) := by decide +kernel

theorem test_decode_ninv : decode 0x34520000#32 = .ok (.ninv 5 2) := by decide +kernel

theorem test_decode_nred : decode 0x35330000#32 = .ok (.nred 3 3) := by decide +kernel

theorem test_decode_pinf : decode 0x40300000#32 = .ok (.pinf 3) := by decide +kernel

theorem test_decode_pldg : decode 0x41200000#32 = .ok (.pldg 2) := by decide +kernel

theorem test_decode_pset : decode 0x42145000#32 = .ok (.pset 1 4 5) := by decide +kernel

theorem test_decode_pgetx : decode 0x43520000#32 = .ok (.pgetx 5 2) := by decide +kernel

theorem test_decode_pgety : decode 0x44630000#32 = .ok (.pgety 6 3) := by decide +kernel

theorem test_decode_pmov : decode 0x45030000#32 = .ok (.pmov 0 3) := by decide +kernel

theorem test_decode_pdbl : decode 0x46210000#32 = .ok (.pdbl 2 1) := by decide +kernel

theorem test_decode_padd : decode 0x47312000#32 = .ok (.padd 3 1 2) := by decide +kernel

theorem test_decode_pmul : decode 0x48351000#32 = .ok (.pmul 3 5 1) := by decide +kernel

theorem test_decode_penc : decode 0x493000CF#32 = .ok (.penc 3 207) := by decide +kernel

theorem test_decode_pdec : decode 0x4A2031FA#32 = .ok (.pdec 2 0xFA 49) := by decide +kernel

/-! Illegal words (V2 to V8) -/

theorem test_decode_V2 : decode 0x20801000#32 = .error .registerNumber := by decide +kernel

theorem test_decode_V3 : decode 0x20201001#32 = .error .reservedBit := by decide +kernel

theorem test_decode_V4 : decode 0xFF000000#32 = .error .unknownOpcode := by decide +kernel

theorem test_decode_V5 : decode 0x40400000#32 = .error .registerNumber := by decide +kernel

theorem test_decode_V6 : decode 0x00000001#32 = .error .reservedBit := by decide +kernel

theorem test_decode_V7 : decode 0x13000008#32 = .error .constantNumber := by decide +kernel

theorem test_decode_V8 : decode 0x14112000#32 = .error .reservedBit := by decide +kernel

theorem test_decodeTableWord : decodeTableWord 32 0x4A103140 = some (.pdec 1 0x40 49) := by decide +kernel

/-! ## One step of each command -/

/-- `x[r] <- v` in a test state. -/
def putX (r : XReg) (v : Nat) (s : State) : State := s.setX r (BitVec.ofNat 384 v)

/-- `P[k] <- q` in a test state. -/
def putP (k : PReg) (q : PointVal) (s : State) : State := s.setPoint k q

/-- STATUS and a part of the state after the completion of the word `w` in the state `s`. -/
def seen {α : Type} (s : State) (w : Nat) (look : State → α) : Option (Nat × α) :=
  match step (s.withFetchWord 32 w) with
  | .next t => some (t.status.toNat, look t)
  | .fault _ => none
  | .refused _ => none

/-- V11 -/
theorem test_nop :
    seen (putX 0 5 State.reset) 0x00000000 (·.xNat 0) = some (0x00, 5) := by
  decide +kernel

/-- 40_system.md rule R121 -/
theorem test_clrerr :
    seen { State.reset with err := true, errCode := 0x11#8, errCmd := 0x4A003100#32, ovr := true } 0x01000000 id =
      some (0x00, { State.reset with cmdLatch := 0x01000000#32 }) := by
  decide +kernel

/-- V13 -/
theorem test_zeroize :
    seen { (putP 0 generator (putX 3 7 State.reset)).setByte 5 0xAA#8 with flagEq := true, flagZ := true } 0x02000000 id =
      some (0x00, { State.reset with cmdLatch := 0x02000000#32 }) := by
  decide +kernel

/-- V20 -/
theorem test_ldx :
    seen (State.reset.memWrite 0 48 0x2A) 0x10000000 (·.xNat 0) = some (0x00, 42) := by
  decide +kernel

/-- V22 -/
theorem test_ldx_range :
    seen (State.reset) 0x100000D1 (·.errCmd) = some (0x202, 0x100000D1#32) := by
  decide +kernel

/-- V23 -/
theorem test_stx :
    seen (putX 3 0x0102 State.reset) 0x11300008 (·.buf) = some (0x00, [(54, 0x01#8), (55, 0x02#8)]) := by
  decide +kernel

/-- 20_memory.md rule R64 -/
theorem test_stx_range :
    seen (State.reset) 0x113000D1 (·.errCmd) = some (0x202, 0x113000D1#32) := by
  decide +kernel

/-- V24 -/
theorem test_mov :
    seen (State.reset |> putX 1 Config.gx) 0x12610000 (·.xNat 6) = some (0x0, 0xAA87CA22BE8B05378EB1C71EF320AD746E1D3B628BA79B9859F741E082542A385502F25DBF55296C3A545E3872760AB7) := by
  decide +kernel

/-- V25 -/
theorem test_ldc_n :
    seen (State.reset) 0x13300003 (·.xNat 3) = some (0x0, 0xFFFFFFFFFFFFFFFFFFFFFFFFFFFFFFFFFFFFFFFFFFFFFFFFC7634D81F4372DDF581A0DB248B0A77AECEC196ACCC52973) := by
  decide +kernel

/-- V25 -/
theorem test_ldc_r2n :
    seen (State.reset) 0x13200007 (·.xNat 2) = some (0x0, 0xC84EE012B39BF213FB05B7A28266895D40D49174AAB1CC5BC3E483AFCB82947FF3D81E5DF1AA4192D319B2419B409A9) := by
  decide +kernel

/-- V26 -/
theorem test_cmp_less :
    seen (putX 0 3 State.reset |> putX 1 Config.n) 0x14001000 (·.xNat 0) = some (0x20, 3) := by
  decide +kernel

/-- V27 -/
theorem test_cmp_unsigned :
    seen (putX 0 (2 ^ 384 - 1) State.reset) 0x14001000 (·.xNat 1) = some (0x00, 0) := by
  decide +kernel

/-- V30 -/
theorem test_fadd :
    seen (State.reset |> putX 0 Config.gx |> putX 1 Config.gy) 0x20201000 (·.xNat 2) = some (0x0, 0xE09FA86D54B131A6EC505FDE85B3899E6711591FB441B01543D172F43844E2F85F63A42BDCD3AB09B4977BB503601916) := by
  decide +kernel

/-- V31 -/
theorem test_fadd_zero :
    seen (State.reset |> putX 0 (Config.p - 1) |> putX 1 1) 0x20201000 (·.xNat 2) = some (0x40, 0x0) := by
  decide +kernel

/-- V34 -/
theorem test_fsub :
    seen (State.reset |> putX 0 Config.gx |> putX 1 Config.gy) 0x21201000 (·.xNat 2) = some (0x0, 0x746FEBD82864D8C831132E5F608DD14A75291DA5630D871B701D10CCCC6371784AA2408FA1D6A7CEC01140BBE18BFC58) := by
  decide +kernel

/-- V35 -/
theorem test_fsub_borrow :
    seen (State.reset |> putX 0 Config.gx |> putX 1 Config.gy) 0x21210000 (·.xNat 2) = some (0x0, 0x8B901427D79B2737CEECD1A09F722EB58AD6E25A9CF278E48FE2EF33339C8E86B55DBF6F5E2958313FEEBF451E7403A7) := by
  decide +kernel

/-- V38 -/
theorem test_fmul :
    seen (State.reset |> putX 0 Config.gx |> putX 1 Config.gy) 0x22201000 (·.xNat 2) = some (0x0, 0x332E559389C970313CB29C4B55AF5783821971A99C250DAF84DC5D3CC441CB0A482E90DE9D3CCD96B3C8C48B2AD3F025) := by
  decide +kernel

/-- V41 -/
theorem test_fmul_same_register :
    seen (State.reset |> putX 1 3) 0x22111000 (·.xNat 1) = some (0x0, 0x9) := by
  decide +kernel

/-- V42 -/
theorem test_fmmul :
    seen (State.reset |> putX 0 Config.gx |> putX 1 Config.gy) 0x23201000 (·.xNat 2) = some (0x0, 0x3B73881FC0498C0CD665D1161DA17C299A62DD570582D7E37E6B6F7B540549355DC09AE0801C6E1A47ED578D72402B05) := by
  decide +kernel

/-- V44 -/
theorem test_fmmul_enter :
    seen (State.reset |> putX 0 Config.gx |> putX 1 Config.r2p) 0x23201000 (·.xNat 2) = some (0x0, 0x4D3AADC2299E1513812FF723614EDE2B6454868459A30EFF879C3AFC541B4D6E20E378E2A0D6CE383DD0756649C0B528) := by
  decide +kernel

/-- V47 -/
theorem test_finv :
    seen (State.reset |> putX 0 Config.gx) 0x24100000 (·.xNat 1) = some (0x0, 0x1CE18121749AA29A393FADDF4E55522AF8C67DABDFA413AAC45DA5C5F0781147133E1C96CA2A8234440FBF89E7E96410) := by
  decide +kernel

/-- V49 -/
theorem test_finv_zero :
    seen (State.reset) 0x24100000 (·.errCmd) = some (0x402, 0x24100000#32) := by
  decide +kernel

/-- V51 -/
theorem test_fred :
    seen (State.reset |> putX 1 (2 ^ 384 - 1)) 0x25410000 (·.xNat 4) = some (0x0, 0x100000000FFFFFFFFFFFFFFFF00000000) := by
  decide +kernel

/-- V50 -/
theorem test_fred_zero :
    seen (State.reset |> putX 0 Config.p) 0x25300000 (·.xNat 3) = some (0x40, 0x0) := by
  decide +kernel

/-- V55 -/
theorem test_fsqrt :
    seen (State.reset |> putX 0 2) 0x26100000 (·.xNat 1) = some (0x0, 0x83DA5B0A808954EC4DA354C3D9A24626426DA013408406C410ECF78879B99D711354F9802677568AA327717821C98EFB) := by
  decide +kernel

/-- V59 -/
theorem test_fsqrt_not_square :
    seen (State.reset |> putX 0 (Config.p - 1)) 0x26100000 (·.errCmd) = some (0x502, 0x26100000#32) := by
  decide +kernel

/-- V61 -/
theorem test_nadd_zero :
    seen (State.reset |> putX 0 (Config.n - 1) |> putX 1 1) 0x30201000 (·.xNat 2) = some (0x40, 0x0) := by
  decide +kernel

/-- V62 -/
theorem test_nadd_range :
    seen (State.reset |> putX 0 Config.n |> putX 1 1) 0x30201000 (·.errCmd) = some (0x302, 0x30201000#32) := by
  decide +kernel

/-- V63 -/
theorem test_nsub :
    seen (State.reset |> putX 0 0 |> putX 1 1) 0x31201000 (·.xNat 2) = some (0x0, 0xFFFFFFFFFFFFFFFFFFFFFFFFFFFFFFFFFFFFFFFFFFFFFFFFC7634D81F4372DDF581A0DB248B0A77AECEC196ACCC52972) := by
  decide +kernel

/-- V64 -/
theorem test_nmul :
    seen (State.reset |> putX 0 Config.gx |> putX 1 Config.gy) 0x32201000 (·.xNat 2) = some (0x0, 0x2A8E172F52EA8A3F1864714EFAFB6588D0ED2FC509E9B4502BDD369BDBEEB9019F58804FBE958008223BA8752EAD1F2C) := by
  decide +kernel

/-- V66 -/
theorem test_nmmul :
    seen (State.reset |> putX 0 Config.gx |> putX 1 Config.gy) 0x33201000 (·.xNat 2) = some (0x0, 0x685F13E32FAE149FF60F5045D6FEB2CECEDDAF984BB32090D2AE0D1ADCB4ED3F898CB2EA35CF714D1630661B37FE26B1) := by
  decide +kernel

/-- V69c -/
theorem test_ninv :
    seen (State.reset |> putX 0 Config.gx) 0x34100000 (·.xNat 1) = some (0x0, 0xC0345088D98AA2F119E693230BBFB7A15F02792E7267CB55B3B0DA1CB38A1C5D5F05C8D102D5128F524604074C4C8846) := by
  decide +kernel

/-- V69d -/
theorem test_ninv_zero :
    seen (State.reset) 0x34100000 (·.errCmd) = some (0x402, 0x34100000#32) := by
  decide +kernel

/-- V69h -/
theorem test_nred :
    seen (State.reset |> putX 0 (Config.p - 1)) 0x35100000 (·.xNat 1) = some (0x0, 0x389CB27E0BC8D21FA7E5F24CB74F58851313E696333AD68B) := by
  decide +kernel

/-- V80 -/
theorem test_pinf :
    seen (State.reset) 0x40200000 (·.point 2) = some (0x80, .inf) := by
  decide +kernel

/-- V81 -/
theorem test_pldg :
    seen (State.reset) 0x41000000 (·.point 0) = some (0x0, .aff 0xAA87CA22BE8B05378EB1C71EF320AD746E1D3B628BA79B9859F741E082542A385502F25DBF55296C3A545E3872760AB7#384 0x3617DE4A96262C6F5D9E98BF9292DC29F8F41DBD289A147CE9DA3113B5F0B8C00A60B1CE1D7E819D7A431D7C90EA0E5F#384) := by
  decide +kernel

/-- V82 -/
theorem test_pset :
    seen (State.reset |> putX 0 Config.gx |> putX 1 Config.gy) 0x42101000 (·.point 1) = some (0x0, .aff 0xAA87CA22BE8B05378EB1C71EF320AD746E1D3B628BA79B9859F741E082542A385502F25DBF55296C3A545E3872760AB7#384 0x3617DE4A96262C6F5D9E98BF9292DC29F8F41DBD289A147CE9DA3113B5F0B8C00A60B1CE1D7E819D7A431D7C90EA0E5F#384) := by
  decide +kernel

/-- V82 -/
theorem test_pset_not_on_curve :
    seen (State.reset |> putX 0 Config.gx |> putX 1 (Config.gy + 1)) 0x42001000 (·.errCmd) = some (0x1202, 0x42001000#32) := by
  decide +kernel

/-- V83 -/
theorem test_pgetx :
    seen (putP 0 generator State.reset) 0x43200000 (·.xNat 2) = some (0x0, 0xAA87CA22BE8B05378EB1C71EF320AD746E1D3B628BA79B9859F741E082542A385502F25DBF55296C3A545E3872760AB7) := by
  decide +kernel

/-- V83 -/
theorem test_pgetx_inf :
    seen (State.reset) 0x43000000 (·.errCmd) = some (0x602, 0x43000000#32) := by
  decide +kernel

/-- V83 -/
theorem test_pgety :
    seen (putP 0 generator State.reset) 0x44300000 (·.xNat 3) = some (0x0, 0x3617DE4A96262C6F5D9E98BF9292DC29F8F41DBD289A147CE9DA3113B5F0B8C00A60B1CE1D7E819D7A431D7C90EA0E5F) := by
  decide +kernel

/-- V84 -/
theorem test_pmov_inf :
    seen (putP 0 generator State.reset) 0x45030000 (·.point 0) = some (0x80, .inf) := by
  decide +kernel

/-- V85 -/
theorem test_pdbl :
    seen (putP 0 generator State.reset) 0x46100000 (·.point 1) = some (0x0, .aff 0x8D999057BA3D2D969260045C55B97F089025959A6F434D651D207D19FB96E9E4FE0E86EBE0E64F85B96A9C75295DF61#384 0x8E80F1FA5B1B3CEDB7BFE8DFFD6DBA74B275D875BC6CC43E904E505F256AB4255FFD43E94D39E22D61501E700A940E80#384) := by
  decide +kernel

/-- V86 -/
theorem test_padd_chord :
    seen (putP 0 generator State.reset |> putP 1 (.aff 0x8D999057BA3D2D969260045C55B97F089025959A6F434D651D207D19FB96E9E4FE0E86EBE0E64F85B96A9C75295DF61#384 0x8E80F1FA5B1B3CEDB7BFE8DFFD6DBA74B275D875BC6CC43E904E505F256AB4255FFD43E94D39E22D61501E700A940E80#384)) 0x47201000 (·.point 2) = some (0x0, .aff 0x77A41D4606FFA1464793C7E5FDC7D98CB9D3910202DCD06BEA4F240D3566DA6B408BBAE5026580D02D7E5C70500C831#384 0xC995F7CA0B0C42837D0BBE9602A9FC998520B41C85115AA5F7684C0EDC111EACC24ABD6BE4B5D298B65F28600A2F1DF1#384) := by
  decide +kernel

/-- V86 -/
theorem test_padd_opposite :
    seen (putP 0 generator State.reset |> putP 1 (.aff 0xAA87CA22BE8B05378EB1C71EF320AD746E1D3B628BA79B9859F741E082542A385502F25DBF55296C3A545E3872760AB7#384 0xC9E821B569D9D390A26167406D6D23D6070BE242D765EB831625CEEC4A0F473EF59F4E30E2817E6285BCE2846F15F1A0#384)) 0x47201000 (·.point 2) = some (0x80, .inf) := by
  decide +kernel

/-- V87 -/
theorem test_pmul :
    seen (putP 0 generator State.reset |> putX 1 5) 0x48110000 (·.point 1) = some (0x0, .aff 0x11DE24A2C251C777573CAC5EA025E467F208E51DBFF98FC54F6661CBE56583B037882F4A1CA297E60ABCDBC3836D84BC#384 0x8FA696C77440F92D0F5837E90A00E7C5284B447754D5DEE88C986533B6901AEB3177686D0AE8FB33184414ABE6C1713A#384) := by
  decide +kernel

/-- V87 -/
theorem test_pmul_n_minus_one :
    seen (putP 0 generator State.reset |> putX 2 (Config.n - 1)) 0x48120000 (·.point 1) = some (0x0, .aff 0xAA87CA22BE8B05378EB1C71EF320AD746E1D3B628BA79B9859F741E082542A385502F25DBF55296C3A545E3872760AB7#384 0xC9E821B569D9D390A26167406D6D23D6070BE242D765EB831625CEEC4A0F473EF59F4E30E2817E6285BCE2846F15F1A0#384) := by
  decide +kernel

/-- V73 -/
theorem test_penc :
    seen (putP 0 generator State.reset) 0x490000CF (fun t => (t.byteAt 206, t.byteAt 207, t.byteAt 208, t.byteAt 255)) =
      some (0x00, 0x00#8, 0x03#8, 0xAA#8, 0xB7#8) := by
  decide +kernel

/-- V79g -/
theorem test_penc_range_before_inf :
    seen (State.reset) 0x490000D0 (·.errCmd) = some (0x202, 0x490000D0#32) := by
  decide +kernel

/-- V75 -/
theorem test_pdec :
    seen (State.reset.setByte 0 0x02#8 |>.memWrite 1 48 Config.gx) 0x4A003100 (·.point 0) = some (0x0, .aff 0xAA87CA22BE8B05378EB1C71EF320AD746E1D3B628BA79B9859F741E082542A385502F25DBF55296C3A545E3872760AB7#384 0xC9E821B569D9D390A26167406D6D23D6070BE242D765EB831625CEEC4A0F473EF59F4E30E2817E6285BCE2846F15F1A0#384) := by
  decide +kernel

/-- V79c -/
theorem test_pdec_length_first :
    seen (State.reset) 0x4A0030FA (·.errCmd) = some (0x1002, 0x4A0030FA#32) := by
  decide +kernel

/-! ## The hypotheses of the statements can be met -/

/-- A state with the word `w` in flight and the events `es` to come. -/
def inFlight (w : Word) (es : List HostEvent) : State := (State.reset.accept w).withScript es

/-- An idle state with the events `es` to come. -/
def idle (es : List HostEvent) : State := State.reset.withScript es

/-- A state in which an error is recorded. -/
def stopped (w : Word) : State :=
  { inFlight w [] with err := true, errCode := 0x11#8, errCmd := 0x4A003100#32 }

theorem witness_DecodeOfEncode :
    (Instr.ldx 7 255).wellFormed = true ∧ (Instr.pdec 3 255 255).wellFormed = true ∧ Instr.nop.wellFormed = true := by
  decide

theorem witness_EncodeOfDecode :
    decode 0x107000FF#32 = .ok (.ldx 7 255) ∧ decode 0x00000000#32 = .ok .nop := by decide +kernel

/-- No command's word has the opcode byte 0xFF. -/
theorem encode_ne_unknown (i : Instr) : encode i ≠ 0xFF000000#32 := by
  intro h
  have h1 := congrArg fieldOp h
  cases i <;>
    simp only [encode, formatR2_eq, formatR1_eq, fieldOp_formatR3, fieldOp_formatI, fieldOp_formatD] at h1 <;>
    exact absurd h1 (by decide)

theorem witness_IllegalWordEndsInIllegalCmd :
    ∃ s : State, s.busy = true ∧ s.err = false ∧ nextEvent s = .completion ∧
      ∀ i : Instr, i.wellFormed = true → encode i ≠ s.cmdLatch :=
  ⟨inFlight 0xFF000000#32 [], rfl, rfl, rfl, fun i _ => encode_ne_unknown i⟩

theorem witness_StepRunsDecodedCommand :
    (∃ (s t : State) (i : Instr), s.busy = true ∧ s.err = false ∧ nextEvent s = .completion ∧
      i.wellFormed = true ∧ decode s.cmdLatch = .ok i ∧ exec i s.takeEvent = .next t) ∧
    ∃ (s : State) (i : Instr), s.busy = true ∧ s.err = true ∧ survivesError s.cmdLatch = true ∧
      nextEvent s = .completion ∧ i.wellFormed = true ∧ decode s.cmdLatch = .ok i :=
  ⟨⟨inFlight 0x12610000#32 [.completion], _, .mov 6 1, rfl, rfl, rfl, rfl, by decide +kernel, rfl⟩,
    ⟨stopped 0x01000000#32, .clrerr, rfl, rfl, rfl, rfl, rfl, by decide +kernel⟩⟩

theorem witness_RegWriteAcceptsOrDrops :
    (∃ s : State, nextEvent s = .regWrite 0 0x13000001#32 ∧ s.busy = false) ∧
    (∃ s : State, nextEvent s = .regWrite 0 0x13100001#32 ∧ s.busy = true) ∧
    (∃ s : State, nextEvent s = .regWrite 0xFF 0#32 ∧ 0 < 0xFF ∧ 0xFF < 0x100) ∧
    ∃ s : State, nextEvent s = .regWrite 1 0#32 ∧ 0 < 1 ∧ 1 < 0x100 :=
  ⟨⟨idle [.regWrite 0 0x13000001#32], rfl, rfl⟩, ⟨inFlight 0x13000001#32 [.regWrite 0 0x13100001#32], rfl, rfl⟩,
    ⟨idle [.regWrite 0xFF 0#32], rfl, by decide, by decide⟩, ⟨idle [.regWrite 1 0#32], rfl, by decide, by decide⟩⟩

theorem witness_RegReadReturnsRegister :
    ∀ off ∈ [0x000, 0x004, 0x008, 0x00C, 0x010, 0x0FF], ∃ s : State, nextEvent s = .regRead off ∧ off < 0x100 :=
  fun off h => ⟨idle [.regRead off], rfl, by revert off; decide⟩

theorem witness_BufTransactions :
    Memory.wf State.reset.buf = true ∧
    (∃ s : State, Memory.wf s.buf = true ∧ nextEvent s = .bufRead 255#8 ∧ s.busy = false) ∧
    (∃ s : State, Memory.wf s.buf = true ∧ nextEvent s = .bufRead 0#8 ∧ s.busy = true) ∧
    (∃ s : State, Memory.wf s.buf = true ∧ nextEvent s = .bufWrite 255#8 0xAA#8 ∧ s.busy = false) ∧
    ∃ s : State, Memory.wf s.buf = true ∧ nextEvent s = .bufWrite 0#8 0xAA#8 ∧ s.busy = true :=
  ⟨rfl, ⟨idle [.bufRead 255#8], rfl, rfl, rfl⟩, ⟨inFlight 0#32 [.bufRead 0#8], rfl, rfl, rfl⟩,
    ⟨idle [.bufWrite 255#8 0xAA#8], rfl, rfl, rfl⟩, ⟨inFlight 0#32 [.bufWrite 0#8 0xAA#8], rfl, rfl, rfl⟩⟩

theorem witness_AccessesOutsideTheMap :
    (∃ s : State, nextEvent s = .otherAccess 0x004 8) ∧
    (∀ off ∈ [0x100, 0x1FF], (∃ s : State, nextEvent s = .regRead off) ∧
      (∃ s : State, nextEvent s = .regWrite off 0#32) ∧ 0x100 ≤ off ∧ off < 0x200) ∧
    (∃ s : State, nextEvent s = .regRead 0x200) ∧ ∃ s : State, nextEvent s = .regWrite 0x200 0#32 :=
  ⟨⟨idle [.otherAccess 0x004 8], rfl⟩,
    fun off h => ⟨⟨idle [.regRead off], rfl⟩, ⟨idle [.regWrite off 0#32], rfl⟩, by revert off; decide⟩,
    ⟨idle [.regRead 0x200], rfl⟩, ⟨idle [.regWrite 0x200 0#32], rfl⟩⟩

theorem witness_ResetEventRestoresResetValues : ∃ s : State, nextEvent s = .reset ∧ s.busy = true :=
  ⟨inFlight 0x48100000#32 [.reset], rfl, rfl⟩

theorem witness_CommandInFlightIsProtected :
    ∃ s t : State, s.busy = true ∧ nextEvent s ≠ .completion ∧ nextEvent s ≠ .reset ∧ step s = .next t :=
  ⟨inFlight 0x13000001#32 [.regWrite 0 0x13100001#32], _, rfl, by decide, by decide, rfl⟩

theorem witness_SquashChangesOnlyBusy :
    ∃ s : State, s.busy = true ∧ s.err = true ∧ nextEvent s = .completion ∧ s.cmdLatch ≠ 0x00000000#32 ∧
      s.cmdLatch ≠ 0x01000000#32 ∧ s.cmdLatch ≠ 0x02000000#32 :=
  ⟨stopped 0x20200000#32, rfl, rfl, rfl, by decide, by decide, by decide⟩

theorem witness_EveryCommandCompletes : ∃ s : State, s.busy = true ∧ nextEvent s = .completion :=
  ⟨inFlight 0xFF000000#32 [], rfl, rfl⟩

/-- An inversion of 0 in the reset state. -/
theorem finv_of_zero : exec (.finv 1 0) State.reset = .next (State.reset.raise .invZero) :=
  execInverse_zero (d := 1) (a := 0) (s := State.reset) p_pos (by decide +kernel)

/-- One next state for each case of ErrorsArePrecise, FlagsWrittenByClass and FlagsAreOutputsOnly. -/
theorem witness_ErrorsArePrecise :
    (∃ t, exec .clrerr State.reset = .next t) ∧ (∃ t, exec (.mov 1 0) State.reset = .next t) ∧
    ∃ t, exec (.finv 1 0) State.reset = .next t :=
  ⟨⟨_, rfl⟩, ⟨_, rfl⟩, ⟨_, finv_of_zero⟩⟩

theorem witness_ErrorRecordWrittenOnlyByErrors :
    (∃ t, step (idle []) = .next t) ∧ (∃ t, step (inFlight 0xFF000000#32 []) = .next t ∧ t.err = true) ∧
    (∃ t, step (stopped 0x01000000#32) = .next t ∧ t.err = false) ∧ ∃ t, step (idle [.reset]) = .next t :=
  ⟨⟨_, rfl⟩, ⟨_, rfl, by decide +kernel⟩, ⟨_, rfl, by decide +kernel⟩, ⟨_, rfl⟩⟩

theorem witness_OverrunBit :
    (∃ s : State, s.busy = true ∧ nextEvent s = .regWrite 0 0#32) ∧
    (∃ s : State, s.busy = true ∧ nextEvent s = .bufWrite 0#8 0#8) ∧
    (∃ s t : State, step s = .next t ∧ nextEvent s = .reset) ∧
    (∃ s t : State, step s = .next t ∧ s.busy = true ∧ nextEvent s = .completion ∧ s.cmdLatch = 0x01000000#32) ∧
    ∃ t, exec (.mov 1 0) State.reset = .next t :=
  ⟨⟨inFlight 0#32 [.regWrite 0 0#32], rfl, rfl⟩, ⟨inFlight 0#32 [.bufWrite 0#8 0#8], rfl, rfl⟩,
    ⟨idle [.reset], _, rfl, rfl⟩, ⟨inFlight 0x01000000#32 [], _, rfl, rfl, rfl, rfl⟩, ⟨_, rfl⟩⟩

theorem witness_FlagsWrittenByClass :
    State.reset.err = false ∧
    (∃ t, exec (.mov 1 0) State.reset = .next t ∧ flagClass (.mov 1 0) = .none ∧ t.err = false) ∧
    (∃ t, exec (.cmp 1 0) State.reset = .next t ∧ flagClass (.cmp 1 0) = .compare 1 0 ∧ t.err = false) ∧
    (∃ t, exec (.fred 1 0) State.reset = .next t ∧ flagClass (.fred 1 0) = .zero 1 ∧ t.err = false) ∧
    (∃ t, exec (.pinf 1) State.reset = .next t ∧ flagClass (.pinf 1) = .inf 1 ∧ t.err = false) ∧
    (∃ t, exec .zeroize State.reset = .next t ∧ flagClass .zeroize = .all ∧ t.err = false) ∧
    ∃ t, exec (.finv 1 0) State.reset = .next t ∧ t.err = true :=
  ⟨rfl, ⟨_, rfl, rfl, rfl⟩, ⟨_, rfl, rfl, rfl⟩, ⟨_, rfl, rfl, rfl⟩, ⟨_, rfl, rfl, rfl⟩, ⟨_, rfl, rfl, rfl⟩,
    ⟨_, finv_of_zero, rfl⟩⟩

theorem witness_FlagsAreOutputsOnly : ∃ t, exec (.cmp 1 0) State.reset = .next t := ⟨_, rfl⟩

theorem witness_ErrorCodesByCommand :
    (∃ t, exec (.finv 1 0) State.reset = .next t ∧ State.reset.err = false ∧ t.err = true) ∧
    raisableErrors .nop = [] ∧ raisableErrors (.padd 0 0 0) = [] ∧ State.reset.err = false :=
  ⟨⟨_, finv_of_zero, rfl, rfl⟩, rfl, rfl, rfl⟩

theorem witness_StepKeepsInvariant : ∃ s t : State, s.Inv ∧ step s = .next t := by
  refine ⟨inFlight 0x13300003#32 [], _, ⟨rfl, fun k => ?_, fun _ => ⟨rfl, rfl⟩, fun h => by cases h⟩, rfl⟩
  change ((Vector.replicate 4 PointVal.inf)[k]).valid = true
  revert k
  decide

theorem witness_ReachableStatesKeepInvariant : ∃ s : State, Reachable s ∧ s.busy = true :=
  ⟨_, .step (.start [.regWrite 0 0x13000001#32]) rfl, rfl⟩

theorem witness_StatusReadsAreInvisible :
    ∃ s t : State, s.busy = true ∧ step (s.withScript [.completion]) = .next t :=
  ⟨inFlight 0x13000001#32 [], _, rfl, rfl⟩

/-- NOP, CLRERR and ZEROIZE in flight, with ERR = 1. -/
theorem witness_NopChangesNothing :
    ∃ s : State, s.busy = true ∧ nextEvent s = .completion ∧ s.cmdLatch = 0x00000000#32 ∧ s.err = true :=
  ⟨stopped 0x00000000#32, rfl, rfl, rfl, rfl⟩

theorem witness_ClrerrClearsErrorRecord :
    ∃ s : State, s.busy = true ∧ nextEvent s = .completion ∧ s.cmdLatch = 0x01000000#32 ∧ s.err = true :=
  ⟨stopped 0x01000000#32, rfl, rfl, rfl, rfl⟩

theorem witness_ZeroizeClearsData :
    ∃ s t : State, s.busy = true ∧ nextEvent s = .completion ∧ s.cmdLatch = 0x02000000#32 ∧ s.err = true ∧
      exec .zeroize s.takeEvent = .next t :=
  ⟨stopped 0x02000000#32, _, rfl, rfl, rfl, rfl, rfl⟩

/-- The last address at which a 48-byte access fits, and the first at which it does not. -/
theorem witness_LdxLoadsBigEndian : 255 < 256 ∧ 208 + 48 ≤ 256 ∧ 256 < 209 + 48 := by decide

theorem witness_StxStoresBigEndian :
    255 < 256 ∧ Memory.wf State.reset.buf = true ∧ 208 + 48 ≤ 256 ∧ 256 < 209 + 48 := by decide

theorem witness_LdcLoadsConstant :
    ∀ k ∈ [Const.zero, .one, .p, .n, .a, .b, .r2p, .r2n], ∃ t, exec (.ldc 3 k) State.reset = .next t :=
  fun _ _ => ⟨_, rfl⟩

/-- Canonical operands up to m - 1, and the first operand out of range in either register. -/
def RangeWitness (m : Nat) : Prop :=
  (∃ s : State, s.xNat 0 < m ∧ s.xNat 1 < m ∧ s.xNat 0 = m - 1) ∧
  (∃ s : State, m ≤ s.xNat 0) ∧ ∃ s : State, s.xNat 0 < m ∧ m ≤ s.xNat 1

theorem range_p : RangeWitness Config.p :=
  ⟨⟨putX 0 (Config.p - 1) State.reset, by decide +kernel, by decide +kernel, by decide +kernel⟩,
    ⟨putX 0 Config.p State.reset, by decide +kernel⟩,
    ⟨putX 1 Config.p State.reset, by decide +kernel, by decide +kernel⟩⟩

theorem range_n : RangeWitness Config.n :=
  ⟨⟨putX 0 (Config.n - 1) State.reset, by decide +kernel, by decide +kernel, by decide +kernel⟩,
    ⟨putX 0 Config.n State.reset, by decide +kernel⟩,
    ⟨putX 1 Config.n State.reset, by decide +kernel, by decide +kernel⟩⟩

/-- A canonical operand that is not 0, the operand 0, and one out of range. -/
def InverseWitness (m : Nat) : Prop :=
  (∃ s : State, 0 < s.xNat 0 ∧ s.xNat 0 < m ∧ s.xNat 0 = m - 1) ∧ (∃ s : State, s.xNat 0 = 0) ∧
  ∃ s : State, m ≤ s.xNat 0

theorem inverse_p : InverseWitness Config.p :=
  ⟨⟨putX 0 (Config.p - 1) State.reset, by decide +kernel, by decide +kernel, by decide +kernel⟩,
    ⟨State.reset, rfl⟩, ⟨putX 0 Config.p State.reset, by decide +kernel⟩⟩

theorem inverse_n : InverseWitness Config.n :=
  ⟨⟨putX 0 (Config.n - 1) State.reset, by decide +kernel, by decide +kernel, by decide +kernel⟩,
    ⟨State.reset, rfl⟩, ⟨putX 0 Config.n State.reset, by decide +kernel⟩⟩

theorem witness_FaddAddsModP : RangeWitness Config.p := range_p

theorem witness_FsubSubtractsModP : RangeWitness Config.p := range_p

theorem witness_FmulMultipliesModP : RangeWitness Config.p := range_p

theorem witness_FmmulIsMontgomeryProduct : RangeWitness Config.p := range_p

theorem witness_NaddAddsModN : RangeWitness Config.n := range_n

theorem witness_NsubSubtractsModN : RangeWitness Config.n := range_n

theorem witness_NmulMultipliesModN : RangeWitness Config.n := range_n

theorem witness_NmmulIsMontgomeryProduct : RangeWitness Config.n := range_n

theorem witness_FinvInvertsModP : InverseWitness Config.p := inverse_p

theorem witness_NinvInvertsModN : InverseWitness Config.n := inverse_n

/-- The operand 4 is a square, p - 1 is canonical and, -1 being no square, has no root; p is out of range. -/
theorem witness_FsqrtExtractsRoot :
    (∃ s : State, s.xNat 0 < Config.p ∧ ∃ y, y * y % Config.p = s.xNat 0) ∧
    (∃ s : State, s.xNat 0 < Config.p ∧ ¬∃ y, y * y % Config.p = s.xNat 0) ∧ ∃ s : State, Config.p ≤ s.xNat 0 := by
  refine ⟨⟨putX 0 4 State.reset, by decide +kernel, 2, by decide +kernel⟩,
    ⟨putX 0 (Config.p - 1) State.reset, by decide +kernel, ?_⟩, ⟨putX 0 Config.p State.reset, by decide +kernel⟩⟩
  rw [square_iff_sqrtP (by decide +kernel)]
  decide +kernel

theorem witness_PsetChecksCurve :
    (∃ s : State, onCurve (s.xNat 0) (s.xNat 1)) ∧
    (∃ s : State, s.xNat 0 < Config.p ∧ s.xNat 1 < Config.p ∧ ¬onCurve (s.xNat 0) (s.xNat 1)) ∧
    (∃ s : State, Config.p ≤ s.xNat 0) ∧ ∃ s : State, s.xNat 0 < Config.p ∧ Config.p ≤ s.xNat 1 :=
  ⟨⟨putX 0 Config.gx (putX 1 Config.gy State.reset), by decide +kernel⟩,
    ⟨State.reset, by decide +kernel, by decide +kernel, by decide +kernel⟩,
    ⟨putX 0 Config.p State.reset, by decide +kernel⟩,
    ⟨putX 1 Config.p State.reset, by decide +kernel, by decide +kernel⟩⟩

/-- A point register that holds an affine point, and one that holds Inf. -/
def PointWitness : Prop :=
  (∃ (s : State) (x y : Val), s.point 0 = .aff x y) ∧ ∃ s : State, s.point 0 = .inf

theorem point_witness : PointWitness :=
  ⟨⟨putP 0 generator State.reset, _, _, rfl⟩, ⟨State.reset, rfl⟩⟩

theorem witness_PgetxReadsX : PointWitness := point_witness

theorem witness_PgetyReadsY : PointWitness := point_witness

/-- G and -G in P[0] and P[1], Inf in P[2] and P[3]. -/
def twoPoints : State := putP 0 generator (putP 1 (ptNeg generator) State.reset)

theorem twoPoints_ok : twoPoints.pointsOk := by
  rw [State.pointsOk]
  decide +kernel

theorem witness_PdblDoublesPoint :
    (∃ s : State, s.pointsOk ∧ s.point 2 = .inf) ∧ ∃ (s : State) (x y : Val), s.pointsOk ∧ s.point 0 = .aff x y :=
  ⟨⟨twoPoints, twoPoints_ok, rfl⟩, ⟨twoPoints, _, _, twoPoints_ok, rfl⟩⟩

/-- One state for each case of the sum: Inf first, Inf second, equal, opposite, equal x, different x. -/
theorem witness_PaddAddsPoints :
    twoPoints.pointsOk ∧ twoPoints.point 2 = .inf ∧ twoPoints.point 0 = twoPoints.point 0 ∧
    twoPoints.point 1 = ptNeg (twoPoints.point 0) ∧
    (∃ x1 y1 x2 y2 : Val, twoPoints.point 0 = .aff x1 y1 ∧ twoPoints.point 1 = .aff x2 y2 ∧ x1 = x2 ∧ y1 ≠ y2) ∧
    ∃ (s : State) (x1 y1 x2 y2 : Val), s.pointsOk ∧ s.point 0 = .aff x1 y1 ∧ s.point 1 = .aff x2 y2 ∧ x1 ≠ x2 := by
  refine ⟨twoPoints_ok, rfl, rfl, rfl, ⟨_, _, _, _, rfl, rfl, rfl, by decide +kernel⟩,
    ⟨putP 1 (ptDbl generator) twoPoints, _, _, _, _, ?_, rfl, rfl, by decide +kernel⟩⟩
  rw [State.pointsOk]
  decide +kernel

theorem witness_PmulMultipliesPoint :
    (∃ s : State, s.xNat 0 < Config.n ∧ s.xNat 0 = Config.n - 1) ∧ (∃ s : State, s.xNat 0 < Config.n ∧ s.xNat 0 = 0) ∧
    ∃ s : State, Config.n ≤ s.xNat 0 :=
  ⟨⟨putX 0 (Config.n - 1) State.reset, by decide +kernel, by decide +kernel⟩, ⟨State.reset, by decide +kernel, rfl⟩,
    ⟨putX 0 Config.n State.reset, by decide +kernel⟩⟩

/-- The last address at which 49 bytes fit is 207. -/
theorem witness_PencWritesCompressedPoint :
    255 < 256 ∧ 207 + 49 ≤ 256 ∧ 256 < 208 + 49 ∧
    (∃ (s : State) (x y : Val), Memory.wf s.buf = true ∧ s.point 0 = .aff x y) ∧
    ∃ s : State, Memory.wf s.buf = true ∧ s.point 0 = .inf :=
  ⟨by decide, by decide, by decide, ⟨twoPoints, _, _, rfl, rfl⟩, ⟨State.reset, rfl, rfl⟩⟩

/-- A buffer at address 0 with the tag `tag` and the x coordinate `v`. -/
def buffer (tag : Byte) (v : Nat) : State := (State.reset.setByte 0 tag).memWrite 1 48 v

theorem witness_PdecReadsCompressedPoint :
    255 < 256 ∧ 48 ≠ 49 ∧ 207 + 49 ≤ 256 ∧ 256 < 208 + 49 ∧
    ((buffer 0x04#8 Config.gx).byteAt 0 ≠ 0x02#8 ∧ (buffer 0x04#8 Config.gx).byteAt 0 ≠ 0x03#8) ∧
    ((buffer 0x02#8 Config.p).byteAt 0 = 0x02#8 ∧
      ¬∃ y, onCurve ((buffer 0x02#8 Config.p).memRead 1 48) y) ∧
    ((buffer 0x03#8 Config.gx).byteAt 0 = 0x03#8 ∧ onCurve ((buffer 0x03#8 Config.gx).memRead 1 48) Config.gy ∧
      Config.gy % 2 = ((buffer 0x03#8 Config.gx).byteAt 0).toNat % 2) ∧
    ((buffer 0x02#8 Config.gx).byteAt 0 = 0x02#8 ∧ ∃ y, onCurve ((buffer 0x02#8 Config.gx).memRead 1 48) y) := by
  refine ⟨by decide, by decide, by decide, by decide, by decide +kernel, ⟨by decide +kernel, ?_⟩,
    ⟨by decide +kernel, by decide +kernel, by decide +kernel⟩, ⟨by decide +kernel, Config.gy, by decide +kernel⟩⟩
  rintro ⟨y, hy, _⟩
  revert hy
  decide +kernel

theorem witness_MontgomeryIdentities : Config.p - 1 < Config.p ∧ Config.n - 1 < Config.n := by decide +kernel

theorem witness_GeneratorHasOrderN : 0 < 1 ∧ 1 < Config.n ∧ Config.n - 1 < Config.n := by decide +kernel

theorem witness_PointsFormGroup :
    generator.valid = true ∧ (ptNeg generator).valid = true ∧ (PointVal.inf).valid = true := by decide +kernel

theorem witness_CodecRoundTrip :
    (∃ s : State, s.Inv ∧ 207 + 49 ≤ 256 ∧ s.point 0 ≠ .inf) ∧
    ∃ s t : State, s.Inv ∧ s.err = false ∧ exec (.pdec 1 0 49) s = .next t ∧ t.err = false := by
  refine ⟨⟨twoPoints, ⟨rfl, twoPoints_ok, fun _ => ⟨rfl, rfl⟩, fun h => by cases h⟩, by decide, by decide +kernel⟩, ?_⟩
  have hw : Memory.wf (buffer 0x03#8 Config.gx).buf = true := by decide +kernel
  have ht : (buffer 0x03#8 Config.gx).byteAt 0 = 0x03#8 := by decide +kernel
  have hc : onCurve ((buffer 0x03#8 Config.gx).memRead 1 48) Config.gy := by decide +kernel
  have hp : Config.gy % 2 = ((buffer 0x03#8 Config.gx).byteAt 0).toNat % 2 := by decide +kernel
  have hk : (buffer 0x03#8 Config.gx).pointsOk := by
    rw [State.pointsOk]
    decide +kernel
  refine ⟨buffer 0x03#8 Config.gx, _, ⟨hw, hk, fun _ => ⟨rfl, rfl⟩, fun h => ?_⟩, rfl,
    (execPdec_tagged (by decide) (.inr ht)).trans (decodePoint_of hc hp), rfl⟩
  exact absurd h (by decide +kernel)

end Sys2Proof.Tests
end

section
/-! The points of the curve with pt_add are a commutative group, and G has order n (00_scope.md rules R5, R10).
Every law is carried back from Mathlib's group of the curve's points along `toPoint`. -/

namespace Sys2Proof.Machine

/-! ## Points of the curve in Mathlib's group -/

theorem inf_valid : PointVal.inf.valid = true := rfl

theorem generator_valid : generator.valid = true := by decide +kernel

theorem generator_ne_inf : generator ≠ .inf := by simp [generator]

section
variable [Fact (Nat.Prime Config.p)]

theorem toPoint_inf : toPoint .inf = 0 := rfl

/-- `neg` is the group's negation. -/
theorem toPoint_ptNeg {q : PointVal} (hq : q.valid = true) : toPoint (ptNeg q) = -toPoint q := by
  match q with
  | .inf => exact neg_zero.symm
  | .aff x y =>
    have hon := valid_aff.mp hq
    have hneg := ptNeg_valid hq
    rw [ptNeg] at hneg ⊢
    have hy : ((BitVec.ofNat 384 ((Config.p - y.toNat) % Config.p)).toNat : ZMod Config.p) = -y.toNat := by
      rw [val_toNat_ofNat (Nat.mod_lt _ p_pos) p_lt, ZMod.natCast_mod, Nat.cast_sub hon.2.1.le,
        ZMod.natCast_self, zero_sub]
    rw [toPoint_aff (valid_aff.mp hneg), toPoint_aff hon, WeierstrassCurve.Affine.Point.neg_some]
    simp only [hy, negY_curveW]

/-- Inf is the one valid value that stands for the neutral element. -/
theorem toPoint_eq_zero_iff {q : PointVal} (hq : q.valid = true) : toPoint q = 0 ↔ q = .inf :=
  ⟨toPoint_injective hq inf_valid, fun h => by rw [h, toPoint_inf]⟩

end

/-! ## The group laws of pt_add, neg and pt_mul -/

theorem ptAdd_inf (q : PointVal) : ptAdd q .inf = q := by
  cases q <;> rfl

theorem inf_ptAdd (q : PointVal) : ptAdd .inf q = q := rfl

theorem ptAdd_self (q : PointVal) : ptAdd q q = ptDbl q := by
  cases q with
  | inf => rfl
  | aff x y => rw [ptAdd, if_pos ⟨rfl, rfl⟩]

theorem ptAdd_comm {q r : PointVal} (hq : q.valid = true) (hr : r.valid = true) : ptAdd q r = ptAdd r q := by
  have := Fact.mk p384_prime
  obtain ⟨hqr, eqr⟩ := ptAdd_spec hq hr
  obtain ⟨hrq, erq⟩ := ptAdd_spec hr hq
  exact toPoint_injective hqr hrq (by rw [eqr, erq, add_comm])

theorem ptAdd_assoc {q r u : PointVal} (hq : q.valid = true) (hr : r.valid = true) (hu : u.valid = true) :
    ptAdd (ptAdd q r) u = ptAdd q (ptAdd r u) := by
  have := Fact.mk p384_prime
  obtain ⟨hqr, eqr⟩ := ptAdd_spec hq hr
  obtain ⟨hru, eru⟩ := ptAdd_spec hr hu
  obtain ⟨hl, el⟩ := ptAdd_spec hqr hu
  obtain ⟨hr', er⟩ := ptAdd_spec hq hru
  exact toPoint_injective hl hr' (by rw [el, er, eqr, eru, add_assoc])

theorem ptAdd_ptNeg {q : PointVal} (hq : q.valid = true) : ptAdd q (ptNeg q) = .inf := by
  have := Fact.mk p384_prime
  obtain ⟨hv, e⟩ := ptAdd_spec hq (ptNeg_valid hq)
  exact (toPoint_eq_zero_iff hv).mp (by rw [e, toPoint_ptNeg hq, add_neg_cancel])

theorem ptMul_succ (k : Nat) (q : PointVal) : ptMul (k + 1) q = ptAdd (ptMul k q) q := rfl

theorem ptMul_ptMul {q : PointVal} (hq : q.valid = true) (j k : Nat) : ptMul j (ptMul k q) = ptMul (j * k) q := by
  have := Fact.mk p384_prime
  obtain ⟨hk, ek⟩ := ptMul_spec hq k
  obtain ⟨hj, ej⟩ := ptMul_spec hk j
  obtain ⟨hjk, ejk⟩ := ptMul_spec hq (j * k)
  exact toPoint_injective hj hjk (by rw [ej, ek, ejk, mul_nsmul'])

/-- Settles O59: each law is the one of Mathlib's group, carried back along `toPoint`. -/
theorem pointsFormGroup : Obligations.PointsFormGroup := fun q _ _ hq hr hu =>
  ⟨ptAdd_valid hq hr, ptNeg_valid hq, ptMul_valid hq, ptAdd_comm hq hr, ptAdd_assoc hq hr hu, ptAdd_inf q,
    inf_ptAdd q, ptAdd_ptNeg hq, ptAdd_self q, ptMul_ptMul hq⟩

/-! ## The order of the base point -/

set_option Elab.async false

/-- The one long evaluation: n·G by double-and-add. -/
theorem ptMulEval_n_generator : ptMulEval Config.n generator = .inf := by decide +kernel

theorem ptMul_n_generator : ptMul Config.n generator = .inf := by
  rw [← ptMulEval_eq_ptMul, ptMulEval_n_generator]

section
variable [Fact (Nat.Prime Config.p)]

/-- n is prime and G is not Inf, so n·G = Inf gives the order. -/
theorem addOrderOf_generator : addOrderOf (toPoint generator) = Config.n := by
  have := Fact.mk n384_prime
  obtain ⟨-, e⟩ := ptMul_spec generator_valid Config.n
  refine addOrderOf_eq_prime ?_ ?_
  · rw [← e, ptMul_n_generator, toPoint_inf]
  · rw [Ne, toPoint_eq_zero_iff generator_valid]
    exact generator_ne_inf

end

/-- The multiples of G that are Inf are those by a multiple of n. -/
theorem ptMul_generator_eq_inf_iff (k : Nat) : ptMul k generator = .inf ↔ Config.n ∣ k := by
  have := Fact.mk p384_prime
  obtain ⟨hv, e⟩ := ptMul_spec generator_valid k
  rw [← toPoint_eq_zero_iff hv, e, ← addOrderOf_generator, addOrderOf_dvd_iff_nsmul_eq_zero]

/-- (n - 1)·G + G = Inf, so (n - 1)·G is the opposite of G. -/
theorem ptMul_pred_n_generator : ptMul (Config.n - 1) generator = ptNeg generator := by
  have := Fact.mk p384_prime
  have hsum : ptAdd (ptMul (Config.n - 1) generator) generator = .inf := by
    rw [← ptMul_succ, Nat.sub_add_cancel n_pos, ptMul_n_generator]
  obtain ⟨hv, -⟩ := ptMul_spec generator_valid (Config.n - 1)
  obtain ⟨-, e⟩ := ptAdd_spec hv generator_valid
  refine toPoint_injective hv (ptNeg_valid generator_valid) ?_
  rw [toPoint_ptNeg generator_valid]
  exact eq_neg_of_add_eq_zero_left (by rw [← e, hsum, toPoint_inf])

/-- Settles O58: n·G = Inf is evaluated; the order of G divides the prime n, and a smaller positive multiple is
not divisible by n. -/
theorem generatorHasOrderN : Obligations.GeneratorHasOrderN := by
  refine ⟨ptMul_n_generator, fun k hpos hlt hinf => ?_, ptMul_pred_n_generator⟩
  exact Nat.not_dvd_of_pos_of_lt hpos hlt ((ptMul_generator_eq_inf_iff k).mp hinf)

end Sys2Proof.Machine
end

section
/-! The state of the core, the host's port and what every step keeps (10_state.md rules R27 to R45). The tier 1
statements are one equation per event; the invariants are derived from `exec_cases` and `step_cases`, which say
everything a command and a step can do. -/

namespace Sys2Proof.Machine

/-! ## One step, event by event -/

/-- The step is the next event of the script, performed with that event taken off. -/
theorem step_of_nextEvent {s : State} {e : HostEvent} (h : nextEvent s = e) : step s = perform e s.takeEvent := by
  rw [step, h]

theorem step_regWrite_cmd {s : State} {w : Word} (h : nextEvent s = .regWrite offCmd w) :
    step s = .next (if s.busy then s.takeEvent.overrun else s.takeEvent.accept w) :=
  step_of_nextEvent h

theorem step_regWrite_other {s : State} {off : Nat} {w : Word} (h : nextEvent s = .regWrite off w)
    (hoff : inBufWindow off = false) (h0 : off ≠ offCmd) : step s = .next s.takeEvent := by
  rw [step_of_nextEvent h, perform, regWrite, hoff, if_neg (by simp), if_neg h0]

theorem step_regRead {s : State} {off : Nat} (h : nextEvent s = .regRead off) (hoff : inBufWindow off = false) :
    step s = .next (s.takeEvent.reply (.reg (s.regValue off))) := by
  rw [step_of_nextEvent h, perform, regRead, hoff, if_neg (by simp)]
  rfl

theorem step_bufWrite {s : State} {a v : Byte} (h : nextEvent s = .bufWrite a v) :
    step s = .next (if s.busy then s.takeEvent.overrun else s.takeEvent.setByte a.toNat v) :=
  step_of_nextEvent h

theorem step_bufRead {s : State} {a : Byte} (h : nextEvent s = .bufRead a) :
    step s = .next (s.takeEvent.reply (.byte (s.bufValue a))) :=
  step_of_nextEvent h

theorem step_reset {s : State} (h : nextEvent s = .reset) :
    step s = .next { State.reset with port := s.takeEvent.port } :=
  step_of_nextEvent h

/-- A command that is not squashed runs and is retired. -/
theorem step_runs {s : State} {i : Instr} (hb : s.busy = true)
    (hr : s.err = false ∨ survivesError s.cmdLatch = true) (he : nextEvent s = .completion)
    (hd : decode s.cmdLatch = .ok i) : step s = retireResult (exec i s.takeEvent) := by
  have hlatch : execLatch s.takeEvent = exec i s.takeEvent := by
    rw [execLatch_runs (s := s.takeEvent) hr, State.takeEvent_cmdLatch, hd]
  rw [step_completion he, complete_busy (s := s.takeEvent) hb, hlatch]

/-- Settles O5. -/
theorem stepRunsDecodedCommand : Obligations.StepRunsDecodedCommand := by
  intro s i hb hr he _ hd
  have hstep := step_runs hb hr he hd
  refine ⟨hstep, fun t ht => ?_⟩
  rw [hstep, ht, retireResult]

/-- Settles O6. -/
theorem regWriteAcceptsOrDrops : Obligations.RegWriteAcceptsOrDrops := by
  intro s off w he
  refine ⟨fun h0 hb => ?_, fun h0 hb => ?_, fun hpos hlt => ?_⟩
  · subst h0
    rw [step_regWrite_cmd he, hb]
    rfl
  · subst h0
    rw [step_regWrite_cmd he, hb]
    rfl
  · exact step_regWrite_other he (inBufWindow_below hlt) hpos.ne'

/-- Every offset without a register reads as 0 (rules R38, R42). -/
theorem regValue_unmapped {s : State} {off : Nat} (h4 : off ≠ 0x004) (h8 : off ≠ 0x008) (hC : off ≠ 0x00C) :
    s.regValue off = 0x00000000#32 := by
  rw [State.regValue, if_neg (c := off = offStatus) h4, if_neg (c := off = offErrCmd) h8,
    if_neg (c := off = offId) hC, ite_self]

/-- Settles O7: the value is `State.regValue`, read at each offset. -/
theorem regReadReturnsRegister : Obligations.RegReadReturnsRegister := by
  intro s off he hlt
  refine ⟨s.regValue off, step_regRead he (inBufWindow_below hlt), ?_, ?_, ?_, ?_, regValue_unmapped⟩
  all_goals
    rintro rfl
    rfl

/-- Settles O8. -/
theorem bufTransactions : Obligations.BufTransactions := by
  intro s hwf
  refine ⟨fun a he => ⟨fun hb => ?_, fun hb => ?_⟩, fun a v he => ⟨fun hb => ?_, fun hb => ?_⟩⟩
  · rw [step_bufRead he, State.bufValue, hb]
    rfl
  · rw [step_bufRead he, State.bufValue, hb]
    rfl
  · refine ⟨s.takeEvent.setByte a.toNat v, ?_, ?_, fun b hne => ?_, rfl⟩
    · rw [step_bufWrite he, hb]
      rfl
    · exact Memory.readByte_writeByte_same _ _ hwf
    · exact Memory.readByte_writeByte_other _ hne
  · rw [step_bufWrite he, hb]
    rfl

/-- Settles O9. -/
theorem accessesOutsideTheMap : Obligations.AccessesOutsideTheMap := by
  intro s
  refine ⟨fun off bits he => step_of_nextEvent he, fun off he => ⟨fun hlo hhi => ?_, fun hlo => ?_⟩,
    fun off w he => ⟨fun hlo hhi => ?_, fun hlo => ?_⟩⟩
  · rw [step_of_nextEvent he, perform, regRead, if_pos (inBufWindow_inside hlo hhi)]
  · rw [step_regRead he (inBufWindow_above hlo), regValue_unmapped (by omega) (by omega) (by omega)]
  · rw [step_of_nextEvent he, perform, regWrite, if_pos (inBufWindow_inside hlo hhi)]
  · exact step_regWrite_other he (inBufWindow_above hlo) (Nat.ne_of_gt (Nat.lt_of_lt_of_le (by decide) hlo))

/-! ## The state after Reset -/

theorem State.reset_xNat : ∀ r : XReg, State.reset.xNat r = 0 := by
  decide +kernel

theorem State.reset_point : ∀ k : PReg, State.reset.point k = .inf := by
  decide

/-- Settles O10. -/
theorem resetEventRestoresResetValues : Obligations.ResetEventRestoresResetValues := by
  intro s he
  exact ⟨_, step_reset he, State.reset_xNat, State.reset_point, fun _ => rfl, rfl, rfl, rfl, rfl, rfl, rfl, rfl, rfl, rfl,
    rfl⟩

/-! ## The layout of STATUS -/

theorem bit_le_one (b : Bool) : bit b ≤ 1 := by
  cases b <;> decide

theorem testBit_eq_iff_bit (n i : Nat) (b : Bool) : n.testBit i = b ↔ n / 2 ^ i % 2 = bit b := by
  rw [Nat.testBit_eq_decide_div_mod_eq]
  cases b
  · rw [decide_eq_false_iff_not, Nat.mod_two_not_eq_one]
    rfl
  · rw [decide_eq_true_iff]
    rfl

/-- The sum of rule R33 fits in 32 bits. -/
theorem status_toNat (s : State) :
    s.status.toNat = bit s.busy + 2 * bit s.err + 4 * bit s.ovr + 16 * bit s.flagEq + 32 * bit s.flagLt
      + 64 * bit s.flagZ + 128 * bit s.flagInf + 256 * s.errCode.toNat := by
  have hcode := s.errCode.isLt
  have h0 := bit_le_one s.busy
  have h1 := bit_le_one s.err
  have h2 := bit_le_one s.ovr
  have h4 := bit_le_one s.flagEq
  have h5 := bit_le_one s.flagLt
  have h6 := bit_le_one s.flagZ
  have h7 := bit_le_one s.flagInf
  rw [State.status, BitVec.toNat_ofNat, Nat.mod_eq_of_lt (by omega)]

theorem status_getLsbD_iff (s : State) (i : Nat) (b : Bool) :
    s.status.getLsbD i = b ↔ s.status.toNat / 2 ^ i % 2 = bit b :=
  testBit_eq_iff_bit _ _ _

theorem status_extract_toNat (s : State) (lo len : Nat) :
    (s.status.extractLsb' lo len).toNat = s.status.toNat / 2 ^ lo % 2 ^ len := by
  rw [BitVec.extractLsb'_toNat, Nat.shiftRight_eq_div_pow]

/-- Settles O11: every field is a quotient and remainder of the sum of rule R33. -/
theorem statusFields : Obligations.StatusFields := by
  intro s
  have hsum := status_toNat s
  have hcode := s.errCode.isLt
  have h0 := bit_le_one s.busy
  have h1 := bit_le_one s.err
  have h2 := bit_le_one s.ovr
  have h4 := bit_le_one s.flagEq
  have h5 := bit_le_one s.flagLt
  have h6 := bit_le_one s.flagZ
  have h7 := bit_le_one s.flagInf
  have hfalse : bit false = 0 := rfl
  simp only [status_getLsbD_iff, ← BitVec.toNat_inj, status_extract_toNat, BitVec.toNat_ofNat, hfalse]
  refine ⟨?_, ?_, ?_, ?_, ?_, ?_, ?_, ?_, ?_, ?_⟩ <;> omega

/-! ## CLRERR and the words that execute while ERR = 1 -/

/-- Only the row of CLRERR builds CLRERR. -/
theorem row_of_build_clrerr (w : Word) :
    ∀ r ∈ opcodeMap, r.build w = .clrerr → r.pattern = 0x01000000#32 ∧ r.mask = 0xFFFFFFFF#32 := by
  simp [opcodeMap, systemRows, moveRows, fieldRows, scalarRows, pointRows, codecRows, rowXXX, rowXX]

/-- CLRERR has one word (30_encoding.md rule R101). -/
theorem decode_eq_clrerr_iff (w : Word) : decode w = .ok .clrerr ↔ w = 0x01000000#32 := by
  constructor
  · intro h
    obtain ⟨r, hr, hsel, hbuild⟩ := selects_of_decode h
    obtain ⟨hpat, hmask⟩ := row_of_build_clrerr w r hr hbuild
    rw [Row.selects_iff, hpat, hmask] at hsel
    rw [← hsel]
    exact (BitVec.and_allOnes (x := w)).symm
  · rintro rfl
    decide +kernel

/-- The three words that execute while ERR = 1 are words of commands that raise no error (60_exceptions.md rules
R221, R225). -/
theorem decode_of_survivesError {w : Word} (h : survivesError w = true) :
    ∃ i, decode w = .ok i ∧ raisableErrors i = [] := by
  simp only [survivesError, Bool.or_eq_true, beq_iff_eq] at h
  rcases h with (rfl | rfl) | rfl
  · exact ⟨.nop, by decide +kernel, rfl⟩
  · exact ⟨.clrerr, by decide +kernel, rfl⟩
  · exact ⟨.zeroize, by decide +kernel, rfl⟩

theorem execLatch_clrerr {s : State} (h : s.cmdLatch = 0x01000000#32) : execLatch s = .next s.clearError := by
  have hsurv : survivesError s.cmdLatch = true := by
    rw [h]
    rfl
  rw [execLatch_runs (.inr hsurv), (decode_eq_clrerr_iff _).mpr h]
  rfl

/-! ## What a command does to the control state -/

/-- An error, CLRERR, or the control state as it was. -/
theorem exec_control {i : Instr} {s t : State} (h : exec i s = .next t) :
    (∃ c ∈ raisableErrors i, t = s.raise c) ∨ (i = .clrerr ∧ t = s.clearError) ∨ SameControl s t := by
  rcases exec_cases h with herr | ⟨-, d, v, rfl⟩ | ⟨d, v, -, rfl⟩ | ⟨d, q, -, rfl, -⟩ | ⟨-, b, rfl, -⟩ | hclr | ⟨-, rfl⟩ |
    ⟨a, b, -, rfl⟩
  case inl => exact .inl herr
  case inr.inr.inr.inr.inr.inl => exact .inr (.inl hclr)
  all_goals exact .inr (.inr (sameControl_refl s))

/-- Exec(CMDLATCH) raises an error only when ERR = 0, and clears the error record only for CLRERR. -/
theorem execLatch_control {s t : State} (h : execLatch s = .next t) :
    (s.err = false ∧ ∃ c, t = s.raise c) ∨ (s.cmdLatch = 0x01000000#32 ∧ t = s.clearError) ∨ SameControl s t := by
  rcases execLatch_cases h with ⟨-, -, rfl⟩ | ⟨hrun, hres⟩
  · exact .inr (.inr (sameControl_refl t))
  rcases hres with ⟨e, hd, rfl⟩ | ⟨i, hd, hexec⟩
  · refine .inl ⟨hrun.resolve_right fun hsurv => ?_, .illegalCmd, rfl⟩
    obtain ⟨j, hj, -⟩ := decode_of_survivesError hsurv
    rw [hd] at hj
    cases hj
  · rcases exec_control hexec with ⟨c, hc, rfl⟩ | ⟨rfl, rfl⟩ | hsame
    · refine .inl ⟨hrun.resolve_right fun hsurv => ?_, c, rfl⟩
      obtain ⟨j, hj, hnone⟩ := decode_of_survivesError hsurv
      rw [hd] at hj
      cases hj
      rw [hnone] at hc
      cases hc
    · exact .inr (.inl ⟨(decode_eq_clrerr_iff _).mp hd, rfl⟩)
    · exact .inr (.inr hsame)

/-- The same ERR, ERRCODE and ERRCMD. -/
def SameErrorRecord (s t : State) : Prop := t.err = s.err ∧ t.errCode = s.errCode ∧ t.errCmd = s.errCmd

theorem SameControl.sameErrorRecord {s t : State} (h : SameControl s t) : SameErrorRecord s t := by
  obtain ⟨-, herr, -, hcode, hcmd, -, -⟩ := h
  exact ⟨herr, hcode, hcmd⟩

theorem SameControl.ovr_eq {s t : State} (h : SameControl s t) : t.ovr = s.ovr := by
  obtain ⟨-, -, hovr, -, -, -, -⟩ := h
  exact hovr

/-- No host transaction but Reset writes the error record. -/
theorem HostWrites.sameErrorRecord {s t : State} (h : HostWrites s t) : SameErrorRecord s t := by
  rcases h with ⟨p, rfl⟩ | ⟨-, -, rfl⟩ | ⟨-, w, -, rfl⟩ | ⟨-, a, v, -, rfl⟩ <;> exact ⟨rfl, rfl, rfl⟩

/-- Settles O16. -/
theorem errorRecordWrittenOnlyByErrors : Obligations.ErrorRecordWrittenOnlyByErrors := by
  intro s t h
  rcases step_cases h with ⟨-, -, hw⟩ | ⟨he, rfl⟩ | ⟨-, -, rfl⟩ | ⟨he, hb, u, hu, rfl⟩
  · exact .inl hw.sameErrorRecord
  · exact .inr (.inr ⟨.inl he, rfl, rfl, rfl⟩)
  · exact .inl ⟨rfl, rfl, rfl⟩
  · rcases execLatch_control hu with ⟨herr, c, rfl⟩ | ⟨hlatch, rfl⟩ | hsame
    · exact .inr (.inl ⟨herr, hb, he, rfl, ⟨c, rfl⟩, rfl⟩)
    · exact .inr (.inr ⟨.inr ⟨hb, he, hlatch⟩, rfl, rfl, rfl⟩)
    · exact .inl hsame.sameErrorRecord

/-! ## OVR -/

/-- The host's writes that OVR records when they come while BUSY = 1 (rule R31). -/
theorem step_overrun {s : State} (hb : s.busy = true)
    (h : (∃ w, nextEvent s = .regWrite 0 w) ∨ ∃ a v, nextEvent s = .bufWrite a v) :
    step s = .next s.takeEvent.overrun := by
  rcases h with ⟨w, he⟩ | ⟨a, v, he⟩
  · rw [step_regWrite_cmd he, if_pos hb]
  · rw [step_bufWrite he, if_pos hb]

/-- A completed CLRERR (40_system.md rule R121). -/
theorem step_clrerr {s : State} (hb : s.busy = true) (he : nextEvent s = .completion)
    (hlatch : s.cmdLatch = 0x01000000#32) : step s = .next s.takeEvent.clearError.retire := by
  rw [step_completion he, complete_busy (s := s.takeEvent) hb,
    execLatch_clrerr (s := s.takeEvent) hlatch, retireResult]

/-- The steps that write OVR. -/
theorem step_ovr_cases {s t : State} (h : step s = .next t) : t.ovr = s.ovr ∨
    (s.busy = true ∧ ((∃ w, nextEvent s = .regWrite 0 w) ∨ ∃ a v, nextEvent s = .bufWrite a v)) ∨
    nextEvent s = .reset ∨ (s.busy = true ∧ nextEvent s = .completion ∧ s.cmdLatch = 0x01000000#32) := by
  rcases step_cases h with ⟨-, -, hw⟩ | ⟨he, -⟩ | ⟨-, -, rfl⟩ | ⟨he, hb, u, hu, rfl⟩
  · rcases hw with ⟨p, rfl⟩ | ⟨hb, hev, -⟩ | ⟨-, w, -, rfl⟩ | ⟨-, a, v, -, rfl⟩
    · exact .inl rfl
    · exact .inr (.inl ⟨hb, hev⟩)
    · exact .inl rfl
    · exact .inl rfl
  · exact .inr (.inr (.inl he))
  · exact .inl rfl
  · rcases execLatch_control hu with ⟨-, c, rfl⟩ | ⟨hlatch, -⟩ | hsame
    · exact .inl rfl
    · exact .inr (.inr (.inr ⟨hb, he, hlatch⟩))
    · exact .inl hsame.ovr_eq

/-- The effect of a command with another OVR differs in OVR alone. -/
theorem Effect.apply_ovr (e : Effect) (s : State) (o : Bool) :
    ∃ o', e.apply { s with ovr := o } = { e.apply s with ovr := o' } := by
  cases e <;> exact ⟨_, rfl⟩

/-- Settles O17; no command reads OVR by `exec_effect`. -/
theorem overrunBit : Obligations.OverrunBit := by
  refine ⟨fun s hb hev => ⟨_, step_overrun hb hev, rfl⟩, fun s t h hev => ?_, fun s t => step_ovr_cases,
    fun i s t o h => ?_⟩
  · rcases hev with he | ⟨hb, he, hlatch⟩
    · rw [step_reset he] at h
      cases h
      rfl
    · rw [step_clrerr hb he hlatch] at h
      cases h
      rfl
  · obtain ⟨f, hf⟩ := exec_effect i
    obtain ⟨o', ho⟩ := (f s.x s.points s.buf).apply_ovr s o
    rw [hf s] at h
    cases h
    exact ⟨o', (hf _).trans (congrArg _ ho)⟩

/-! ## The flags -/

/-- The effect of a command with other flags differs in the flags alone. -/
theorem Effect.apply_withFlags (e : Effect) (s : State) (eq lt z inf : Bool) :
    ∃ eq' lt' z' inf', e.apply (s.withFlags eq lt z inf) = (e.apply s).withFlags eq' lt' z' inf' := by
  cases e <;> exact ⟨_, _, _, _, rfl⟩

/-- Settles O19: by `exec_effect` the effect is chosen from x, P and BUF. -/
theorem flagsAreOutputsOnly : Obligations.FlagsAreOutputsOnly := by
  intro i s t eq lt z inf h
  obtain ⟨f, hf⟩ := exec_effect i
  obtain ⟨eq', lt', z', inf', hflags⟩ := (f s.x s.points s.buf).apply_withFlags s eq lt z inf
  rw [hf s] at h
  cases h
  exact ⟨eq', lt', z', inf', (hf _).trans (congrArg _ hflags)⟩

/-- Z of the value in `x[d]`. -/
theorem setX_setZ_writes (s : State) (d : XReg) (v : Val) :
    (FlagClass.zero d).Writes s ((s.setX d v).setZ (decide (v = 0#384))) := by
  refine ⟨?_, ⟨rfl, rfl⟩, rfl⟩
  rw [State.setZ_flagZ, State.setZ_xNat, State.setX_xNat_same, decide_eq_decide, ← BitVec.toNat_inj,
    BitVec.toNat_zero]

/-- INF of the point in `P[d]`. -/
theorem setPointResult_writes (s : State) (d : PReg) (q : PointVal) :
    (FlagClass.inf d).Writes s (s.setPointResult d q) := by
  obtain ⟨hpoint, hinf⟩ := State.setPointResult_spec s d q
  refine ⟨?_, ⟨rfl, rfl⟩, rfl⟩
  rw [hpoint, hinf, Bool.eq_iff_iff, decide_eq_true_iff, PointVal.isInf_iff]

/-- An error entry, or the flags of the command's row (rule R27). -/
theorem exec_flags {i : Instr} {s t : State} (h : exec i s = .next t) :
    (∃ c ∈ raisableErrors i, EndsInError c s t) ∨ (flagClass i).Writes s t := by
  rcases exec_cases h with ⟨c, hc, rfl⟩ | ⟨hi, d, v, rfl⟩ | ⟨d, v, hi, rfl⟩ | ⟨d, q, hi, rfl, -⟩ | ⟨hi, b, rfl, -⟩ |
    ⟨rfl, rfl⟩ | ⟨rfl, rfl⟩ | ⟨a, b, rfl, rfl⟩
  · exact .inl ⟨c, hc, State.raise_endsInError s c⟩
  all_goals refine .inr ?_
  · rw [hi]
    exact ⟨⟨rfl, rfl⟩, rfl, rfl⟩
  · rw [hi]
    exact setX_setZ_writes s d v
  · rw [hi]
    exact setPointResult_writes s d q
  · rw [hi]
    exact ⟨⟨rfl, rfl⟩, rfl, rfl⟩
  · exact ⟨⟨rfl, rfl⟩, rfl, rfl⟩
  · exact ⟨rfl, rfl, rfl, rfl⟩
  · exact ⟨rfl, rfl, rfl, rfl⟩

/-- Settles O18: ERR after the command tells the two cases of `exec_flags` apart. -/
theorem flagsWrittenByClass : Obligations.FlagsWrittenByClass := by
  intro i s t h
  refine ⟨exec_flags h, fun _ hok => ?_, fun hs ht => ?_⟩
  · refine (exec_flags h).resolve_left ?_
    rintro ⟨c, -, herr, -⟩
    rw [hok] at herr
    cases herr
  · rcases exec_control h with ⟨c, -, rfl⟩ | ⟨-, rfl⟩ | ⟨-, herr, -⟩
    · exact ⟨⟨rfl, rfl⟩, rfl, rfl⟩
    · cases ht
    · rw [herr, hs] at ht
      cases ht

/-! ## The invariant -/

theorem State.pointsOk.congr {s t : State} (hs : s.pointsOk) (h : t.points = s.points) : t.pointsOk := fun k => by
  rw [State.point_congr h]
  exact hs k

theorem State.reset_pointsOk : State.reset.pointsOk := fun k => by
  rw [State.reset_point k, inf_valid]

/-- A point register that is written with Inf or a point of the curve keeps all of them so. -/
theorem State.pointsOk.setPointResult {s : State} (hs : s.pointsOk) (d : PReg) {q : PointVal}
    (hq : q.valid = true) : (s.setPointResult d q).pointsOk := by
  intro k
  by_cases hk : k = d
  · subst hk
    rw [(State.setPointResult_spec s k q).1]
    exact hq
  · exact (congrArg (PointVal.valid · = true) (State.setPoint_point_other s q hk)).mpr (hs k)

theorem State.errorRecordOk.congr {s t : State} (hs : s.errorRecordOk) (h : SameErrorRecord s t) :
    t.errorRecordOk := by
  obtain ⟨herr, hcode, hcmd⟩ := h
  rwa [State.errorRecordOk, herr, hcode, hcmd]

theorem errorRecordOk_raise (s : State) (c : ErrCode) : (s.raise c).errorRecordOk :=
  ⟨fun h => Bool.noConfusion h, fun _ => ⟨c, rfl⟩⟩

/-- ERR = 0 with nothing recorded: after Reset and CLRERR. -/
theorem errorRecordOk_of_clear {s : State} (herr : s.err = false) (hcode : s.errCode = 0x00#8)
    (hcmd : s.errCmd = 0x00000000#32) : s.errorRecordOk :=
  ⟨fun _ => ⟨hcode, hcmd⟩, fun h => Bool.noConfusion (herr.symm.trans h)⟩

/-- The invariant speaks of BUF, P and the error record alone. -/
theorem State.Inv.congr {s t : State} (hs : s.Inv) (hbuf : t.buf = s.buf) (hpoints : t.points = s.points)
    (hrec : SameErrorRecord s t) : t.Inv := by
  obtain ⟨hwf, hpts, herr⟩ := hs
  exact ⟨hbuf ▸ hwf, hpts.congr hpoints, herr.congr hrec⟩

theorem State.Inv.withBuf {s t : State} (hs : s.Inv) (hbuf : Memory.wf t.buf = true) (hpoints : t.points = s.points)
    (hrec : SameErrorRecord s t) : t.Inv := by
  obtain ⟨-, hpts, herr⟩ := hs
  exact ⟨hbuf, hpts.congr hpoints, herr.congr hrec⟩

theorem State.Inv.raise {s : State} (hs : s.Inv) (c : ErrCode) : (s.raise c).Inv := by
  obtain ⟨hwf, hpts, -⟩ := hs
  exact ⟨hwf, hpts.congr rfl, errorRecordOk_raise s c⟩

theorem State.Inv.retire {s : State} (hs : s.Inv) : s.retire.Inv := hs.congr rfl rfl ⟨rfl, rfl, rfl⟩

theorem State.Inv.takeEvent {s : State} (hs : s.Inv) : s.takeEvent.Inv := hs.congr rfl rfl ⟨rfl, rfl, rfl⟩

/-- The reset values meet the invariant, whatever the host's port holds. -/
theorem reset_withPort_inv (p : Port) : { State.reset with port := p }.Inv :=
  ⟨Memory.wf_nil, State.reset_pointsOk.congr rfl, errorRecordOk_of_clear rfl rfl rfl⟩

/-- Every command keeps the invariant: the point it writes is valid and the bytes it stores lie inside BUF. -/
theorem exec_keeps_inv {i : Instr} {s t : State} (hs : s.Inv) (h : exec i s = .next t) : t.Inv := by
  have ⟨hwf, hpts, herr⟩ := hs
  rcases exec_cases h with ⟨c, -, rfl⟩ | ⟨-, d, v, rfl⟩ | ⟨d, v, -, rfl⟩ | ⟨d, q, -, rfl, hq⟩ | ⟨-, b, rfl, hb⟩ |
    ⟨-, rfl⟩ | ⟨-, rfl⟩ | ⟨a, b, -, rfl⟩
  · exact hs.raise c
  · exact hs.congr rfl rfl ⟨rfl, rfl, rfl⟩
  · exact hs.congr rfl rfl ⟨rfl, rfl, rfl⟩
  · exact ⟨hwf, hpts.setPointResult d (hq hpts), herr.congr ⟨rfl, rfl, rfl⟩⟩
  · exact hs.withBuf (hb hwf) rfl ⟨rfl, rfl, rfl⟩
  · exact ⟨hwf, hpts.congr rfl, errorRecordOk_of_clear rfl rfl rfl⟩
  · exact ⟨Memory.wf_nil, State.reset_pointsOk.congr rfl, herr.congr ⟨rfl, rfl, rfl⟩⟩
  · exact hs.congr rfl rfl ⟨rfl, rfl, rfl⟩

theorem execLatch_keeps_inv {s t : State} (hs : s.Inv) (h : execLatch s = .next t) : t.Inv := by
  rcases execLatch_cases h with ⟨-, -, rfl⟩ | ⟨-, ⟨e, -, rfl⟩ | ⟨i, -, hexec⟩⟩
  · exact hs
  · exact hs.raise .illegalCmd
  · exact exec_keeps_inv hs hexec

/-- The host writes one byte of BUF at an address below 256, and nothing else the invariant speaks of. -/
theorem HostWrites.keeps_inv {s t : State} (hs : s.Inv) (h : HostWrites s t) : t.Inv := by
  rcases h with ⟨p, rfl⟩ | ⟨-, -, rfl⟩ | ⟨-, w, -, rfl⟩ | ⟨-, a, v, -, rfl⟩
  · exact hs.congr rfl rfl ⟨rfl, rfl, rfl⟩
  · exact hs.congr rfl rfl ⟨rfl, rfl, rfl⟩
  · exact hs.congr rfl rfl ⟨rfl, rfl, rfl⟩
  · have ⟨hwf, _, _⟩ := hs
    exact hs.withBuf (Memory.wf_writeByte hwf a.isLt) rfl ⟨rfl, rfl, rfl⟩

/-- Settles O21. -/
theorem resetSatisfiesInvariant : Obligations.ResetSatisfiesInvariant := reset_withPort_inv _

/-- Settles O22, event by event. -/
theorem stepKeepsInvariant : Obligations.StepKeepsInvariant := by
  intro s t hs h
  rcases step_cases h with ⟨-, -, hw⟩ | ⟨-, rfl⟩ | ⟨-, -, rfl⟩ | ⟨-, -, u, hu, rfl⟩
  · exact hw.keeps_inv hs
  · exact reset_withPort_inv _
  · exact hs.takeEvent
  · exact (execLatch_keeps_inv hs.takeEvent hu).retire

/-- The invariant along every run from Reset. -/
theorem Reachable.inv {s : State} (h : Reachable s) : s.Inv := by
  induction h with
  | start es => exact reset_withPort_inv _
  | step _ hstep ih => exact stepKeepsInvariant _ _ ih hstep

/-- Settles O23. -/
theorem reachableStatesKeepInvariant : Obligations.ReachableStatesKeepInvariant := by
  intro s h
  obtain ⟨hwf, hpts, herr⟩ := h.inv
  exact ⟨hpts, herr, s.xNat_lt, hwf⟩

end Sys2Proof.Machine
end

section
/-! The command in flight and the host (20_memory.md rule R74, 70_reset_and_hazards.md rule R264). -/

namespace Sys2Proof.Machine

/-- While BUSY = 1 no host transaction but Reset writes anything but OVR and the host's port: a write of CMD or of
BUF is dropped. -/
theorem HostWrites.eq_of_busy {s t : State} (h : HostWrites s t) (hb : s.busy = true) :
    t = { s with ovr := t.ovr, port := t.port } := by
  rcases h with ⟨p, rfl⟩ | ⟨-, -, rfl⟩ | ⟨hidle, -⟩ | ⟨hidle, -⟩
  · rfl
  · rfl
  all_goals
    rw [hb] at hidle
    cases hidle

/-- Settles O12: an event that is neither a completion nor Reset is a host transaction. -/
theorem commandInFlightIsProtected : Obligations.CommandInFlightIsProtected := by
  intro s t hb hcompl hreset h
  rcases step_cases h with ⟨-, -, hw⟩ | ⟨he, -⟩ | ⟨he, -⟩ | ⟨he, -⟩
  · exact hw.eq_of_busy hb
  · exact absurd he hreset
  · exact absurd he hcompl
  · exact absurd he hcompl

end Sys2Proof.Machine
end

section
/-! The encoder and the decoder are inverse to each other (30_encoding.md rules R91 to R106). One direction is the
family `EncodedRow` of Sys2Proof/Laws/PerInstr.lean; the other is one fact per row of the opcode map: the row's mask
leaves no bit of the word open that the row's command does not hold. -/

namespace Sys2Proof.Laws.EncodedRow

/-- The family of the rows, command by command. -/
theorem of_instr : ∀ i : Instr, Statement i
  | .nop => nop
  | .clrerr => clrerr
  | .zeroize => zeroize
  | .ldx d addr => ldx d addr
  | .stx r addr => stx r addr
  | .mov d a => mov d a
  | .ldc d k => ldc d k
  | .cmp a b => cmp a b
  | .fadd d a b => fadd d a b
  | .fsub d a b => fsub d a b
  | .fmul d a b => fmul d a b
  | .fmmul d a b => fmmul d a b
  | .finv d a => finv d a
  | .fred d a => fred d a
  | .fsqrt d a => fsqrt d a
  | .nadd d a b => nadd d a b
  | .nsub d a b => nsub d a b
  | .nmul d a b => nmul d a b
  | .nmmul d a b => nmmul d a b
  | .ninv d a => ninv d a
  | .nred d a => nred d a
  | .pinf d => pinf d
  | .pldg d => pldg d
  | .pset d a b => pset d a b
  | .pgetx d a => pgetx d a
  | .pgety d a => pgety d a
  | .pmov d a => pmov d a
  | .pdbl d a => pdbl d a
  | .padd d a b => padd d a b
  | .pmul d k b => pmul d k b
  | .penc r addr => penc r addr
  | .pdec d addr len => pdec d addr len

end Sys2Proof.Laws.EncodedRow

namespace Sys2Proof.Machine

/-! ## From the command to its word and back -/

/-- Settles O2: the word selects a row that builds the command, and no other row matches. -/
theorem decodeOfEncode : Obligations.DecodeOfEncode := by
  intro i hwf
  obtain ⟨r, hr, hsel, hbuild⟩ := Laws.EncodedRow.of_instr i hwf
  rw [decode_of_selects hr hsel, hbuild]

/-- Settles O1: each word is the encoding of its command. -/
theorem specExampleWordsDecode : Obligations.SpecExampleWordsDecode :=
  ⟨decodeOfEncode (.fadd 2 0 1) rfl, decodeOfEncode (.pdec 1 0x40 49) rfl, decodeOfEncode (.ldc 3 .n) rfl,
    decodeOfEncode (.cmp 4 5) rfl, decodeOfEncode (.pmul 0 1 1) rfl⟩

/-! ## From the word to its command and back -/

/-- A word is its opcode, fields A and B, and its two low bytes (30_encoding.md rule R91). -/
theorem word_eq_bytes (w : Word) :
    w = place 24 (fieldOp w) ||| place 20 (fieldA w) ||| place 16 (fieldB w) ||| place 8 (w.extractLsb' 8 8) |||
      place 0 (w.extractLsb' 0 8) := by
  ext i hi
  interval_cases i <;> simp [place, fieldOp, fieldA, fieldB]

theorem extractLsb'_and {n : Nat} (u v : Word) (lo : Nat) :
    (u &&& v).extractLsb' lo n = u.extractLsb' lo n &&& v.extractLsb' lo n := by
  ext i hi
  simp

/-- `g` gives back every field that the mask `m` and the pattern `p` of a row admit. -/
abbrev GivesBack {n : Nat} (g : BitVec n → BitVec n) (m p : BitVec n) : Prop := ∀ f, f &&& m = p → g f = f

/-- A row of format R3 (or R1, R2 and Z, where the last fields are 0): the mask fixes the opcode and the twelve low
bits, and `ga`, `gb`, `gc` give back the fields A, B, C it admits. -/
abbrev FixesR3 (m p : Word) (ga gb gc : BitVec 4 → BitVec 4) : Prop :=
  fieldOp m = 0xFF#8 ∧ (m &&& 0xFFF#32 = 0xFFF#32 ∧ p &&& 0xFFF#32 = 0#32) ∧
  GivesBack ga (fieldA m) (fieldA p) ∧ GivesBack gb (fieldB m) (fieldB p) ∧ GivesBack gc (fieldC m) (fieldC p)

/-- A row of format D (or I, where len is 0): the mask fixes the opcode and field B, and `ga`, `gl`, `gi` give
back field A and the two low bytes it admits. -/
abbrev FixesD (m p : Word) (ga : BitVec 4 → BitVec 4) (gl gi : BitVec 8 → BitVec 8) : Prop :=
  fieldOp m = 0xFF#8 ∧ (fieldB m = 0xF#4 ∧ fieldB p = 0#4) ∧ GivesBack ga (fieldA m) (fieldA p) ∧
  GivesBack gl (m.extractLsb' 8 8) (p.extractLsb' 8 8) ∧ GivesBack gi (m.extractLsb' 0 8) (p.extractLsb' 0 8)

theorem fieldOp_eq_of_and {w m p : Word} (h : w &&& m = p) (hm : fieldOp m = 0xFF#8) : fieldOp w = fieldOp p := by
  rw [← h, fieldOp_and, hm]
  exact (BitVec.and_allOnes (x := fieldOp w)).symm

theorem formatR3_of_fixesR3 {w m p : Word} {ga gb gc : BitVec 4 → BitVec 4} (h : w &&& m = p)
    (hm : FixesR3 m p ga gb gc) :
    formatR3 (fieldOp p) (ga (fieldA w)) (gb (fieldB w)) (gc (fieldC w)) = w := by
  obtain ⟨hop, ⟨hlowm, hlowp⟩, ha, hb, hc⟩ := hm
  have hlow : w &&& 0xFFF#32 = 0#32 := by rw [← hlowm, ← BitVec.and_assoc, h, hlowp]
  rw [← fieldOp_eq_of_and h hop, ha _ (by rw [← fieldA_and, h]), hb _ (by rw [← fieldB_and, h]),
    hc _ (by rw [← fieldC_and, h])]
  conv_rhs => rw [word_eq_fields w, hlow, BitVec.or_zero]
  rfl

theorem formatD_of_fixesD {w m p : Word} {ga : BitVec 4 → BitVec 4} {gl gi : BitVec 8 → BitVec 8} (h : w &&& m = p)
    (hm : FixesD m p ga gl gi) :
    formatD (fieldOp p) (ga (fieldA w)) (gl (w.extractLsb' 8 8)) (gi (w.extractLsb' 0 8)) = w := by
  obtain ⟨hop, ⟨hbm, hbp⟩, ha, hl, hi⟩ := hm
  have hB : fieldB w = 0#4 := by
    have hwB : fieldB w &&& fieldB m = 0#4 := by rw [← fieldB_and, h, hbp]
    rw [hbm] at hwB
    exact (BitVec.and_allOnes (x := fieldB w)).symm.trans hwB
  rw [← fieldOp_eq_of_and h hop, ha _ (by rw [← fieldA_and, h]), hl _ (by rw [← extractLsb'_and, h]),
    hi _ (by rw [← extractLsb'_and, h])]
  conv_rhs => rw [word_eq_bytes w, hB, place_zero, BitVec.or_zero]
  rfl

/-- Every word that selects the row is the encoding of the well-formed command the row builds from it. -/
def EncodesBack (r : Row) : Prop :=
  ∀ w, r.selects w = true → (r.build w).wellFormed = true ∧ encode (r.build w) = w

/-! What reading a field as an operand and writing the operand again gives, for each kind of operand. -/

/-- The field of an x register (rule R98). -/
def xField (f : BitVec 4) : BitVec 4 := regField (xRegOf f)

/-- The field of a point register (rule R98). -/
def pField (f : BitVec 4) : BitVec 4 := regField (pRegOf f)

/-- The field of an 8-bit immediate (rule R99). -/
def immField (f : BitVec 8) : BitVec 8 := byteField f.toNat

/-- The selector of an LDC constant (41_move_compare.md rule R133). -/
def selectorField (f : BitVec 8) : BitVec 8 := constField (constOf (f.extractLsb' 0 3))

/-- A field that holds no operand is written as 0 (rule R91). -/
def zeroField {n : Nat} (_ : BitVec n) : BitVec n := 0#n

theorem encodesBack_of_fixesR3 {r : Row} (ga gb gc : BitVec 4 → BitVec 4)
    (hm : FixesR3 r.mask r.pattern ga gb gc) (hwf : ∀ w, (r.build w).wellFormed = true)
    (henc : ∀ w, encode (r.build w) = formatR3 (fieldOp r.pattern) (ga (fieldA w)) (gb (fieldB w)) (gc (fieldC w))) :
    EncodesBack r := fun w hsel =>
  ⟨hwf w, (henc w).trans (formatR3_of_fixesR3 ((Row.selects_iff r w).mp hsel) hm)⟩

theorem encodesBack_of_fixesD {r : Row} (ga : BitVec 4 → BitVec 4) (gl gi : BitVec 8 → BitVec 8)
    (hm : FixesD r.mask r.pattern ga gl gi) (hwf : ∀ w, (r.build w).wellFormed = true)
    (henc : ∀ w, encode (r.build w) =
      formatD (fieldOp r.pattern) (ga (fieldA w)) (gl (w.extractLsb' 8 8)) (gi (w.extractLsb' 0 8))) :
    EncodesBack r := fun w hsel =>
  ⟨hwf w, (henc w).trans (formatD_of_fixesD ((Row.selects_iff r w).mp hsel) hm)⟩

theorem formatI_eq (op : BitVec 8) (a : BitVec 4) (imm : BitVec 8) : formatI op a imm = formatD op a 0#8 imm := by
  simp [formatI, formatD, place]

theorem formatZ_eq (op : BitVec 8) : formatZ op = formatR3 op 0#4 0#4 0#4 := by
  simp [formatZ, formatR3, place]

theorem fieldAddr_lt (w : Word) : fieldAddr w < 256 := BitVec.isLt _

theorem fieldLen_lt (w : Word) : fieldLen w < 256 := BitVec.isLt _

/-- The selector is three bits of the low byte. -/
theorem selectorField_low (w : Word) :
    selectorField (w.extractLsb' 0 8) = constField (constOf (w.extractLsb' 0 3)) := by
  have hbits : (w.extractLsb' 0 8).extractLsb' 0 3 = w.extractLsb' 0 3 := by
    ext i hi
    simp
  rw [selectorField, hbits]

theorem rowXXX_encodesBack {p : Word} {make : XReg → XReg → XReg → Instr}
    (hm : FixesR3 0xFF888FFF#32 p xField xField xField) (hwf : ∀ d a b, (make d a b).wellFormed = true)
    (henc : ∀ d a b, encode (make d a b) = formatR3 (fieldOp p) (regField d) (regField a) (regField b)) :
    EncodesBack (rowXXX p make) :=
  encodesBack_of_fixesR3 xField xField xField hm (fun _ => hwf _ _ _) fun _ => henc _ _ _

theorem rowXX_encodesBack {p : Word} {make : XReg → XReg → Instr}
    (hm : FixesR3 0xFF88FFFF#32 p xField xField zeroField) (hwf : ∀ d a, (make d a).wellFormed = true)
    (henc : ∀ d a, encode (make d a) = formatR2 (fieldOp p) (regField d) (regField a)) :
    EncodesBack (rowXX p make) :=
  encodesBack_of_fixesR3 xField xField zeroField hm (fun _ => hwf _ _) fun _ => (henc _ _).trans (formatR2_eq _ _ _)

theorem systemRows_encodeBack : ∀ r ∈ systemRows, EncodesBack r := by
  simp only [systemRows, List.forall_mem_cons]
  refine ⟨?nop, ?clrerr, ?zeroize, List.forall_mem_nil _⟩
  case nop | clrerr | zeroize =>
    exact encodesBack_of_fixesR3 zeroField zeroField zeroField (by decide) (fun _ => rfl) fun _ => formatZ_eq _

theorem moveRows_encodeBack : ∀ r ∈ moveRows, EncodesBack r := by
  simp only [moveRows, List.forall_mem_cons]
  refine ⟨?ldx, ?stx, ?mov, ?ldc, ?cmp, List.forall_mem_nil _⟩
  case ldx | stx =>
    exact encodesBack_of_fixesD xField zeroField immField (by decide +kernel) (fun w => decide_eq_true (fieldAddr_lt w))
      fun _ => formatI_eq _ _ _
  case mov =>
    exact encodesBack_of_fixesR3 xField xField zeroField (by decide) (fun _ => rfl) fun _ => formatR2_eq _ _ _
  case ldc =>
    refine encodesBack_of_fixesD xField zeroField selectorField (by decide +kernel) (fun _ => rfl) fun w => ?_
    rw [selectorField_low]
    exact formatI_eq _ _ _
  case cmp => exact encodesBack_of_fixesR3 zeroField xField xField (by decide) (fun _ => rfl) fun _ => rfl

theorem fieldRows_encodeBack : ∀ r ∈ fieldRows, EncodesBack r := by
  simp only [fieldRows, List.forall_mem_cons]
  refine ⟨?fadd, ?fsub, ?fmul, ?fmmul, ?finv, ?fred, ?fsqrt, List.forall_mem_nil _⟩
  case fadd | fsub | fmul | fmmul => exact rowXXX_encodesBack (by decide) (fun _ _ _ => rfl) fun _ _ _ => rfl
  case finv | fred | fsqrt => exact rowXX_encodesBack (by decide) (fun _ _ => rfl) fun _ _ => rfl

theorem scalarRows_encodeBack : ∀ r ∈ scalarRows, EncodesBack r := by
  simp only [scalarRows, List.forall_mem_cons]
  refine ⟨?nadd, ?nsub, ?nmul, ?nmmul, ?ninv, ?nred, List.forall_mem_nil _⟩
  case nadd | nsub | nmul | nmmul => exact rowXXX_encodesBack (by decide) (fun _ _ _ => rfl) fun _ _ _ => rfl
  case ninv | nred => exact rowXX_encodesBack (by decide) (fun _ _ => rfl) fun _ _ => rfl

theorem pointRows_encodeBack : ∀ r ∈ pointRows, EncodesBack r := by
  simp only [pointRows, List.forall_mem_cons]
  refine ⟨?pinf, ?pldg, ?pset, ?pgetx, ?pgety, ?pmov, ?pdbl, ?padd, ?pmul, List.forall_mem_nil _⟩
  case pinf | pldg =>
    exact encodesBack_of_fixesR3 pField zeroField zeroField (by decide) (fun _ => rfl) fun _ => formatR1_eq _ _
  case pset => exact encodesBack_of_fixesR3 pField xField xField (by decide) (fun _ => rfl) fun _ => rfl
  case pgetx | pgety =>
    exact encodesBack_of_fixesR3 xField pField zeroField (by decide) (fun _ => rfl) fun _ => formatR2_eq _ _ _
  case pmov | pdbl =>
    exact encodesBack_of_fixesR3 pField pField zeroField (by decide) (fun _ => rfl) fun _ => formatR2_eq _ _ _
  case padd => exact encodesBack_of_fixesR3 pField pField pField (by decide) (fun _ => rfl) fun _ => rfl
  case pmul => exact encodesBack_of_fixesR3 pField xField pField (by decide) (fun _ => rfl) fun _ => rfl

theorem codecRows_encodeBack : ∀ r ∈ codecRows, EncodesBack r := by
  simp only [codecRows, List.forall_mem_cons]
  refine ⟨?penc, ?pdec, List.forall_mem_nil _⟩
  case penc =>
    exact encodesBack_of_fixesD pField zeroField immField (by decide +kernel) (fun w => decide_eq_true (fieldAddr_lt w))
      fun _ => formatI_eq _ _ _
  case pdec =>
    exact encodesBack_of_fixesD pField immField immField (by decide +kernel)
      (fun w => by simp [Instr.wellFormed, fieldAddr_lt, fieldLen_lt]) fun _ => rfl

theorem opcodeMap_encodesBack : ∀ r ∈ opcodeMap, EncodesBack r := by
  simp only [opcodeMap, List.forall_mem_append]
  exact ⟨⟨⟨⟨⟨systemRows_encodeBack, moveRows_encodeBack⟩, fieldRows_encodeBack⟩, scalarRows_encodeBack⟩,
    pointRows_encodeBack⟩, codecRows_encodeBack⟩

/-- Settles O3: the word selects the row that decodes it, and that row encodes back. -/
theorem encodeOfDecode : Obligations.EncodeOfDecode := by
  intro w i h
  obtain ⟨r, hr, hsel, rfl⟩ := selects_of_decode h
  exact opcodeMap_encodesBack r hr w hsel

/-! ## Words that are no command -/

/-- The error entry has cleared BUSY already (60_exceptions.md rule R224). -/
theorem retire_raise (s : State) (c : ErrCode) : (s.raise c).retire = s.raise c := rfl

/-- A completion of a word that is refused and not squashed. -/
theorem step_illegal {s : State} {e : DecodeError} (hb : s.busy = true)
    (hr : s.err = false ∨ survivesError s.cmdLatch = true) (he : nextEvent s = .completion)
    (hd : decode s.cmdLatch = .error e) : step s = .next (s.takeEvent.raise .illegalCmd) := by
  have hlatch : execLatch s.takeEvent = .next (s.takeEvent.raise .illegalCmd) := by
    rw [execLatch_runs (s := s.takeEvent) hr, State.takeEvent_cmdLatch, hd]
  rw [step_completion he, complete_busy (s := s.takeEvent) hb, hlatch, retireResult, retire_raise]

/-- Settles O4: a word that is no command's word is refused by the decoder. -/
theorem illegalWordEndsInIllegalCmd : Obligations.IllegalWordEndsInIllegalCmd := by
  intro s hb herr he hnone
  cases hd : decode s.cmdLatch with
  | ok i =>
    obtain ⟨hwf, henc⟩ := encodeOfDecode _ _ hd
    exact absurd henc (hnone i hwf)
  | error e => exact ⟨_, step_illegal hb (.inl herr) he hd, State.raise_endsInError _ _⟩

end Sys2Proof.Machine
end

section
/-! The system commands NOP, CLRERR and ZEROIZE (40_system.md rules R120 to R122): the rule of each as one equation
of `exec`, and one lemma for the completion of a word that executes while ERR = 1. -/

namespace Sys2Proof.Machine

theorem exec_nop (s : State) : exec .nop s = .next s := rfl

theorem exec_clrerr (s : State) : exec .clrerr s = .next s.clearError := rfl

theorem exec_zeroize (s : State) : exec .zeroize s = .next s.clearData.clearFlags := rfl

/-- The words of rule R225 are never squashed: whatever ERR is, the command runs and BUSY is cleared. -/
theorem step_of_survivesError {s t : State} {w : Word} {i : Instr} (hb : s.busy = true)
    (he : nextEvent s = .completion) (hlatch : s.cmdLatch = w) (hsurv : survivesError w = true)
    (hd : decode w = .ok i) (hexec : exec i s.takeEvent = .next t) : step s = .next t.retire := by
  subst hlatch
  rw [step_runs hb (.inr hsurv) he hd, hexec, retireResult]

/-! ## NOP -/

theorem decode_nop : decode 0x00000000#32 = .ok .nop := decodeOfEncode .nop rfl

/-- Settles O25: the completion runs `exec .nop`, which changes nothing, and then clears BUSY. -/
theorem nopChangesNothing : Obligations.NopChangesNothing :=
  ⟨decode_nop, exec_nop, fun s hb he hlatch =>
    step_of_survivesError hb he hlatch rfl decode_nop (exec_nop s.takeEvent)⟩

/-! ## CLRERR -/

/-- Settles O26: `State.clearError` is the four writes of rule R121, and the completion adds BUSY <- 0. -/
theorem clrerrClearsErrorRecord : Obligations.ClrerrClearsErrorRecord :=
  ⟨(decode_eq_clrerr_iff _).mpr rfl, exec_clrerr, fun _ hb he hlatch => step_clrerr hb he hlatch⟩

/-! ## ZEROIZE -/

theorem decode_zeroize : decode 0x02000000#32 = .ok .zeroize := decodeOfEncode .zeroize rfl

/-! The data that ZEROIZE leaves is the data of Reset (10_state.md rule R44). -/

theorem State.clearData_xNat (s : State) (r : XReg) : s.clearData.xNat r = 0 :=
  (State.xNat_congr (s := State.reset) rfl r).trans (State.reset_xNat r)

theorem State.clearData_point (s : State) (k : PReg) : s.clearData.point k = .inf :=
  (State.point_congr (s := State.reset) rfl k).trans (State.reset_point k)

theorem State.clearData_byteAt (s : State) (a : Nat) : s.clearData.byteAt a = 0x00#8 := rfl

theorem State.clearData_clearFlags_sameControl (s : State) : SameControl s s.clearData.clearFlags :=
  ⟨rfl, rfl, rfl, rfl, rfl, rfl, rfl⟩

/-- Settles O27: ZEROIZE clears the data and then the flags, and neither touches the control state. -/
theorem zeroizeClearsData : Obligations.ZeroizeClearsData := by
  refine ⟨decode_zeroize, fun s => ⟨s.clearData.clearFlags, exec_zeroize s, ?_⟩, fun s t hb he hlatch hexec => ?_⟩
  · exact ⟨s.clearData_xNat, s.clearData_point, s.clearData_byteAt, rfl, rfl, rfl, rfl,
      s.clearData_clearFlags_sameControl⟩
  · exact step_of_survivesError hb he hlatch rfl decode_zeroize hexec

end Sys2Proof.Machine
end

section
/-! The commands LDX, STX, MOV, LDC and CMP (41_move_compare.md rules R130 to R134): the word of each command is the
encoder's, its rule is one equation of `exec` per outcome, and what it writes and leaves is read off the updates
`State.setX`, `State.memWrite` and `State.setCompare`. -/

namespace Sys2Proof.Machine

/-! ## Words by format -/

/-- The word formula of rule R106 in format R3 (30_encoding.md rule R95). -/
theorem commandWord_formatR3 {op a b c : Nat} (hop : op < 256) (ha : a < 16) (hb : b < 16) (hc : c < 16) :
    commandWord op a b c 0 0 =
      formatR3 (BitVec.ofNat 8 op) (BitVec.ofNat 4 a) (BitVec.ofNat 4 b) (BitVec.ofNat 4 c) := by
  rw [commandWord_eq hop ha hb hc (by decide) (by decide) (.inr rfl), if_pos rfl, place_zero, BitVec.or_zero, formatR3]

/-- The word formula of rule R106 in format R2 (30_encoding.md rule R94). -/
theorem commandWord_formatR2 {op a b : Nat} (hop : op < 256) (ha : a < 16) (hb : b < 16) :
    commandWord op a b 0 0 0 = formatR2 (BitVec.ofNat 8 op) (BitVec.ofNat 4 a) (BitVec.ofNat 4 b) := by
  rw [commandWord_formatR3 hop ha hb (by decide), formatR2_eq]

/-- The word formula of rule R106 in format I (30_encoding.md rule R96). -/
theorem commandWord_formatI {op a imm : Nat} (hop : op < 256) (ha : a < 16) (himm : imm < 256) :
    commandWord op a 0 0 0 imm = formatI (BitVec.ofNat 8 op) (BitVec.ofNat 4 a) (BitVec.ofNat 8 imm) := by
  rw [commandWord_eq hop ha (by decide) (by decide) (by decide) himm (.inl rfl), if_pos rfl, place_zero, place_zero,
    BitVec.or_zero, BitVec.or_zero, formatI]

theorem XReg.val_lt_field (r : XReg) : r.val < 16 := r.isLt.trans (by decide)

/-- A word that is the encoding of a well-formed command decodes to it. -/
theorem decode_of_eq_encode {w : Word} {i : Instr} (hw : w = encode i) (hwf : i.wellFormed = true) :
    decode w = .ok i :=
  hw ▸ decodeOfEncode i hwf

/-! ## LDX -/

theorem decode_ldx (d : XReg) {addr : Nat} (h : addr < 256) :
    decode (commandWord 0x10 d.val 0 0 0 addr) = .ok (.ldx d addr) :=
  decode_of_eq_encode (commandWord_formatI (by decide) (XReg.val_lt_field d) h) (decide_eq_true h)

theorem exec_ldx_of_fits (d : XReg) {addr : Nat} (s : State) (h : addr + 48 ≤ 256) :
    exec (.ldx d addr) s = .next (s.setX d (BitVec.ofNat 384 (s.memRead addr 48))) :=
  requireFits_of _ h

theorem ldx_raises_bufRange (d : XReg) {addr : Nat} (s : State) (h : 256 < addr + 48) :
    RaisesError (.ldx d addr) .bufRange s :=
  ⟨s.raise .bufRange, requireFits_not _ h, s.raise_endsInError _⟩

/-- 48 bytes are a 384-bit value, so LDX truncates nothing. -/
theorem State.memRead_48_lt (s : State) (addr : Nat) : s.memRead addr 48 < 2 ^ 384 :=
  (Memory.read_lt s.buf addr 48).trans_eq (by rw [show 256 = 2 ^ 8 from rfl, ← pow_mul])

/-- Settles O28: the value loaded is MemRead, which is the sum of the rule and fits in the register. -/
theorem ldxLoadsBigEndian : Obligations.LdxLoadsBigEndian := by
  intro d addr
  refine ⟨decode_ldx d, fun s => ⟨fun hfit => ?_, ldx_raises_bufRange d s⟩⟩
  refine ⟨_, exec_ldx_of_fits d s hfit, ?_, s.setX_frame d _⟩
  rw [s.setX_xNat_ofNat d (s.memRead_48_lt addr)]
  exact Memory.read_eq_sum s.buf addr 48

/-! ## STX -/

theorem decode_stx (r : XReg) {addr : Nat} (h : addr < 256) :
    decode (commandWord 0x11 r.val 0 0 0 addr) = .ok (.stx r addr) :=
  decode_of_eq_encode (commandWord_formatI (by decide) (XReg.val_lt_field r) h) (decide_eq_true h)

theorem exec_stx_of_fits (r : XReg) {addr : Nat} (s : State) (h : addr + 48 ≤ 256) :
    exec (.stx r addr) s = .next (s.memWrite addr 48 (s.xNat r)) :=
  requireFits_of _ h

theorem stx_raises_bufRange (r : XReg) {addr : Nat} (s : State) (h : 256 < addr + 48) :
    RaisesError (.stx r addr) .bufRange s :=
  ⟨s.raise .bufRange, requireFits_not _ h, s.raise_endsInError _⟩

/-- Byte j of a store of n bytes, as a number (20_memory.md rule R62). -/
theorem State.memWrite_byteAt_inside {s : State} {addr n j : Nat} (v : Nat) (hwf : Memory.wf s.buf = true)
    (hfit : addr + n ≤ 256) (hj : j < n) :
    ((s.memWrite addr n v).byteAt (addr + j)).toNat = v / 256 ^ (n - 1 - j) % 256 := by
  rw [State.byteAt, State.memWrite_buf, Memory.readByte_write_inside hwf hfit hj, BitVec.toNat_ofNat]
  exact Nat.mod_mod _ 256

/-- Settles O29: the command is MemWrite, whose bytes and frame are known. -/
theorem stxStoresBigEndian : Obligations.StxStoresBigEndian := by
  intro r addr
  refine ⟨decode_stx r, fun s hwf => ⟨fun hfit => ?_, stx_raises_bufRange r s⟩⟩
  exact ⟨_, exec_stx_of_fits r s hfit, fun j hj => s.memWrite_byteAt_inside _ hwf hfit hj,
    s.memWrite_frame addr 48 _⟩

/-! ## MOV -/

theorem decode_mov (d a : XReg) : decode (commandWord 0x12 d.val a.val 0 0 0) = .ok (.mov d a) :=
  decode_of_eq_encode (commandWord_formatR2 (by decide) (XReg.val_lt_field d) (XReg.val_lt_field a)) rfl

theorem exec_mov (d a : XReg) (s : State) : exec (.mov d a) s = .next (s.setX d s.x[a]) := rfl

/-- Settles O30: the value written is the raw x[a], and nothing else is written, d = a included. -/
theorem movCopiesRegister : Obligations.MovCopiesRegister := fun d a =>
  ⟨decode_mov d a, fun s => ⟨_, exec_mov d a s, s.setX_x_same d _, s.setX_frame d _⟩⟩

/-! ## LDC -/

theorem decode_ldc (d : XReg) (k : Const) :
    decode (commandWord 0x13 d.val 0 0 0 (constField k).toNat) = .ok (.ldc d k) := by
  refine decode_of_eq_encode ?_ rfl
  rw [commandWord_formatI (by decide) (XReg.val_lt_field d) (constField k).isLt,
    BitVec.ofNat_toNat, BitVec.setWidth_eq]
  rfl

theorem exec_ldc (d : XReg) (k : Const) (s : State) :
    exec (.ldc d k) s = .next (s.setX d (BitVec.ofNat 384 (constValue k))) := rfl

/-- Every constant of the table is a 384-bit value. -/
theorem constValue_lt (k : Const) : constValue k < 2 ^ 384 := by
  cases k <;> decide +kernel

/-! R2P and R2N are computed constants: 2^768 reduced modulo p and modulo n. -/

theorem r2p_eq : Config.r2p = 2 ^ 768 % Config.p := by decide +kernel

theorem r2n_eq : Config.r2n = 2 ^ 768 % Config.n := by decide +kernel

/-- Settles O31: the value written is the constant itself, which fits; the table gives its number. -/
theorem ldcLoadsConstant : Obligations.LdcLoadsConstant := by
  intro d
  refine ⟨⟨decode_ldc d .zero, decode_ldc d .one, decode_ldc d .p, decode_ldc d .n, decode_ldc d .a, decode_ldc d .b,
    decode_ldc d .r2p, decode_ldc d .r2n⟩, fun k s => ⟨_, exec_ldc d k s, s.setX_frame d _, ?_⟩⟩
  rw [s.setX_xNat_ofNat d (constValue_lt k)]
  refine ⟨?zero, ?one, ?p, ?n, ?a, ?b, ?r2p, ?r2n⟩ <;> rintro rfl
  case r2p => exact r2p_eq
  case r2n => exact r2n_eq
  all_goals rfl

/-! ## CMP -/

theorem decode_cmp (a b : XReg) : decode (commandWord 0x14 0 a.val b.val 0 0) = .ok (.cmp a b) :=
  decode_of_eq_encode
    (commandWord_formatR3 (by decide) (by decide) (XReg.val_lt_field a) (XReg.val_lt_field b)) rfl

theorem exec_cmp (a b : XReg) (s : State) : exec (.cmp a b) s = .next (s.setCompare (s.xNat a) (s.xNat b)) := rfl

/-- Settles O32: EQ and LT are the two decisions, and `State.setCompare` writes nothing else. -/
theorem cmpComparesUnsigned : Obligations.CmpComparesUnsigned := fun a b =>
  ⟨decode_cmp a b, fun s => ⟨_, exec_cmp a b s, decide_eq_true_iff, decide_eq_true_iff, rfl⟩⟩

end Sys2Proof.Machine
end

section
/-! The commands modulo p (42_field.md rules R140 to R147) and the Montgomery identities (rules R144, R164). The
shapes the two arithmetic families share are stated for every modulus, so that the commands modulo n can cite them. -/

namespace Sys2Proof.Machine

/-! ## Words of the three- and two-register commands -/

theorem decode_of_formatR3 {op : Nat} {i : Instr} (d a b : XReg) (hop : op < 256)
    (hi : encode i = formatR3 (BitVec.ofNat 8 op) (regField d) (regField a) (regField b))
    (hwf : i.wellFormed = true) : decode (commandWord op d.val a.val b.val 0 0) = .ok i :=
  have hw := commandWord_formatR3 hop (XReg.val_lt_field d) (XReg.val_lt_field a) (XReg.val_lt_field b)
  decode_of_eq_encode (hw.trans hi.symm) hwf

theorem decode_of_formatR2 {op : Nat} {i : Instr} (d a : XReg) (hop : op < 256)
    (hi : encode i = formatR2 (BitVec.ofNat 8 op) (regField d) (regField a)) (hwf : i.wellFormed = true) :
    decode (commandWord op d.val a.val 0 0 0) = .ok i :=
  have hw := commandWord_formatR2 hop (XReg.val_lt_field d) (XReg.val_lt_field a)
  decode_of_eq_encode (hw.trans hi.symm) hwf

/-! ## The outcomes of an arithmetic command -/

/-- The command writes `x[d] <- v ; Z <- (x[d] = 0)` and nothing else (42_field.md rule R140, 43_scalar.md rule
R160). -/
def WritesResult (i : Instr) (d : XReg) (v : Nat) (s : State) : Prop :=
  ∃ t, exec i s = .next t ∧ t.xNat d = v ∧ (t.flagZ = true ↔ t.xNat d = 0) ∧ FrameXZ d s t

theorem writesResult_of_exec {i : Instr} {d : XReg} {v : Nat} {s : State} (hv : v < 2 ^ 384)
    (h : exec i s = .next (s.setResult d v)) : WritesResult i d v s := by
  obtain ⟨hx, hz⟩ := s.setResult_spec d hv
  exact ⟨_, h, hx, by rw [hz, hx, decide_eq_true_iff], s.setResult_frame d v⟩

theorem raisesError_of_exec {i : Instr} {c : ErrCode} {s : State} (h : exec i s = .next (s.raise c)) :
    RaisesError i c s :=
  ⟨_, h, s.raise_endsInError c⟩

section
variable {m : Nat} {f : Nat → Nat → Nat} {i : Instr} {d a b : XReg} {s : State}

/-- A command of two operands, both canonical (rules R141 to R144, R161 to R164). -/
theorem binary_writesResult (hi : exec i s = execBinary m f d a b s) (hm : m < 2 ^ 384) (hf : ∀ u v, f u v < m)
    (ha : s.xNat a < m) (hb : s.xNat b < m) : WritesResult i d (f (s.xNat a) (s.xNat b)) s :=
  writesResult_of_exec ((hf _ _).trans hm) (hi.trans (execBinary_of ha hb))

/-- A command of two operands, one of them out of range. -/
theorem binary_raises_operandRange (hi : exec i s = execBinary m f d a b s) (h : m ≤ s.xNat a ∨ m ≤ s.xNat b) :
    RaisesError i .operandRange s :=
  raisesError_of_exec (hi.trans (execBinary_range h))

/-- An inverter on an operand in [1, m), for m prime (rules R145, R165): x[d] is the inverse and Z is 0. -/
theorem inverse_inverts (hi : exec i s = execInverse m d a s) (hprime : m.Prime) (hm : m < 2 ^ 384)
    (h0 : 0 < s.xNat a) (ha : s.xNat a < m) :
    ∃ t, exec i s = .next t ∧ 0 < t.xNat d ∧ t.xNat d < m ∧ s.xNat a * t.xNat d % m = 1 ∧
      t.flagZ = false ∧ FrameXZ d s t := by
  obtain ⟨hpos, hlt, hmul⟩ := invMod_spec hprime h0 ha
  refine ⟨_, hi.trans (execInverse_of h0 ha), ?_⟩
  rw [State.setZ_xNat, s.setX_xNat_ofNat d (hlt.trans hm)]
  exact ⟨hpos, hlt, hmul, rfl, s.setX_setZ_frame d _ _⟩

theorem inverse_raises_invZero (hi : exec i s = execInverse m d a s) (hm : 0 < m) (h0 : s.xNat a = 0) :
    RaisesError i .invZero s :=
  raisesError_of_exec (hi.trans (execInverse_zero hm h0))

theorem inverse_raises_operandRange (hi : exec i s = execInverse m d a s) (h : m ≤ s.xNat a) :
    RaisesError i .operandRange s :=
  raisesError_of_exec (hi.trans (execInverse_range h))

/-- A reduction of any 384-bit value (rules R146, R166). -/
theorem reduce_writesResult (hi : exec i s = execReduce m d a s) (hpos : 0 < m) (hm : m < 2 ^ 384) :
    WritesResult i d (s.xNat a % m) s :=
  writesResult_of_exec ((Nat.mod_lt _ hpos).trans hm) hi

end

/-- At most one subtraction reduces a value below twice the modulus (rules R146, R166). -/
theorem mod_eq_of_lt_two_mul {m v : Nat} (h : v < 2 * m) : v % m = if v < m then v else v - m := by
  split
  · next hlt => exact Nat.mod_eq_of_lt hlt
  · next hge => rw [Nat.mod_eq_sub_mod (Nat.not_lt.mp hge), Nat.mod_eq_of_lt (by omega)]

/-! ## Montgomery multiplication -/

/-- What makes `montMod m rinv` a Montgomery product of radix 2^384: rinv inverts the radix modulo m, and r2 is
the radix squared, reduced (42_field.md rule R144, 43_scalar.md rule R164). -/
structure MontgomeryConstants (m rinv r2 : Nat) : Prop where
  radix_inverse : 2 ^ 384 * rinv % m = 1 % m
  radix_square : r2 = 2 ^ 384 * 2 ^ 384 % m

theorem montgomeryConstants_p : MontgomeryConstants Config.p Config.rinvP Config.r2p :=
  ⟨by decide +kernel, by rw [r2p_eq, ← pow_add]⟩

theorem montgomeryConstants_n : MontgomeryConstants Config.n Config.rinvN Config.r2n :=
  ⟨by decide +kernel, by rw [r2n_eq, ← pow_add]⟩

namespace MontgomeryConstants
variable {m rinv r2 : Nat} (h : MontgomeryConstants m rinv r2)
include h

/-- A factor of the radix and one of its inverse cancel. -/
theorem mul_radix_mul_rinv (w : Nat) : w * 2 ^ 384 * rinv ≡ w [MOD m] := by
  have hinv : 2 ^ 384 * rinv ≡ 1 [MOD m] := h.radix_inverse
  rw [mul_assoc]
  simpa only [mul_one] using hinv.mul_left w

/-- Times the radix, a Montgomery product is the plain product (rules R144, R164). -/
theorem montMod_mul_radix (u v : Nat) : montMod m rinv u v * 2 ^ 384 ≡ u * v [MOD m] := by
  calc montMod m rinv u v * 2 ^ 384
    _ ≡ u * v * rinv * 2 ^ 384 [MOD m] := (Nat.mod_modEq _ m).mul_right _
    _ ≡ u * v [MOD m] := by rw [mul_right_comm]; exact h.mul_radix_mul_rinv _

/-- MMUL(u, R2) puts u in Montgomery form. -/
theorem montMod_r2 (u : Nat) : montMod m rinv u r2 = u * 2 ^ 384 % m := by
  have hr2 : r2 ≡ 2 ^ 384 * 2 ^ 384 [MOD m] := by rw [h.radix_square]; exact Nat.mod_modEq _ m
  calc u * r2 * rinv
    _ ≡ u * (2 ^ 384 * 2 ^ 384) * rinv [MOD m] := (hr2.mul_left u).mul_right rinv
    _ ≡ u * 2 ^ 384 [MOD m] := by rw [← mul_assoc]; exact h.mul_radix_mul_rinv _

/-- MMUL(., 1) takes u back out of Montgomery form. -/
theorem montMod_montMod_r2_one {u : Nat} (hu : u < m) : montMod m rinv (montMod m rinv u r2) 1 = u := by
  rw [h.montMod_r2, montMod, mul_one, Nat.mod_mul_mod]
  exact Nat.mod_eq_of_modEq (h.mul_radix_mul_rinv u) hu

/-- MMUL(MMUL(u, v), R2) is the plain product. -/
theorem montMod_montMod_r2 (u v : Nat) : montMod m rinv (montMod m rinv u v) r2 = mulMod m u v := by
  rw [h.montMod_r2]
  exact h.montMod_mul_radix u v

end MontgomeryConstants

/-- Settles O57: the identities hold for every pair of Montgomery constants, and those of p and n are such. -/
theorem montgomeryIdentities : Obligations.MontgomeryIdentities :=
  ⟨fun u v hu _ => ⟨montgomeryConstants_p.montMod_r2 u, montgomeryConstants_p.montMod_montMod_r2_one hu,
      montgomeryConstants_p.montMod_montMod_r2 u v⟩,
    fun u v hu _ => ⟨montgomeryConstants_n.montMod_r2 u, montgomeryConstants_n.montMod_montMod_r2_one hu,
      montgomeryConstants_n.montMod_montMod_r2 u v⟩⟩

/-! ## FADD, FSUB, FMUL, FMMUL -/

theorem exec_fadd (d a b : XReg) (s : State) :
    exec (.fadd d a b) s = execBinary Config.p (addMod Config.p) d a b s := rfl

theorem exec_fsub (d a b : XReg) (s : State) :
    exec (.fsub d a b) s = execBinary Config.p (subMod Config.p) d a b s := rfl

theorem exec_fmul (d a b : XReg) (s : State) :
    exec (.fmul d a b) s = execBinary Config.p (mulMod Config.p) d a b s := rfl

theorem exec_fmmul (d a b : XReg) (s : State) :
    exec (.fmmul d a b) s = execBinary Config.p (montMod Config.p Config.rinvP) d a b s := rfl

/-- Settles O33: the value written is `addMod`. -/
theorem faddAddsModP : Obligations.FaddAddsModP := fun d a b =>
  ⟨decode_of_formatR3 d a b (by decide) rfl rfl, fun s =>
    ⟨binary_writesResult (exec_fadd d a b s) p_lt fun u v => addMod_lt u v p_pos,
      binary_raises_operandRange (exec_fadd d a b s)⟩⟩

/-- Settles O34: the value written is `subMod`, of which `subMod_eq` says with and without the borrow what it is. -/
theorem fsubSubtractsModP : Obligations.FsubSubtractsModP := by
  intro d a b
  refine ⟨decode_of_formatR3 d a b (by decide) rfl rfl, fun s =>
    ⟨fun ha hb => ?_, binary_raises_operandRange (exec_fsub d a b s)⟩⟩
  rw [← subMod_eq ha hb]
  exact binary_writesResult (exec_fsub d a b s) p_lt (fun u v => subMod_lt u v p_pos) ha hb

/-- Settles O35: the value written is `mulMod`. -/
theorem fmulMultipliesModP : Obligations.FmulMultipliesModP := fun d a b =>
  ⟨decode_of_formatR3 d a b (by decide) rfl rfl, fun s =>
    ⟨binary_writesResult (exec_fmul d a b s) p_lt fun u v => mulMod_lt u v p_pos,
      binary_raises_operandRange (exec_fmul d a b s)⟩⟩

/-- Settles O36: the value written is `montMod`, and the number of the rule inverts the radix. -/
theorem fmmulIsMontgomeryProduct : Obligations.FmmulIsMontgomeryProduct := by
  intro d a b
  refine ⟨decode_of_formatR3 d a b (by decide) rfl rfl, fun s =>
    ⟨fun ha hb => ?_, binary_raises_operandRange (exec_fmmul d a b s)⟩⟩
  obtain ⟨t, hexec, hx, hz, hframe⟩ :=
    binary_writesResult (exec_fmmul d a b s) p_lt (fun u v => montMod_lt _ u v p_pos) ha hb
  have hlt := montMod_lt Config.rinvP (s.xNat a) (s.xNat b) p_pos
  exact ⟨t, hexec, hx ▸ hlt, hx ▸ montgomeryConstants_p.montMod_mul_radix _ _, hx, hz, hframe⟩

/-! ## FINV, FRED -/

theorem exec_finv (d a : XReg) (s : State) : exec (.finv d a) s = execInverse Config.p d a s := rfl

theorem exec_fred (d a : XReg) (s : State) : exec (.fred d a) s = execReduce Config.p d a s := rfl

/-- Settles O37: p is prime, so the value written is the inverse. -/
theorem finvInvertsModP : Obligations.FinvInvertsModP := fun d a =>
  ⟨decode_of_formatR2 d a (by decide) rfl rfl, fun s =>
    ⟨inverse_inverts (exec_finv d a s) p384_prime p_lt, inverse_raises_invZero (exec_finv d a s) p_pos,
      inverse_raises_operandRange (exec_finv d a s)⟩⟩

theorem two_pow_384_lt_two_mul_p : 2 ^ 384 < 2 * Config.p := by decide +kernel

/-- Settles O38: every 384-bit value is below 2p. -/
theorem fredReducesModP : Obligations.FredReducesModP := by
  intro d a
  refine ⟨decode_of_formatR2 d a (by decide) rfl rfl, fun s => ?_⟩
  obtain ⟨t, hexec, hx, hz, hframe⟩ := reduce_writesResult (exec_fred d a s) p_pos p_lt
  have hcases := mod_eq_of_lt_two_mul ((s.xNat_lt a).trans two_pow_384_lt_two_mul_p)
  exact ⟨t, hexec, hx, hx.trans hcases, hz, hframe⟩

/-! ## FSQRT -/

section
variable (d : XReg) {a : XReg} {s : State}

theorem exec_fsqrt_of_square (ha : s.xNat a < Config.p) (hsq : ∃ y, y * y % Config.p = s.xNat a) :
    exec (.fsqrt d a) s = .next (s.setResult d (sqrtP (s.xNat a))) :=
  (requireCanonical_of _ (by simpa using ha)).trans (if_neg (not_not.mpr (sqrtP_sq ha hsq)))

theorem exec_fsqrt_of_nonsquare (ha : s.xNat a < Config.p) (hsq : ¬∃ y, y * y % Config.p = s.xNat a) :
    exec (.fsqrt d a) s = .next (s.raise .notSquare) :=
  (requireCanonical_of _ (by simpa using ha)).trans (if_pos (mt (square_iff_sqrtP ha).mpr hsq))

theorem exec_fsqrt_of_range (ha : Config.p ≤ s.xNat a) :
    exec (.fsqrt d a) s = .next (s.raise .operandRange) :=
  requireCanonical_not _ (List.mem_cons_self ..) ha

end

/-- Settles O39: because p mod 4 = 3 the formula gives a root of every square, and the test of its square tells the
squares from the rest. -/
theorem fsqrtExtractsRoot : Obligations.FsqrtExtractsRoot := by
  intro d a
  refine ⟨decode_of_formatR2 d a (by decide) rfl rfl, fun s => ⟨fun ha hsq => ?_,
    fun ha hsq => raisesError_of_exec (exec_fsqrt_of_nonsquare d ha hsq),
    fun ha => raisesError_of_exec (exec_fsqrt_of_range d ha)⟩⟩
  obtain ⟨t, hexec, hx, hz, hframe⟩ :=
    writesResult_of_exec ((sqrtP_lt _).trans p_lt) (exec_fsqrt_of_square d ha hsq)
  exact ⟨t, hexec, hx.trans (powMod_eq ..), by rw [hx, sqrtP_sq ha hsq], hz, hframe⟩

end Sys2Proof.Machine
end

section
/-! The commands modulo n (43_scalar.md rules R160 to R166). Each is a shape shared with the commands modulo p; what
is particular to n is that it is a prime above 2^383 and has Montgomery constants of its own. -/

namespace Sys2Proof.Machine

/-! ## NADD, NSUB, NMUL, NMMUL -/

theorem exec_nadd (d a b : XReg) (s : State) :
    exec (.nadd d a b) s = execBinary Config.n (addMod Config.n) d a b s := rfl

theorem exec_nsub (d a b : XReg) (s : State) :
    exec (.nsub d a b) s = execBinary Config.n (subMod Config.n) d a b s := rfl

theorem exec_nmul (d a b : XReg) (s : State) :
    exec (.nmul d a b) s = execBinary Config.n (mulMod Config.n) d a b s := rfl

theorem exec_nmmul (d a b : XReg) (s : State) :
    exec (.nmmul d a b) s = execBinary Config.n (montMod Config.n Config.rinvN) d a b s := rfl

/-- Settles O40: the value written is `addMod`, the sum before any truncation to 384 bits. -/
theorem naddAddsModN : Obligations.NaddAddsModN := fun d a b =>
  ⟨decode_of_formatR3 d a b (by decide) rfl rfl, fun s =>
    ⟨binary_writesResult (exec_nadd d a b s) n_lt fun u v => addMod_lt u v n_pos,
      binary_raises_operandRange (exec_nadd d a b s)⟩⟩

/-- Settles O41: `subMod_eq` gives the integer difference of rule R162 as the two cases of the statement, with and
without a borrow. -/
theorem nsubSubtractsModN : Obligations.NsubSubtractsModN := by
  intro d a b
  refine ⟨decode_of_formatR3 d a b (by decide) rfl rfl, fun s =>
    ⟨fun ha hb => ?_, binary_raises_operandRange (exec_nsub d a b s)⟩⟩
  have hwrites : WritesResult (.nsub d a b) d (subMod Config.n (s.xNat a) (s.xNat b)) s :=
    binary_writesResult (exec_nsub d a b s) n_lt (fun u v => subMod_lt u v n_pos) ha hb
  rwa [subMod_eq ha hb] at hwrites

/-- Settles O42: the value written is `mulMod`, the full product reduced once. -/
theorem nmulMultipliesModN : Obligations.NmulMultipliesModN := fun d a b =>
  ⟨decode_of_formatR3 d a b (by decide) rfl rfl, fun s =>
    ⟨binary_writesResult (exec_nmul d a b s) n_lt fun u v => mulMod_lt u v n_pos,
      binary_raises_operandRange (exec_nmul d a b s)⟩⟩

/-- Settles O43: the value written is `montMod` with the number of rule R164, which inverts the radix modulo n. -/
theorem nmmulIsMontgomeryProduct : Obligations.NmmulIsMontgomeryProduct := by
  intro d a b
  refine ⟨decode_of_formatR3 d a b (by decide) rfl rfl, fun s =>
    ⟨fun ha hb => ?_, binary_raises_operandRange (exec_nmmul d a b s)⟩⟩
  have hlt (u v : Nat) : montMod Config.n Config.rinvN u v < Config.n := montMod_lt _ u v n_pos
  obtain ⟨t, hexec, hx, hz, hframe⟩ := binary_writesResult (exec_nmmul d a b s) n_lt hlt ha hb
  exact ⟨t, hexec, hx ▸ hlt _ _, hx ▸ montgomeryConstants_n.montMod_mul_radix _ _, hx, hz, hframe⟩

/-! ## NINV, NRED -/

theorem exec_ninv (d a : XReg) (s : State) : exec (.ninv d a) s = execInverse Config.n d a s := rfl

theorem exec_nred (d a : XReg) (s : State) : exec (.nred d a) s = execReduce Config.n d a s := rfl

/-- Settles O44: n is prime, so Fermat's exponentiation writes the inverse; the range check comes first, and 0 passes
it. -/
theorem ninvInvertsModN : Obligations.NinvInvertsModN := fun d a =>
  ⟨decode_of_formatR2 d a (by decide) rfl rfl, fun s =>
    ⟨inverse_inverts (exec_ninv d a s) n384_prime n_lt, inverse_raises_invZero (exec_ninv d a s) n_pos,
      inverse_raises_operandRange (exec_ninv d a s)⟩⟩

theorem two_pow_384_lt_two_mul_n : 2 ^ 384 < 2 * Config.n := by decide +kernel

/-- Settles O45: every 384-bit value is below 2n, so one subtraction reduces it. -/
theorem nredReducesModN : Obligations.NredReducesModN := by
  intro d a
  refine ⟨decode_of_formatR2 d a (by decide) rfl rfl, fun s => ?_⟩
  obtain ⟨t, hexec, hx, hz, hframe⟩ := reduce_writesResult (exec_nred d a s) n_pos n_lt
  have hcases := mod_eq_of_lt_two_mul ((s.xNat_lt a).trans two_pow_384_lt_two_mul_n)
  exact ⟨t, hexec, hx, hx.trans hcases, hz, hframe⟩

end Sys2Proof.Machine
end

section
/-! The point commands (44_point.md rules R170 to R178). What the formulas of 00_scope.md rule R10 give is stated about
`ptDbl` and `ptAdd`, apart from the commands; each command's rule is one equation of `exec` per outcome, and the two
register writes of a point command, P[d] and INF, are described once for all of them. -/

namespace Sys2Proof.Machine

/-! ## Words of commands with registers of both kinds -/

theorem decode_of_registersR3 {op j k l : Nat} {i : Instr} (d : Fin j) (a : Fin k) (b : Fin l)
    (hfit : op < 256 ∧ j ≤ 16 ∧ k ≤ 16 ∧ l ≤ 16)
    (hi : encode i = formatR3 (BitVec.ofNat 8 op) (regField d) (regField a) (regField b))
    (hwf : i.wellFormed = true) : decode (commandWord op d.val a.val b.val 0 0) = .ok i := by
  obtain ⟨hop, hj, hk, hl⟩ := hfit
  have hw := commandWord_formatR3 hop (d.isLt.trans_le hj) (a.isLt.trans_le hk) (b.isLt.trans_le hl)
  exact decode_of_eq_encode (hw.trans hi.symm) hwf

theorem decode_of_registersR2 {op j k : Nat} {i : Instr} (d : Fin j) (a : Fin k)
    (hfit : op < 256 ∧ j ≤ 16 ∧ k ≤ 16)
    (hi : encode i = formatR2 (BitVec.ofNat 8 op) (regField d) (regField a))
    (hwf : i.wellFormed = true) : decode (commandWord op d.val a.val 0 0 0) = .ok i := by
  obtain ⟨hop, hj, hk⟩ := hfit
  exact decode_of_registersR3 d a (0 : Fin 1) ⟨hop, hj, hk, by decide⟩ (hi.trans (formatR2_eq ..)) hwf

theorem decode_of_registersR1 {op j : Nat} {i : Instr} (d : Fin j) (hfit : op < 256 ∧ j ≤ 16)
    (hi : encode i = formatR1 (BitVec.ofNat 8 op) (regField d))
    (hwf : i.wellFormed = true) : decode (commandWord op d.val 0 0 0 0) = .ok i := by
  obtain ⟨hop, hj⟩ := hfit
  exact decode_of_registersR3 d (0 : Fin 1) (0 : Fin 1) ⟨hop, hj, by decide, by decide⟩
    (hi.trans (formatR1_eq ..)) hwf

/-! ## The slopes of the tangent and of the chord (00_scope.md rule R10) -/

section
variable [Fact (Nat.Prime Config.p)]

theorem invMod_mul_self {a : Nat} (ha : (a : ZMod Config.p) ≠ 0) :
    (invMod Config.p a : ZMod Config.p) * (a : ZMod Config.p) = 1 := by
  rw [invMod_zmod_eq ha, inv_mul_cancel₀ ha]

/-- The slope of the tangent is (3x² - 3) / 2y. -/
theorem tangentSlope_mul (x : Nat) {y : Nat} (hy : (y : ZMod Config.p) ≠ 0) :
    (tangentSlope x y : ZMod Config.p) * (2 * (y : ZMod Config.p)) = 3 * (x : ZMod Config.p) ^ 2 - 3 := by
  have hden : ((2 * y % Config.p : Nat) : ZMod Config.p) = 2 * (y : ZMod Config.p) := by
    rw [ZMod.natCast_mod, Nat.cast_mul, Nat.cast_ofNat]
  have hinv := invMod_mul_self (hden ▸ mul_ne_zero two_ne_zero_zmod hy)
  rw [hden] at hinv
  rw [tangentSlope, imod_zmod _ p_pos]
  push_cast
  linear_combination (3 * (x : ZMod Config.p) ^ 2 - 3) * hinv

/-- The slope of the chord is (y2 - y1) / (x2 - x1). -/
theorem chordSlope_mul {x1 x2 : Nat} (y1 y2 : Nat) (hx : (x2 : ZMod Config.p) - (x1 : ZMod Config.p) ≠ 0) :
    (chordSlope x1 y1 x2 y2 : ZMod Config.p) * ((x2 : ZMod Config.p) - (x1 : ZMod Config.p)) =
      (y2 : ZMod Config.p) - (y1 : ZMod Config.p) := by
  have hden : (imod ((x2 : Int) - x1) Config.p : ZMod Config.p) = (x2 : ZMod Config.p) - (x1 : ZMod Config.p) := by
    rw [imod_zmod _ p_pos, Int.cast_sub, Int.cast_natCast, Int.cast_natCast]
  have hinv := invMod_mul_self (hden ▸ hx)
  rw [hden] at hinv
  rw [chordSlope, imod_zmod _ p_pos]
  push_cast
  linear_combination ((y2 : ZMod Config.p) - (y1 : ZMod Config.p)) * hinv

end

/-! ## The cases of pt_dbl and pt_add (00_scope.md rule R10) -/

theorem ptDbl_inf : ptDbl .inf = .inf := rfl

/-- A curve point has y ≠ 0, so its double is the affine point of the tangent formulas. -/
theorem ptDbl_aff {x y : Val} (h : onCurve x.toNat y.toNat) :
    ∃ (lam : ZMod Config.p) (x3 y3 : Val), ptDbl (.aff x y) = .aff x3 y3 ∧ onCurve x3.toNat y3.toNat ∧
      lam * (2 * (y.toNat : ZMod Config.p)) = 3 * (x.toNat : ZMod Config.p) ^ 2 - 3 ∧
      (x3.toNat : ZMod Config.p) = lam ^ 2 - 2 * (x.toNat : ZMod Config.p) ∧
      (y3.toNat : ZMod Config.p) =
        lam * ((x.toNat : ZMod Config.p) - (x3.toNat : ZMod Config.p)) - (y.toNat : ZMod Config.p) := by
  have := Fact.mk p384_prime
  have hy := onCurve_y_ne_zero h
  obtain ⟨x3, y3, heq, hx3, hy3⟩ :=
    chordPoint_coords (tangentSlope x.toNat y.toNat) x.toNat y.toNat x.toNat
  have hdbl : ptDbl (.aff x y) = .aff x3 y3 := by rw [ptDbl, if_neg hy, heq]
  have hon : onCurve x3.toNat y3.toNat := valid_aff.mp (hdbl ▸ ptDbl_valid (valid_aff.mpr h))
  exact ⟨_, x3, y3, hdbl, hon, tangentSlope_mul _ (natCast_ne_zero_of_lt h.2.1 hy),
    by rw [hx3, sub_sub, two_mul], hy3⟩

/-- Two affine values with the same x and different y are opposite. -/
theorem ptAdd_same_x {x y1 y2 : Val} (hy : y1 ≠ y2) : ptAdd (.aff x y1) (.aff x y2) = .inf := by
  rw [ptAdd, if_neg fun h => hy h.2, if_pos rfl]

/-- Canonical x coordinates that differ do so modulo p, so the sum is the affine point of the chord formulas. -/
theorem ptAdd_chord {x1 y1 x2 y2 : Val} (h1 : x1.toNat < Config.p) (h2 : x2.toNat < Config.p) (hx : x1 ≠ x2) :
    ∃ (lam : ZMod Config.p) (x3 y3 : Val), ptAdd (.aff x1 y1) (.aff x2 y2) = .aff x3 y3 ∧
      lam * ((x2.toNat : ZMod Config.p) - (x1.toNat : ZMod Config.p)) =
        (y2.toNat : ZMod Config.p) - (y1.toNat : ZMod Config.p) ∧
      (x3.toNat : ZMod Config.p) = lam ^ 2 - (x1.toNat : ZMod Config.p) - (x2.toNat : ZMod Config.p) ∧
      (y3.toNat : ZMod Config.p) =
        lam * ((x1.toNat : ZMod Config.p) - (x3.toNat : ZMod Config.p)) - (y1.toNat : ZMod Config.p) := by
  have := Fact.mk p384_prime
  have hne : (x2.toNat : ZMod Config.p) - (x1.toNat : ZMod Config.p) ≠ 0 :=
    sub_ne_zero.mpr fun h => hx (BitVec.eq_of_toNat_eq (eq_of_zmod_eq h2 h1 h).symm)
  obtain ⟨x3, y3, heq, hx3, hy3⟩ :=
    chordPoint_coords (chordSlope x1.toNat y1.toNat x2.toNat y2.toNat) x1.toNat y1.toNat x2.toNat
  have hadd : ptAdd (.aff x1 y1) (.aff x2 y2) = .aff x3 y3 := by
    rw [ptAdd, if_neg fun h => hx h.1, if_neg hx, heq]
  exact ⟨_, x3, y3, hadd, chordSlope_mul _ _ hne, hx3, hy3⟩

/-! ## The outcome of a command that writes a point -/

/-- The command writes `P[d] <- q ; INF <- (P[d] = Inf)` and nothing else (10_state.md rule R27). -/
def WritesPoint (i : Instr) (d : PReg) (q : PointVal) (s : State) : Prop :=
  ∃ t, exec i s = .next t ∧ t.point d = q ∧ t.flagInf = q.isInf ∧ FramePoint d s t

theorem writesPoint_of_exec {i : Instr} {d : PReg} {q : PointVal} {s : State}
    (h : exec i s = .next (s.setPointResult d q)) : WritesPoint i d q s := by
  obtain ⟨hpoint, hinf⟩ := s.setPointResult_spec d q
  exact ⟨_, h, hpoint, hinf, s.setPointResult_frame d q⟩

/-- The command writes `x[d] <- v` and nothing else (rules R173, R174). -/
theorem writesX_of_exec {i : Instr} {d : XReg} {v : Val} {s : State} (h : exec i s = .next (s.setX d v)) :
    ∃ t, exec i s = .next t ∧ t.x[d] = v ∧ FrameX d s t :=
  ⟨_, h, s.setX_x_same d v, s.setX_frame d v⟩

/-- INF tells Inf from the affine values, after any command that wrote a point. -/
theorem flagInf_iff {t : State} {d : PReg} {q : PointVal} (hpoint : t.point d = q) (hinf : t.flagInf = q.isInf) :
    t.flagInf = true ↔ t.point d = .inf := by
  rw [hpoint, hinf, PointVal.isInf_iff]

/-! ## PINF, PLDG, PMOV -/

theorem exec_pinf (d : PReg) (s : State) : exec (.pinf d) s = .next (s.setPointResult d .inf) := rfl

theorem exec_pldg (d : PReg) (s : State) : exec (.pldg d) s = .next (s.setPointResult d generator) := rfl

theorem exec_pmov (d a : PReg) (s : State) : exec (.pmov d a) s = .next (s.setPointResult d (s.point a)) := rfl

/-- Settles O46: the point written is Inf, so INF is 1. -/
theorem pinfLoadsInfinity : Obligations.PinfLoadsInfinity := fun d =>
  ⟨decode_of_registersR1 d (by decide) rfl rfl, fun s => writesPoint_of_exec (exec_pinf d s)⟩

/-- Settles O47: the point written is the base point, which is on the curve. -/
theorem pldgLoadsGenerator : Obligations.PldgLoadsGenerator := by
  intro d
  refine ⟨decode_of_registersR1 d (by decide) rfl rfl, fun s => ?_⟩
  obtain ⟨t, hexec, hpoint, hinf, hframe⟩ := writesPoint_of_exec (exec_pldg d s)
  exact ⟨t, hexec, hpoint, hpoint ▸ generator_valid, hinf, hframe⟩

/-- Settles O51: the point written is the old P[a], Inf included. -/
theorem pmovCopiesPoint : Obligations.PmovCopiesPoint := by
  intro d a
  refine ⟨decode_of_registersR2 d a (by decide) rfl rfl, fun s => ?_⟩
  obtain ⟨t, hexec, hpoint, hinf, hframe⟩ := writesPoint_of_exec (exec_pmov d a s)
  exact ⟨t, hexec, hpoint, hpoint ▸ flagInf_iff hpoint hinf, hframe⟩

/-! ## PSET -/

section
variable {d : PReg} {a b : XReg} {s : State}

theorem exec_pset_of_onCurve (h : onCurve (s.xNat a) (s.xNat b)) :
    exec (.pset d a b) s = .next (s.setPointResult d (.aff s.x[a] s.x[b])) := by
  obtain ⟨ha, hb, heq⟩ := h
  exact (requireCanonical_of _ (by simp [ha, hb])).trans (if_neg (not_not.mpr heq))

theorem exec_pset_of_not_onCurve (ha : s.xNat a < Config.p) (hb : s.xNat b < Config.p)
    (h : ¬onCurve (s.xNat a) (s.xNat b)) : exec (.pset d a b) s = .next (s.raise .notOnCurve) :=
  (requireCanonical_of _ (by simp [ha, hb])).trans (if_pos fun heq => h ⟨ha, hb, heq⟩)

theorem exec_pset_of_range (h : Config.p ≤ s.xNat a ∨ Config.p ≤ s.xNat b) :
    exec (.pset d a b) s = .next (s.raise .operandRange) := by
  rcases h with ha | hb
  · exact requireCanonical_not _ (List.mem_cons_self ..) ha
  · exact requireCanonical_not _ (List.mem_cons_of_mem _ (List.mem_cons_self ..)) hb

end

/-- Settles O48: the range check comes first, and what passes it is on the curve exactly when the equation holds. -/
theorem psetChecksCurve : Obligations.PsetChecksCurve := fun d a b =>
  ⟨decode_of_registersR3 d a b (by decide) rfl rfl, fun _ =>
    ⟨fun hon => writesPoint_of_exec (exec_pset_of_onCurve hon),
      fun ha hb hoff => raisesError_of_exec (exec_pset_of_not_onCurve ha hb hoff),
      fun hrange => raisesError_of_exec (exec_pset_of_range hrange)⟩⟩

/-! ## PGETX, PGETY -/

theorem exec_pgetx_of_aff (d : XReg) {a : PReg} {s : State} {x y : Val} (h : s.point a = .aff x y) :
    exec (.pgetx d a) s = .next (s.setX d x) :=
  requireAffine_aff _ h

theorem exec_pgetx_of_inf (d : XReg) {a : PReg} {s : State} (h : s.point a = .inf) :
    exec (.pgetx d a) s = .next (s.raise .pointInf) :=
  requireAffine_inf _ h

theorem exec_pgety_of_aff (d : XReg) {a : PReg} {s : State} {x y : Val} (h : s.point a = .aff x y) :
    exec (.pgety d a) s = .next (s.setX d y) :=
  requireAffine_aff _ h

theorem exec_pgety_of_inf (d : XReg) {a : PReg} {s : State} (h : s.point a = .inf) :
    exec (.pgety d a) s = .next (s.raise .pointInf) :=
  requireAffine_inf _ h

/-- Settles O49: the check for Inf, then the first coordinate. -/
theorem pgetxReadsX : Obligations.PgetxReadsX := fun d a =>
  ⟨decode_of_registersR2 d a (by decide) rfl rfl, fun _ =>
    ⟨fun _ _ haff => writesX_of_exec (exec_pgetx_of_aff d haff),
      fun hinf => raisesError_of_exec (exec_pgetx_of_inf d hinf)⟩⟩

/-- Settles O50: the check for Inf, then the second coordinate. -/
theorem pgetyReadsY : Obligations.PgetyReadsY := fun d a =>
  ⟨decode_of_registersR2 d a (by decide) rfl rfl, fun _ =>
    ⟨fun _ _ haff => writesX_of_exec (exec_pgety_of_aff d haff),
      fun hinf => raisesError_of_exec (exec_pgety_of_inf d hinf)⟩⟩

/-! ## PDBL, PADD -/

theorem exec_pdbl (d a : PReg) (s : State) :
    exec (.pdbl d a) s = .next (s.setPointResult d (ptDbl (s.point a))) := rfl

theorem exec_padd (d a b : PReg) (s : State) :
    exec (.padd d a b) s = .next (s.setPointResult d (ptAdd (s.point a) (s.point b))) := rfl

/-- A register that holds an affine value holds a point of the curve (10_state.md rule R45). -/
theorem State.pointsOk.aff_onCurve {s : State} (h : s.pointsOk) {k : PReg} {x y : Val}
    (haff : s.point k = .aff x y) : onCurve x.toNat y.toNat :=
  valid_aff.mp (haff ▸ h k)

/-- Settles O52: the point written is `ptDbl`, for Inf and for a point of the curve. -/
theorem pdblDoublesPoint : Obligations.PdblDoublesPoint := by
  intro d a
  refine ⟨decode_of_registersR2 d a (by decide) rfl rfl, fun s hok => ?_⟩
  obtain ⟨t, hexec, hpoint, hinf, hframe⟩ := writesPoint_of_exec (exec_pdbl d a s)
  refine ⟨t, hexec, hframe, hpoint, flagInf_iff hpoint hinf, fun ha => ?_, fun x y ha => ?_⟩
  · rw [hpoint, ha, ptDbl_inf]
  · rw [hpoint, ha]
    exact ptDbl_aff (hok.aff_onCurve ha)

/-- Settles O53: the point written is `ptAdd`, one case of which is each clause. -/
theorem paddAddsPoints : Obligations.PaddAddsPoints := by
  intro d a b
  refine ⟨decode_of_registersR3 d a b (by decide) rfl rfl, fun s hok => ?_⟩
  obtain ⟨t, hexec, hpoint, hinf, hframe⟩ := writesPoint_of_exec (exec_padd d a b s)
  refine ⟨t, hexec, hframe, flagInf_iff hpoint hinf, hpoint ▸ ptAdd_valid (hok a) (hok b), ?_⟩
  rw [hpoint]
  refine ⟨fun ha => ?_, fun hb => ?_, fun hab => ?_, fun hneg => ?_, fun x1 y1 x2 y2 ha hb => ?_⟩
  · rw [ha, inf_ptAdd]
  · rw [hb, ptAdd_inf]
  · rw [← hab, ptAdd_self]
  · rw [hneg, ptAdd_ptNeg (hok a)]
  · rw [ha, hb]
    refine ⟨fun hx hy => hx ▸ ptAdd_same_x hy, fun hx => ?_⟩
    obtain ⟨h1, -⟩ := hok.aff_onCurve ha
    obtain ⟨h2, -⟩ := hok.aff_onCurve hb
    exact ptAdd_chord h1 h2 hx

/-! ## PMUL -/

/-- The machine's double-and-add gives the repeated addition of 00_scope.md rule R10. -/
theorem exec_pmul_of_lt (d : PReg) {k : XReg} (b : PReg) {s : State} (h : s.xNat k < Config.n) :
    exec (.pmul d k b) s = .next (s.setPointResult d (ptMul (s.xNat k) (s.point b))) := by
  rw [← ptMulEval_eq_ptMul]
  exact requireCanonical_of _ (by simpa using h)

theorem exec_pmul_of_range (d : PReg) {k : XReg} (b : PReg) {s : State} (h : Config.n ≤ s.xNat k) :
    exec (.pmul d k b) s = .next (s.raise .operandRange) :=
  requireCanonical_not _ (List.mem_cons_self ..) h

/-- Settles O54: the range check of the scalar, then `ptMul`. -/
theorem pmulMultipliesPoint : Obligations.PmulMultipliesPoint := by
  intro d k b
  refine ⟨decode_of_registersR3 d k b (by decide) rfl rfl, fun s => ⟨fun hk => ?_,
    fun hk => raisesError_of_exec (exec_pmul_of_range d b hk)⟩⟩
  obtain ⟨t, hexec, hpoint, hinf, hframe⟩ := writesPoint_of_exec (exec_pmul_of_lt d b hk)
  exact ⟨t, hexec, hpoint, flagInf_iff hpoint hinf, hframe⟩

end Sys2Proof.Machine
end

section
/-! The compressed-point codec PENC and PDEC (45_codec.md rules R190 to R193). The 49 bytes PENC stores are one update
of the state with its own reads; each command's rule is one equation of `exec` per outcome; and the round trip follows
because the tag and the 48-byte number determine both the point and the 49 bytes. -/

namespace Sys2Proof.Machine

/-! ## The 49-byte form of a point -/

/-- The state with the compressed form of Aff(x, y) at `addr` (45_codec.md rule R190). -/
def State.putCompressed (s : State) (addr : Nat) (x y : Val) : State :=
  (s.setByte addr (tagOf y.toNat)).memWrite (addr + 1) 48 x.toNat

section
variable {s t : State} {addr addr2 : Nat}

theorem State.putCompressed_frame (s : State) (addr : Nat) (x y : Val) :
    FrameStore addr 49 s (s.putCompressed addr x y) :=
  s.setByte_memWrite_frame addr _ _

theorem State.putCompressed_buf (s : State) (addr : Nat) (x y : Val) :
    (s.putCompressed addr x y).buf =
      Memory.write (Memory.writeByte s.buf addr (tagOf y.toNat)) (addr + 1) 48 x.toNat := by
  rw [State.putCompressed, State.memWrite_buf, State.setByte_buf]

theorem State.putCompressed_err (s : State) (addr : Nat) (x y : Val) : (s.putCompressed addr x y).err = s.err := by
  rw [State.putCompressed, State.memWrite_err, State.setByte_err]

theorem State.putCompressed_tag (x y : Val) (hwf : Memory.wf s.buf = true) :
    (s.putCompressed addr x y).byteAt addr = tagOf y.toNat := by
  rw [State.byteAt, State.putCompressed_buf, Memory.readByte_write_outside (.inl (Nat.lt_succ_self addr)),
    Memory.readByte_writeByte_same _ _ hwf]

theorem State.setByte_wf (v : Byte) (hwf : Memory.wf s.buf = true) (hfit : addr + 49 ≤ 256) :
    Memory.wf (s.setByte addr v).buf = true :=
  Memory.wf_writeByte hwf (show addr < 256 by omega)

theorem State.putCompressed_byteAt {j : Nat} (x y : Val) (hwf : Memory.wf s.buf = true) (hfit : addr + 49 ≤ 256)
    (hj : j < 48) :
    ((s.putCompressed addr x y).byteAt (addr + 1 + j)).toNat = x.toNat / 256 ^ (47 - j) % 256 :=
  State.memWrite_byteAt_inside _ (State.setByte_wf _ hwf hfit) (by omega) hj

theorem State.putCompressed_memRead (x y : Val) (hwf : Memory.wf s.buf = true) (hfit : addr + 49 ≤ 256) :
    (s.putCompressed addr x y).memRead (addr + 1) 48 = x.toNat := by
  rw [State.memRead, State.putCompressed_buf]
  exact Memory.read_write (State.setByte_wf _ hwf hfit) (show addr + 1 + 48 ≤ 256 by omega)
    (x.isLt.trans_eq (by rw [show 256 = 2 ^ 8 from rfl, ← pow_mul]))

/-- The tag and the number read after it determine the 49 bytes (20_memory.md rule R62). -/
theorem State.byteAt_eq_of_compressed_eq (htag : t.byteAt addr2 = s.byteAt addr)
    (hx : t.memRead (addr2 + 1) 48 = s.memRead (addr + 1) 48) {j : Nat} (hj : j < 49) :
    t.byteAt (addr2 + j) = s.byteAt (addr + j) := by
  cases j with
  | zero => exact htag
  | succ i =>
    have hi : i < 48 := Nat.lt_of_succ_lt_succ hj
    apply BitVec.eq_of_toNat_eq
    calc (t.byteAt (addr2 + (i + 1))).toNat
        = (t.byteAt (addr2 + 1 + i)).toNat := by rw [Nat.add_right_comm, Nat.add_assoc]
      _ = t.memRead (addr2 + 1) 48 / 256 ^ (48 - 1 - i) % 256 := (Memory.read_byte t.buf _ hi).symm
      _ = s.memRead (addr + 1) 48 / 256 ^ (48 - 1 - i) % 256 := by rw [hx]
      _ = (s.byteAt (addr + 1 + i)).toNat := Memory.read_byte s.buf _ hi
      _ = (s.byteAt (addr + (i + 1))).toNat := by rw [Nat.add_right_comm, Nat.add_assoc]

end

/-- One tag for each parity: a recognised tag is the tag of every y of its parity (45_codec.md rule R190). -/
theorem eq_tagOf_of_parity {tag : Byte} {y : Nat} (htag : tag = 0x02#8 ∨ tag = 0x03#8)
    (hy : y % 2 = tag.toNat % 2) : tag = tagOf y := by
  apply BitVec.eq_of_toNat_eq
  rw [tagOf_toNat, hy]
  rcases htag with rfl | rfl <;> rfl

theorem tagOf_parity (y : Nat) : y % 2 = (tagOf y).toNat % 2 := by
  rw [tagOf_toNat]
  omega

theorem affOf_toNat (x y : Val) : affOf x.toNat y.toNat = .aff x y := by
  simp [affOf]

/-! ## PENC -/

section
variable {r : PReg} {addr : Nat} {s : State}

theorem PReg.val_lt_field (r : PReg) : r.val < 16 := r.isLt.trans (by decide)

theorem decode_penc (r : PReg) (h : addr < 256) :
    decode (commandWord 0x49 r.val 0 0 0 addr) = .ok (.penc r addr) :=
  decode_of_eq_encode (commandWord_formatI (by decide) (PReg.val_lt_field r) h) (decide_eq_true h)

theorem exec_penc_of_aff {x y : Val} (hfit : addr + 49 ≤ 256) (h : s.point r = .aff x y) :
    exec (.penc r addr) s = .next (s.putCompressed addr x y) :=
  (requireFits_of _ hfit).trans (requireAffine_aff _ h)

theorem exec_penc_of_range (r : PReg) (s : State) (h : 256 < addr + 49) :
    exec (.penc r addr) s = .next (s.raise .bufRange) :=
  requireFits_not _ h

theorem exec_penc_of_inf (hfit : addr + 49 ≤ 256) (h : s.point r = .inf) :
    exec (.penc r addr) s = .next (s.raise .pointInf) :=
  (requireFits_of _ hfit).trans (requireAffine_inf _ h)

end

/-- Settles O55: the range check, the check for Inf, then the 49 bytes of the compressed form. -/
theorem pencWritesCompressedPoint : Obligations.PencWritesCompressedPoint := by
  intro r addr
  refine ⟨decode_penc r, fun s hwf => ⟨fun x y hfit haff => ?_,
    fun hrange => raisesError_of_exec (exec_penc_of_range r s hrange),
    fun hfit hinf => raisesError_of_exec (exec_penc_of_inf hfit hinf)⟩⟩
  refine ⟨_, exec_penc_of_aff hfit haff, ?_, fun j hj => State.putCompressed_byteAt x y hwf hfit hj,
    s.putCompressed_frame addr x y⟩
  rw [State.putCompressed_tag x y hwf, tagOf_toNat]

/-! ## PDEC -/

section
variable {d : PReg} {addr : Nat} {s t : State}

theorem decode_pdec (d : PReg) {len : Nat} (haddr : addr < 256) (hlen : len < 256) :
    decode (commandWord 0x4A d.val 0 0 len addr) = .ok (.pdec d addr len) :=
  decode_of_eq_encode (commandWord_pdec d haddr hlen)
    (Bool.and_eq_true_iff.mpr ⟨decide_eq_true haddr, decide_eq_true hlen⟩)

theorem exec_pdec_of_length (d : PReg) (addr : Nat) {len : Nat} (s : State) (h : len ≠ 49) :
    exec (.pdec d addr len) s = .next (s.raise .decInvalidLength) :=
  if_pos h

/-- With the length accepted, what remains is the checks from BUF_RANGE on. -/
theorem exec_pdec_49 (d : PReg) (addr : Nat) (s : State) :
    exec (.pdec d addr 49) s = requireFits addr 49 s
      (if s.byteAt addr ≠ 0x02#8 ∧ s.byteAt addr ≠ 0x03#8 then .next (s.raise .decInvalidTag)
        else decodePoint d (s.byteAt addr).toNat (s.memRead (addr + 1) 48) s) :=
  rfl

theorem exec_pdec_of_range (d : PReg) (s : State) (h : 256 < addr + 49) :
    exec (.pdec d addr 49) s = .next (s.raise .bufRange) :=
  (exec_pdec_49 d addr s).trans (requireFits_not _ h)

theorem exec_pdec_of_tag (d : PReg) (hfit : addr + 49 ≤ 256) (h2 : s.byteAt addr ≠ 0x02#8)
    (h3 : s.byteAt addr ≠ 0x03#8) : exec (.pdec d addr 49) s = .next (s.raise .decInvalidTag) :=
  (exec_pdec_49 d addr s).trans ((requireFits_of _ hfit).trans (if_pos ⟨h2, h3⟩))

theorem exec_pdec_of_not_onCurve (d : PReg) (hfit : addr + 49 ≤ 256)
    (htag : s.byteAt addr = 0x02#8 ∨ s.byteAt addr = 0x03#8)
    (h : ¬∃ y, onCurve (s.memRead (addr + 1) 48) y) :
    exec (.pdec d addr 49) s = .next (s.raise .notOnCurve) :=
  (execPdec_tagged hfit htag).trans (decodePoint_not h)

theorem exec_pdec_of_onCurve (d : PReg) {y : Nat} (hfit : addr + 49 ≤ 256)
    (htag : s.byteAt addr = 0x02#8 ∨ s.byteAt addr = 0x03#8)
    (h : onCurve (s.memRead (addr + 1) 48) y) (hy : y % 2 = (s.byteAt addr).toNat % 2) :
    exec (.pdec d addr 49) s = .next (s.setPointResult d (affOf (s.memRead (addr + 1) 48) y)) :=
  (execPdec_tagged hfit htag).trans (decodePoint_of h hy)

/-- PDEC ends without error only by decoding: the tag is the one of the y found, and x is the number in BUF. -/
theorem exec_pdec_success (hfit : addr + 49 ≤ 256) (h : exec (.pdec d addr 49) s = .next t) (hok : t.err = false) :
    ∃ y, onCurve (s.memRead (addr + 1) 48) y ∧ s.byteAt addr = tagOf y ∧
      t = s.setPointResult d (affOf (s.memRead (addr + 1) 48) y) := by
  have noRaise (c : ErrCode) : exec (.pdec d addr 49) s ≠ .next (s.raise c) := by
    intro hc
    cases h.symm.trans hc
    exact Bool.noConfusion hok
  have htag : s.byteAt addr = 0x02#8 ∨ s.byteAt addr = 0x03#8 := by
    by_contra hbad
    obtain ⟨h2, h3⟩ := not_or.mp hbad
    exact noRaise _ (exec_pdec_of_tag d hfit h2 h3)
  obtain ⟨y₀, hon₀⟩ : ∃ y, onCurve (s.memRead (addr + 1) 48) y := by
    by_contra hoff
    exact noRaise _ (exec_pdec_of_not_onCurve d hfit htag hoff)
  obtain ⟨y, hon, hy⟩ := exists_root_of_parity (s.byteAt addr).toNat hon₀
  cases h.symm.trans (exec_pdec_of_onCurve d hfit htag hon hy)
  exact ⟨y, hon, eq_tagOf_of_parity htag hy, rfl⟩

end

/-- Settles O56: the checks in the order of the rule, then the root of the tag's parity. -/
theorem pdecReadsCompressedPoint : Obligations.PdecReadsCompressedPoint := by
  intro d addr len
  refine ⟨decode_pdec d, fun s => ⟨fun hlen => raisesError_of_exec (exec_pdec_of_length d addr s hlen), ?_, ?_⟩⟩
  · rintro rfl hrange
    exact raisesError_of_exec (exec_pdec_of_range d s hrange)
  · rintro rfl hfit
    refine ⟨fun h2 h3 => raisesError_of_exec (exec_pdec_of_tag d hfit h2 h3), fun htag => ⟨fun hoff => ?_,
      fun y hon hy => ?_⟩, fun _ ⟨_, hon⟩ => exists_root_of_parity _ hon⟩
    · exact raisesError_of_exec (exec_pdec_of_not_onCurve d hfit htag hoff)
    · exact writesPoint_of_exec (exec_pdec_of_onCurve d hfit htag hon hy)

/-! ## The round trip -/

theorem State.setPointResult_err (s : State) (d : PReg) (q : PointVal) : (s.setPointResult d q).err = s.err := by
  rw [State.setPointResult_eq, State.setInf_err, State.setPoint_err]

section
variable {d r : PReg} {addr : Nat} {s : State}

/-- PDEC reads back the compressed form of a point of the curve (45_codec.md rule R193). -/
theorem exec_pdec_putCompressed (d : PReg) {x y : Val} (hwf : Memory.wf s.buf = true) (hfit : addr + 49 ≤ 256)
    (hon : onCurve x.toNat y.toNat) :
    exec (.pdec d addr 49) (s.putCompressed addr x y) =
      .next ((s.putCompressed addr x y).setPointResult d (.aff x y)) := by
  have hx := State.putCompressed_memRead x y hwf hfit
  have htag := State.putCompressed_tag (addr := addr) x y hwf
  rw [exec_pdec_of_onCurve d hfit (htag ▸ tagOf_recognised y.toNat) (hx.symm ▸ hon) (htag ▸ tagOf_parity y.toNat),
    hx, affOf_toNat]

/-- The compressed form of a decoded point is the 49 bytes it was decoded from (45_codec.md rule R193). -/
theorem putCompressed_decoded {t : State} {addr2 y : Nat} (hwf : Memory.wf t.buf = true) (hfit : addr2 + 49 ≤ 256)
    (hon : onCurve (s.memRead (addr + 1) 48) y) (htag : s.byteAt addr = tagOf y) {j : Nat} (hj : j < 49) :
    (t.putCompressed addr2 (BitVec.ofNat 384 (s.memRead (addr + 1) 48)) (BitVec.ofNat 384 y)).byteAt (addr2 + j) =
      s.byteAt (addr + j) := by
  obtain ⟨hx, hy, -⟩ := hon
  refine State.byteAt_eq_of_compressed_eq ?_ ?_ hj
  · rw [State.putCompressed_tag _ _ hwf, val_toNat_ofNat hy p_lt, htag]
  · rw [State.putCompressed_memRead _ _ hwf hfit, val_toNat_ofNat hx p_lt]

end

/-- Settles O60: PDEC reads back what PENC stores, and PENC stores the tag and the number that PDEC read. -/
theorem codecRoundTrip : Obligations.CodecRoundTrip := by
  intro d r addr s hinv hfit
  constructor
  · intro hne
    obtain ⟨hwf, hpts, -⟩ := hinv
    cases hpoint : s.point r with
    | inf => exact absurd hpoint hne
    | aff x y =>
      obtain ⟨hd, hinf⟩ := (s.putCompressed addr x y).setPointResult_spec d (.aff x y)
      exact ⟨_, _, exec_penc_of_aff hfit hpoint, exec_pdec_putCompressed d hwf hfit (hpts.aff_onCurve hpoint),
        hd, hinf, (State.setPointResult_err _ d _).trans (s.putCompressed_err addr x y)⟩
  · intro addr2 t hfit2 _ hexec hok
    obtain ⟨hwf, -, -⟩ := exec_keeps_inv hinv hexec
    obtain ⟨y, hon, htag, rfl⟩ := exec_pdec_success hfit hexec hok
    obtain ⟨hd, -⟩ := s.setPointResult_spec d (affOf (s.memRead (addr + 1) 48) y)
    exact ⟨_, exec_penc_of_aff hfit2 hd, fun j hj => putCompressed_decoded hwf hfit2 hon htag hj⟩

end Sys2Proof.Machine
end

section
/-! Errors and the squash (60_exceptions.md rules R221, R224, R225). What a command does to the error record is
`exec_control`: an error of its own row, CLRERR, or the control state as it was. -/

namespace Sys2Proof.Machine

/-- Settles O15: an error is the error entry `State.raise`, and the control state holds the error record. -/
theorem errorsArePrecise : Obligations.ErrorsArePrecise := by
  intro i s t h
  rcases exec_control h with ⟨c, hc, rfl⟩ | ⟨hclr, -⟩ | hsame
  · exact .inr (.inr ⟨c, hc, State.raise_endsInError s c⟩)
  · exact .inl hclr
  · exact .inr (.inl hsame.sameErrorRecord)

/-! ## The codes -/

/-- ERR goes from 0 to 1 only by an error of the command's own row (rule R221). -/
theorem exec_sets_err {i : Instr} {s t : State} (h : exec i s = .next t) (hs : s.err = false) (ht : t.err = true) :
    ∃ c ∈ raisableErrors i, t = s.raise c := by
  rcases exec_control h with herr | ⟨-, rfl⟩ | ⟨-, hsame, -⟩
  · exact herr
  · cases ht
  · rw [hsame, hs] at ht
    cases ht

/-- A command without a row in rule R221 leaves ERR = 0. -/
theorem exec_keeps_err_clear {i : Instr} {s t : State} (hnone : raisableErrors i = []) (h : exec i s = .next t)
    (hs : s.err = false) : t.err = false := by
  refine Bool.eq_false_iff.mpr fun ht => ?_
  obtain ⟨c, hc, -⟩ := exec_sets_err h hs ht
  rw [hnone] at hc
  cases hc

/-- Settles O20: the values are `ErrCode.byte`; the rest is which error sets ERR. -/
theorem errorCodesByCommand : Obligations.ErrorCodesByCommand := by
  refine ⟨⟨rfl, rfl, rfl, rfl, rfl, rfl, rfl, rfl, rfl⟩, fun i s t h hs ht => ?_, fun i s hnone hs => ?_⟩
  · obtain ⟨c, hc, rfl⟩ := exec_sets_err h hs ht
    exact ⟨c, hc, rfl⟩
  · obtain ⟨t, h⟩ := exec_next i s
    exact ⟨t, h, exec_keeps_err_clear hnone h hs⟩

/-! ## The squash -/

/-- The words that do not execute while ERR = 1 (rule R225). -/
theorem survivesError_eq_false_iff (w : Word) :
    survivesError w = false ↔ w ≠ 0x00000000#32 ∧ w ≠ 0x01000000#32 ∧ w ≠ 0x02000000#32 := by
  simp only [survivesError, Bool.or_eq_false_iff, beq_eq_false_iff_ne, and_assoc]

/-- The completion of a squashed word. -/
theorem step_squash {s : State} (hb : s.busy = true) (herr : s.err = true) (he : nextEvent s = .completion)
    (hw : survivesError s.cmdLatch = false) : step s = .next s.takeEvent.retire := by
  rw [step_completion he, complete_busy (s := s.takeEvent) hb, execLatch_squash (s := s.takeEvent) herr hw,
    retireResult]

/-- Settles O13. -/
theorem squashChangesOnlyBusy : Obligations.SquashChangesOnlyBusy :=
  fun _ hb herr he hnop hclrerr hzeroize =>
    step_squash hb herr he ((survivesError_eq_false_iff _).mpr ⟨hnop, hclrerr, hzeroize⟩)

end Sys2Proof.Machine
end

section
/-! Completion and what the host reads meanwhile (70_reset_and_hazards.md rules R272, R273). A command never looks at
the model's host port, so the reads recorded there cannot change what its completion does. -/

namespace Sys2Proof.Machine

/-! ## Every command completes -/

/-- Exec(CMDLATCH) ends in a next state whatever the word (`execLatch_next`), and BUSY <- 0 follows. -/
theorem complete_busy_next {s : State} (hb : s.busy = true) : ∃ t, complete s = .next t ∧ t.busy = false := by
  obtain ⟨u, hu⟩ := execLatch_next s
  exact ⟨u.retire, by rw [complete_busy hb, hu, retireResult], rfl⟩

/-- Settles O14. -/
theorem everyCommandCompletes : Obligations.EveryCommandCompletes := by
  intro s hb he
  rw [step_completion he]
  exact complete_busy_next (s := s.takeEvent) hb

/-! ## The host's port and a completion -/

theorem Effect.apply_withPort (e : Effect) (s : State) (p : Port) :
    e.apply { s with port := p } = { e.apply s with port := p } := by
  cases e <;> rfl

/-- By `exec_effect` the effect is chosen from x, P and BUF, not from the port. -/
theorem exec_withPort {i : Instr} {s t : State} (p : Port) (h : exec i s = .next t) :
    exec i { s with port := p } = .next { t with port := p } := by
  obtain ⟨f, hf⟩ := exec_effect i
  rw [hf s] at h
  cases h
  exact (hf _).trans (congrArg _ (Effect.apply_withPort _ s p))

/-- A word that is not squashed and is no command (30_encoding.md rule R100). -/
theorem execLatch_illegal {s : State} {e : DecodeError} (hrun : s.err = false ∨ survivesError s.cmdLatch = true)
    (hd : decode s.cmdLatch = .error e) : execLatch s = .next (s.raise .illegalCmd) := by
  rw [execLatch_runs hrun, hd]

/-- A command that is not squashed (30_encoding.md rule R100). -/
theorem execLatch_decoded {s : State} {i : Instr} (hrun : s.err = false ∨ survivesError s.cmdLatch = true)
    (hd : decode s.cmdLatch = .ok i) : execLatch s = exec i s := by
  rw [execLatch_runs hrun, hd]

theorem execLatch_withPort {s t : State} (p : Port) (h : execLatch s = .next t) :
    execLatch { s with port := p } = .next { t with port := p } := by
  rcases execLatch_cases h with ⟨herr, hsquash, rfl⟩ | ⟨hrun, ⟨e, hd, rfl⟩ | ⟨i, hd, hexec⟩⟩
  · exact execLatch_squash herr hsquash
  · exact execLatch_illegal (s := { s with port := p }) hrun hd
  · exact (execLatch_decoded (s := { s with port := p }) hrun hd).trans (exec_withPort p hexec)

theorem complete_withPort {s t : State} (p : Port) (h : complete s = .next t) :
    complete { s with port := p } = .next { t with port := p } := by
  rcases complete_cases h with ⟨hidle, rfl⟩ | ⟨hb, u, hu, rfl⟩
  · exact complete_idle hidle
  · rw [complete_busy (s := { s with port := p }) hb, execLatch_withPort p hu]
    rfl

/-! ## States with the same core -/

theorem SameCore.withScript {s u : State} (h : SameCore s u) (es : List HostEvent) :
    SameCore (s.withScript es) (u.withScript es) := by
  rw [SameCore] at h
  rw [h]
  rfl

theorem SameCore.takeEvent {s u : State} (h : SameCore s u) : SameCore s.takeEvent u.takeEvent := by
  rw [SameCore] at h
  rw [h]
  rfl

theorem SameCore.of_reply {s u : State} {r : Reply} (h : SameCore (s.reply r) u) : SameCore s u := h

/-- The completion of the same command in the same core gives the same core. -/
theorem SameCore.completion {s t u : State} (h : SameCore s u) (hs : nextEvent s = .completion)
    (hu : nextEvent u = .completion) (ht : step s = .next t) : ∃ v, step u = .next v ∧ SameCore t v := by
  rw [step_completion hs] at ht
  refine ⟨{ t with port := u.takeEvent.port }, ?_, rfl⟩
  rw [step_completion hu]
  exact (congrArg complete h.takeEvent).trans (complete_withPort _ ht)

/-! ## Reads before a completion -/

/-- `n` reads of a register change the host's port alone; the run goes on with the events after them. -/
theorem run_reads {off : Nat} (hoff : inBufWindow off = false) (es : List HostEvent) (k : Nat) :
    ∀ (n : Nat) (s : State), ∃ u, SameCore s u ∧
      Host.Core.run core (n + k) (s.withScript (List.replicate n (.regRead off) ++ es)) =
        Host.Core.run core k (u.withScript es)
  | 0, s => ⟨s, rfl, by rw [Nat.zero_add]; rfl⟩
  | n + 1, s => by
    have hread : step (s.withScript (List.replicate (n + 1) (.regRead off) ++ es)) =
        .next ((s.reply (.reg (s.regValue off))).withScript (List.replicate n (.regRead off) ++ es)) :=
      step_regRead rfl hoff
    obtain ⟨u, hcore, hrun⟩ := run_reads hoff es k n (s.reply (.reg (s.regValue off)))
    refine ⟨u, hcore.of_reply, ?_⟩
    rw [Nat.succ_add, run_next _ hread, hrun]

/-- Settles O24: the reads leave the core as it was, and the completion does not depend on the port. -/
theorem statusReadsAreInvisible : Obligations.StatusReadsAreInvisible := by
  intro s t n _ ht
  obtain ⟨u, hcore, hrun⟩ := run_reads (off := offStatus) (inBufWindow_below (by decide)) [.completion] 1 n s
  obtain ⟨v, hv, hsame⟩ := (hcore.withScript [.completion]).completion rfl rfl ht
  exact ⟨v, hrun.trans (run_next 0 hv), hsame⟩

end Sys2Proof.Machine
end
